-- ==== Sys2Proof/Word.lean ====
section
/-! DEFINITION. The word types of U128E (00_scope.md R7 to R9, 10_state.md R20): a 128-bit register value, a 64-bit limb,
a 32-bit word of the command buffer or the host window, a byte, and the number of a register. -/

namespace Sys2Proof

/-- The value of a register: an unsigned 128-bit integer (R20). -/
abbrev Word128 := BitVec 128

/-- A limb: one 64-bit half of a register value (R9). -/
abbrev Word64 := BitVec 64

/-- A command word or a word of the host window (R51, R70). -/
abbrev Word32 := BitVec 32

/-- An index into the command buffer, the width of `pc` (R26). -/
abbrev Word16 := BitVec 16

/-- One byte of a word (R53 b). -/
abbrev Byte := BitVec 8

/-- The number of a register, `q0` to `q15` (R23, R74). -/
abbrev Reg := Fin 16

end Sys2Proof
end

