-- ==== Sys2Proof/Syntax.lean ====
section
/-! DEFINITION. The 39 commands of U128E (30_encoding.md R77), one constructor per row of `spec/opcode_table.json`, destination
first, in the order of R77's operand column. Register operands are register numbers; immediates and offsets are the numbers the
assembler writes (R81), and `Instr.wellFormed` says which of them an encoding can hold (log 16). -/

namespace Sys2Proof

/-- LDC's constant selector `k` = 0, 1, 2, 3 (R75 c, R103). -/
inductive LdcConst where
  /-- `k = 0`: Zero. -/
  | zero
  /-- `k = 1`: One. -/
  | one
  /-- `k = 2`: MaxValue. -/
  | max
  /-- `k = 3`: MinValue. -/
  | min
deriving DecidableEq, Repr

/-- ABSU's operand width, `wsel` = 0, 1, 2, 3 (R75 d, R194). -/
inductive AbsWidth where
  /-- `wsel = 0`: 8 bits. -/
  | w8
  /-- `wsel = 1`: 16 bits. -/
  | w16
  /-- `wsel = 2`: 32 bits. -/
  | w32
  /-- `wsel = 3`: 64 bits. -/
  | w64
deriving DecidableEq, Repr

/-- A command (R77). -/
inductive Instr where
  /-- NOP (R236). -/
  | nop
  /-- HALT (R237). -/
  | halt
  /-- JMP off16, the offset signed and in words (R238). -/
  | jmp (off : Int)
  /-- BZ rs1, off16 (R239). -/
  | bz (rs1 : Reg) (off : Int)
  /-- BNZ rs1, off16 (R240). -/
  | bnz (rs1 : Reg) (off : Int)
  /-- MOV rd, rs1 (R100). -/
  | mov (rd rs1 : Reg)
  /-- LDI rd, imm16 (R101). -/
  | ldi (rd : Reg) (imm : Nat)
  /-- LDIS rd, imm16 (R102). -/
  | ldis (rd : Reg) (imm : Nat)
  /-- LDC rd, k (R103). -/
  | ldc (rd : Reg) (k : LdcConst)
  /-- MAKE rd, rs1, rs2 (R104). -/
  | make (rd rs1 rs2 : Reg)
  /-- LO rd, rs1 (R105). -/
  | lo (rd rs1 : Reg)
  /-- HI rd, rs1 (R106). -/
  | hi (rd rs1 : Reg)
  /-- ISNARROW rd, rs1 (R107). -/
  | isnarrow (rd rs1 : Reg)
  /-- CEQ rd, rs1, rs2 (R120). -/
  | ceq (rd rs1 rs2 : Reg)
  /-- CNE rd, rs1, rs2 (R121). -/
  | cne (rd rs1 rs2 : Reg)
  /-- CLT rd, rs1, rs2 (R122). -/
  | clt (rd rs1 rs2 : Reg)
  /-- CLE rd, rs1, rs2 (R123). -/
  | cle (rd rs1 rs2 : Reg)
  /-- CGT rd, rs1, rs2 (R124). -/
  | cgt (rd rs1 rs2 : Reg)
  /-- CGE rd, rs1, rs2 (R125). -/
  | cge (rd rs1 rs2 : Reg)
  /-- AND rd, rs1, rs2 (R127). -/
  | and (rd rs1 rs2 : Reg)
  /-- OR rd, rs1, rs2 (R128). -/
  | or (rd rs1 rs2 : Reg)
  /-- SHL rd, rs1, rs2 (R131). -/
  | shl (rd rs1 rs2 : Reg)
  /-- SHR rd, rs1, rs2 (R132). -/
  | shr (rd rs1 rs2 : Reg)
  /-- SHLI rd, rs1, imm7 (R133). -/
  | shli (rd rs1 : Reg) (amount : Nat)
  /-- SHRI rd, rs1, imm7 (R134). -/
  | shri (rd rs1 : Reg) (amount : Nat)
  /-- ADD rd, rs1, rs2 (R141). -/
  | add (rd rs1 rs2 : Reg)
  /-- SUB rd, rs1, rs2 (R143). -/
  | sub (rd rs1 rs2 : Reg)
  /-- MUL64 rd, rs1, rs2 (R151). -/
  | mul64 (rd rs1 rs2 : Reg)
  /-- SQR64 rd, rs1 (R153). -/
  | sqr64 (rd rs1 : Reg)
  /-- MUL rd, rs1, rs2 (R155). -/
  | mul (rd rs1 rs2 : Reg)
  /-- DIV rd, rs1, rs2 (R166). -/
  | div (rd rs1 rs2 : Reg)
  /-- MOD rd, rs1, rs2 (R167). -/
  | mod (rd rs1 rs2 : Reg)
  /-- DIVREM rd, rd2, rs1, rs2, with `rd2` in the rs3 field (R168). -/
  | divrem (rd rd2 rs1 rs2 : Reg)
  /-- ABSU rd, rs1, wsel (R194). -/
  | absu (rd rs1 : Reg) (w : AbsWidth)
  /-- MULMOD rd, rs1, rs2, rs3 (R191). -/
  | mulmod (rd rs1 rs2 rs3 : Reg)
  /-- MODPOW rd, rs1, rs2, rs3 (R196). -/
  | modpow (rd rs1 rs2 rs3 : Reg)
  /-- GCD rd, rs1, rs2 (R211). -/
  | gcd (rd rs1 rs2 : Reg)
  /-- ISCOPRIME rd, rs1, rs2 (R213). -/
  | iscoprime (rd rs1 rs2 : Reg)
  /-- ISPRIME rd, rs1 (R226). -/
  | isprime (rd rs1 : Reg)
deriving DecidableEq, Repr

end Sys2Proof
end

