-- ==== Sys2Proof/WellFormed.lean ====
section
/-! DEFINITION. Which commands an encoding can hold (30_encoding.md R74, R75): a 16-bit immediate, a shift amount of 7 bits, a
signed 16-bit branch offset. Register numbers, LDC's selector and ABSU's width are bounded by their types. -/

namespace Sys2Proof

/-- An immediate of LDI or LDIS: `0..65535` (R75 a). -/
def immInRange (imm : Nat) : Bool := imm < 65536

/-- An amount of SHLI or SHRI: `0..127` (R75 b; R133: "an amount of 128 or more cannot be encoded"). -/
def amountInRange (amount : Nat) : Bool := amount < 128

/-- An offset of JMP, BZ or BNZ: `-32768..32767` (R75 e). -/
def offInRange (off : Int) : Bool := -32768 ≤ off && off ≤ 32767

/-- The command can be encoded (R74, R75). -/
def Instr.wellFormed : Instr → Bool
  | .jmp off | .bz _ off | .bnz _ off => offInRange off
  | .ldi _ imm | .ldis _ imm => immInRange imm
  | .shli _ _ amount | .shri _ _ amount => amountInRange amount
  | .nop | .halt => true
  | .mov _ _ | .ldc _ _ | .make _ _ _ | .lo _ _ | .hi _ _ | .isnarrow _ _ => true
  | .ceq _ _ _ | .cne _ _ _ | .clt _ _ _ | .cle _ _ _ | .cgt _ _ _ | .cge _ _ _ => true
  | .and _ _ _ | .or _ _ _ | .shl _ _ _ | .shr _ _ _ | .add _ _ _ | .sub _ _ _ => true
  | .mul64 _ _ _ | .sqr64 _ _ | .mul _ _ _ | .div _ _ _ | .mod _ _ _ | .divrem _ _ _ _ => true
  | .absu _ _ _ | .mulmod _ _ _ _ | .modpow _ _ _ _ => true
  | .gcd _ _ _ | .iscoprime _ _ _ | .isprime _ _ => true

end Sys2Proof
end

