-- ==== Sys2Proof/Decode.lean ====
section
/-! DEFINITION. Command words (30_encoding.md): the fields (R71 to R75), the decoder (R76, R77), total on any word and rejecting
by name, the encoder written from the same table, and the table of R77 itself as masks and matches. -/

namespace Sys2Proof

/-- Bits `[lo+len-1:lo]` of a word, as a number (R8). -/
def bits (w : Word32) (lo len : Nat) : Nat := w.toNat / 2 ^ lo % 2 ^ len

/-- The opcode, bits [31:24] in every format (R70). -/
def opcodeOf (w : Word32) : Nat := bits w 24 8

/-- The register number in the four bits from bit `lo` up (R74). -/
def regField (w : Word32) (lo : Nat) : Reg := Fin.ofNat 16 (bits w lo 4)

/-- Field `rd`, bits [23:20] (R71, R72). -/
def rdOf (w : Word32) : Reg := regField w 20

/-- Field `rs1`, bits [19:16] (R71 to R73). -/
def rs1Of (w : Word32) : Reg := regField w 16

/-- Field `rs2`, bits [15:12] (R71). -/
def rs2Of (w : Word32) : Reg := regField w 12

/-- Field `rs3`, bits [11:8], which DIVREM calls `rd2` (R71, R74). -/
def rs3Of (w : Word32) : Reg := regField w 8

/-- Field `imm16`, bits [15:0] (R72). -/
def imm16Of (w : Word32) : Nat := bits w 0 16

/-- `sext(off16)`: the 16 bits as a two's-complement number (R75 e, R241). -/
def sext16 (n : Nat) : Int := if n < 0x8000 then (n : Int) else (n : Int) - 0x10000

/-- Field `off16`, sign-extended (R73, R75 e). -/
def offOf (w : Word32) : Int := sext16 (bits w 0 16)

/-- LDC's selector (R75 c, R103). -/
def ldcConstOf : Nat → LdcConst
  | 0 => .zero
  | 1 => .one
  | 2 => .max
  | _ => .min

/-- LDC's selector as `k` (R103). -/
def LdcConst.sel : LdcConst → Nat
  | .zero => 0
  | .one => 1
  | .max => 2
  | .min => 3

/-- ABSU's width selector (R75 d). -/
def absWidthOf : Nat → AbsWidth
  | 0 => .w8
  | 1 => .w16
  | 2 => .w32
  | _ => .w64

/-- ABSU's width as `wsel` (R194). -/
def AbsWidth.sel : AbsWidth → Nat
  | .w8 => 0
  | .w16 => 1
  | .w32 => 2
  | .w64 => 3

/-- Why a word is no command (R76): all of them raise ILLEGAL when the word is fetched (R282). -/
inductive DecodeReject where
  /-- The opcode is in no row of R77. -/
  | unassignedOpcode
  /-- The opcode is assigned and a must-be-zero bit is 1. -/
  | mustBeZero
  /-- Not four bytes: no command has another length (R70). -/
  | notOneWord
deriving DecidableEq, Repr

/-- The command `i`, if bits `[lo+len-1:lo]` of the word are zero (R74, R76). -/
def ifZero (w : Word32) (lo len : Nat) (i : Instr) : Except DecodeReject Instr :=
  if bits w lo len = 0 then .ok i else .error .mustBeZero

/-- The command a word stands for (R76, R77). -/
def decodeWord (w : Word32) : Except DecodeReject Instr :=
  match opcodeOf w with
  | 0x01 => ifZero w 0 24 .nop
  | 0x02 => ifZero w 0 24 .halt
  | 0x03 => ifZero w 16 8 (.jmp (offOf w))
  | 0x04 => ifZero w 20 4 (.bz (rs1Of w) (offOf w))
  | 0x05 => ifZero w 20 4 (.bnz (rs1Of w) (offOf w))
  | 0x08 => ifZero w 0 16 (.mov (rdOf w) (rs1Of w))
  | 0x09 => ifZero w 16 4 (.ldi (rdOf w) (imm16Of w))
  | 0x0A => ifZero w 16 4 (.ldis (rdOf w) (imm16Of w))
  | 0x0B => ifZero w 2 18 (.ldc (rdOf w) (ldcConstOf (bits w 0 2)))
  | 0x0C => ifZero w 0 12 (.make (rdOf w) (rs1Of w) (rs2Of w))
  | 0x0D => ifZero w 0 16 (.lo (rdOf w) (rs1Of w))
  | 0x0E => ifZero w 0 16 (.hi (rdOf w) (rs1Of w))
  | 0x0F => ifZero w 0 16 (.isnarrow (rdOf w) (rs1Of w))
  | 0x10 => ifZero w 0 12 (.ceq (rdOf w) (rs1Of w) (rs2Of w))
  | 0x11 => ifZero w 0 12 (.cne (rdOf w) (rs1Of w) (rs2Of w))
  | 0x12 => ifZero w 0 12 (.clt (rdOf w) (rs1Of w) (rs2Of w))
  | 0x13 => ifZero w 0 12 (.cle (rdOf w) (rs1Of w) (rs2Of w))
  | 0x14 => ifZero w 0 12 (.cgt (rdOf w) (rs1Of w) (rs2Of w))
  | 0x15 => ifZero w 0 12 (.cge (rdOf w) (rs1Of w) (rs2Of w))
  | 0x18 => ifZero w 0 12 (.and (rdOf w) (rs1Of w) (rs2Of w))
  | 0x19 => ifZero w 0 12 (.or (rdOf w) (rs1Of w) (rs2Of w))
  | 0x1C => ifZero w 0 12 (.shl (rdOf w) (rs1Of w) (rs2Of w))
  | 0x1D => ifZero w 0 12 (.shr (rdOf w) (rs1Of w) (rs2Of w))
  | 0x1E => ifZero w 7 9 (.shli (rdOf w) (rs1Of w) (bits w 0 7))
  | 0x1F => ifZero w 7 9 (.shri (rdOf w) (rs1Of w) (bits w 0 7))
  | 0x20 => ifZero w 0 12 (.add (rdOf w) (rs1Of w) (rs2Of w))
  | 0x21 => ifZero w 0 12 (.sub (rdOf w) (rs1Of w) (rs2Of w))
  | 0x28 => ifZero w 0 12 (.mul64 (rdOf w) (rs1Of w) (rs2Of w))
  | 0x29 => ifZero w 0 16 (.sqr64 (rdOf w) (rs1Of w))
  | 0x2A => ifZero w 0 12 (.mul (rdOf w) (rs1Of w) (rs2Of w))
  | 0x30 => ifZero w 0 12 (.div (rdOf w) (rs1Of w) (rs2Of w))
  | 0x31 => ifZero w 0 12 (.mod (rdOf w) (rs1Of w) (rs2Of w))
  | 0x32 => ifZero w 0 8 (.divrem (rdOf w) (rs3Of w) (rs1Of w) (rs2Of w))
  | 0x38 => ifZero w 2 14 (.absu (rdOf w) (rs1Of w) (absWidthOf (bits w 0 2)))
  | 0x39 => ifZero w 0 8 (.mulmod (rdOf w) (rs1Of w) (rs2Of w) (rs3Of w))
  | 0x3A => ifZero w 0 8 (.modpow (rdOf w) (rs1Of w) (rs2Of w) (rs3Of w))
  | 0x40 => ifZero w 0 12 (.gcd (rdOf w) (rs1Of w) (rs2Of w))
  | 0x41 => ifZero w 0 12 (.iscoprime (rdOf w) (rs1Of w) (rs2Of w))
  | 0x42 => ifZero w 0 16 (.isprime (rdOf w) (rs1Of w))
  | _ => .error .unassignedOpcode

/-- The word made of four bytes, the lowest address first (R53 b). -/
def wordOfBytes (b0 b1 b2 b3 : Byte) : Word32 := b3 ++ b2 ++ b1 ++ b0

/-- Byte `j` of a word, byte 0 at the lowest address (R53 b). -/
def byteOf (w : Word32) (j : Nat) : Byte := w.extractLsb' (8 * j) 8

/-- The command that a word's bytes stand for, lowest address first; total on any bytes (R53 b, R70). -/
def decodeBytes : List Byte → Except DecodeReject Instr
  | [b0, b1, b2, b3] => decodeWord (wordOfBytes b0 b1 b2 b3)
  | _ => .error .notOneWord

/-- The command the decoder reads from the bits `w` of a row of `spec/opcode_table.json`; every row is one word. -/
def decodeTableWord (nbits w : Nat) : Option Instr :=
  if nbits ≤ 32 then
    let word := BitVec.ofNat 32 (w % 2 ^ nbits)
    (decodeBytes [byteOf word 0, byteOf word 1, byteOf word 2, byteOf word 3]).toOption
  else
    none

/-! ## The encoder -/

/-- A word in format R (R71); the low byte is zero in every row that uses this format. -/
def wordR (op : Nat) (rd rs1 rs2 rs3 : Reg) : Word32 :=
  BitVec.ofNat 32 (op * 2 ^ 24 + rd.val * 2 ^ 20 + rs1.val * 2 ^ 16 + rs2.val * 2 ^ 12 + rs3.val * 2 ^ 8)

/-- A word in format I, or in format B with `rd` zero (R72, R73). -/
def wordI (op : Nat) (rd rs1 : Reg) (imm : Nat) : Word32 :=
  BitVec.ofNat 32 (op * 2 ^ 24 + rd.val * 2 ^ 20 + rs1.val * 2 ^ 16 + imm % 2 ^ 16)

/-- `wrap_16` of an offset: the bits that `off16` holds (R7, R75 e). -/
def off16Bits (off : Int) : Nat := (off % 65536).toNat

/-- The word of a command (R77), fields a command does not use being zero (R74). -/
def encode : Instr → Word32
  | .nop => wordR 0x01 0 0 0 0
  | .halt => wordR 0x02 0 0 0 0
  | .jmp off => wordI 0x03 0 0 (off16Bits off)
  | .bz rs1 off => wordI 0x04 0 rs1 (off16Bits off)
  | .bnz rs1 off => wordI 0x05 0 rs1 (off16Bits off)
  | .mov rd rs1 => wordR 0x08 rd rs1 0 0
  | .ldi rd imm => wordI 0x09 rd 0 imm
  | .ldis rd imm => wordI 0x0A rd 0 imm
  | .ldc rd k => wordI 0x0B rd 0 k.sel
  | .make rd rs1 rs2 => wordR 0x0C rd rs1 rs2 0
  | .lo rd rs1 => wordR 0x0D rd rs1 0 0
  | .hi rd rs1 => wordR 0x0E rd rs1 0 0
  | .isnarrow rd rs1 => wordR 0x0F rd rs1 0 0
  | .ceq rd rs1 rs2 => wordR 0x10 rd rs1 rs2 0
  | .cne rd rs1 rs2 => wordR 0x11 rd rs1 rs2 0
  | .clt rd rs1 rs2 => wordR 0x12 rd rs1 rs2 0
  | .cle rd rs1 rs2 => wordR 0x13 rd rs1 rs2 0
  | .cgt rd rs1 rs2 => wordR 0x14 rd rs1 rs2 0
  | .cge rd rs1 rs2 => wordR 0x15 rd rs1 rs2 0
  | .and rd rs1 rs2 => wordR 0x18 rd rs1 rs2 0
  | .or rd rs1 rs2 => wordR 0x19 rd rs1 rs2 0
  | .shl rd rs1 rs2 => wordR 0x1C rd rs1 rs2 0
  | .shr rd rs1 rs2 => wordR 0x1D rd rs1 rs2 0
  | .shli rd rs1 amount => wordI 0x1E rd rs1 amount
  | .shri rd rs1 amount => wordI 0x1F rd rs1 amount
  | .add rd rs1 rs2 => wordR 0x20 rd rs1 rs2 0
  | .sub rd rs1 rs2 => wordR 0x21 rd rs1 rs2 0
  | .mul64 rd rs1 rs2 => wordR 0x28 rd rs1 rs2 0
  | .sqr64 rd rs1 => wordR 0x29 rd rs1 0 0
  | .mul rd rs1 rs2 => wordR 0x2A rd rs1 rs2 0
  | .div rd rs1 rs2 => wordR 0x30 rd rs1 rs2 0
  | .mod rd rs1 rs2 => wordR 0x31 rd rs1 rs2 0
  | .divrem rd rd2 rs1 rs2 => wordR 0x32 rd rs1 rs2 rd2
  | .absu rd rs1 w => wordI 0x38 rd rs1 w.sel
  | .mulmod rd rs1 rs2 rs3 => wordR 0x39 rd rs1 rs2 rs3
  | .modpow rd rs1 rs2 rs3 => wordR 0x3A rd rs1 rs2 rs3
  | .gcd rd rs1 rs2 => wordR 0x40 rd rs1 rs2 0
  | .iscoprime rd rs1 rs2 => wordR 0x41 rd rs1 rs2 0
  | .isprime rd rs1 => wordR 0x42 rd rs1 0 0

/-! ## The table of R77 -/

/-- One row of R77: the mnemonic, the word with all fields zero, and a 1 in every bit that must equal it. -/
structure OpRow where
  mnemonic : String
  matchBits : Word32
  mask : Word32
deriving DecidableEq, Repr

/-- A word matches a row: `(word & mask) = match` (R76). -/
def OpRow.accepts (row : OpRow) (w : Word32) : Bool := w &&& row.mask == row.matchBits

/-- The rows of R77, in opcode order. -/
def opcodeTable : List OpRow :=
  [⟨"NOP", 0x01000000, 0xFFFFFFFF⟩, ⟨"HALT", 0x02000000, 0xFFFFFFFF⟩, ⟨"JMP", 0x03000000, 0xFFFF0000⟩,
   ⟨"BZ", 0x04000000, 0xFFF00000⟩, ⟨"BNZ", 0x05000000, 0xFFF00000⟩] ++
  [⟨"MOV", 0x08000000, 0xFF00FFFF⟩, ⟨"LDI", 0x09000000, 0xFF0F0000⟩, ⟨"LDIS", 0x0A000000, 0xFF0F0000⟩,
   ⟨"LDC", 0x0B000000, 0xFF0FFFFC⟩, ⟨"MAKE", 0x0C000000, 0xFF000FFF⟩, ⟨"LO", 0x0D000000, 0xFF00FFFF⟩,
   ⟨"HI", 0x0E000000, 0xFF00FFFF⟩, ⟨"ISNARROW", 0x0F000000, 0xFF00FFFF⟩] ++
  [⟨"CEQ", 0x10000000, 0xFF000FFF⟩, ⟨"CNE", 0x11000000, 0xFF000FFF⟩, ⟨"CLT", 0x12000000, 0xFF000FFF⟩,
   ⟨"CLE", 0x13000000, 0xFF000FFF⟩, ⟨"CGT", 0x14000000, 0xFF000FFF⟩, ⟨"CGE", 0x15000000, 0xFF000FFF⟩,
   ⟨"AND", 0x18000000, 0xFF000FFF⟩, ⟨"OR", 0x19000000, 0xFF000FFF⟩] ++
  [⟨"SHL", 0x1C000000, 0xFF000FFF⟩, ⟨"SHR", 0x1D000000, 0xFF000FFF⟩, ⟨"SHLI", 0x1E000000, 0xFF00FF80⟩,
   ⟨"SHRI", 0x1F000000, 0xFF00FF80⟩, ⟨"ADD", 0x20000000, 0xFF000FFF⟩, ⟨"SUB", 0x21000000, 0xFF000FFF⟩] ++
  [⟨"MUL64", 0x28000000, 0xFF000FFF⟩, ⟨"SQR64", 0x29000000, 0xFF00FFFF⟩, ⟨"MUL", 0x2A000000, 0xFF000FFF⟩,
   ⟨"DIV", 0x30000000, 0xFF000FFF⟩, ⟨"MOD", 0x31000000, 0xFF000FFF⟩, ⟨"DIVREM", 0x32000000, 0xFF0000FF⟩] ++
  [⟨"ABSU", 0x38000000, 0xFF00FFFC⟩, ⟨"MULMOD", 0x39000000, 0xFF0000FF⟩, ⟨"MODPOW", 0x3A000000, 0xFF0000FF⟩,
   ⟨"GCD", 0x40000000, 0xFF000FFF⟩, ⟨"ISCOPRIME", 0x41000000, 0xFF000FFF⟩, ⟨"ISPRIME", 0x42000000, 0xFF00FFFF⟩]

end Sys2Proof
end

