-- ==== Sys2Proof/Config.lean ====
section
/-! DEFINITION. What one implementation of U128E fixes (00_scope.md R6) and the values the spec leaves free. The contents of
the constant ROMs stand in `Sys2Proof/Machine/Tables.lean`. -/

namespace Sys2Proof.Config

/-- CMDBUF_WORDS: the size of the command buffer in words (R6, R41). -/
def cmdbufWords : Nat := 256

/-- ID_VALUE: what the ID register reads, the bytes "U128" (R6, R31). -/
def idValue : Word32 := 0x55313238#32

/-- SMALL_PRIME_LIMIT: the largest small prime of the trial filter (R6, R39). -/
def smallPrimeLimit : Nat := 149

/-- TRIAL_LIMIT: below it ISPRIME divides exhaustively (R6, R221 c). -/
def trialLimit : Nat := 1000000

/-- The size of the host window in bytes (R51). -/
def windowBytes : Nat := 2048

/-- FREE VALUE (log 1; R41, R311, U1: "any value"): the byte that window offset `off` of CMDBUF holds after the `n`-th hardware
reset and until something is written there. It has no body, so nothing can be proved of its value. DESIGN CHOICE, safe. -/
opaque powerOnByte (n off : Nat) : Byte

/-- FREE VALUE (log 12; R51, U8): the platform's choice of BASE, counted in window sizes. DESIGN CHOICE, safe. -/
opaque baseIndex : Nat

/-- BASE: the bus address of the host window, a multiple of 2048 (R51). -/
def base : Nat := windowBytes * baseIndex

end Sys2Proof.Config
end

