-- ==== Sys2Proof/Machine/State.lean ====
section
/-! DEFINITION. The state of U128E (10_state.md R20 to R44), the reasons an access or a step can stop, and the state after a
hardware reset (70_reset_and_hazards.md R311). -/

namespace Sys2Proof.Machine

/-- STATE, the 2-bit run state (R29), as an enumeration of its four values (log 18). -/
inductive RunState where
  /-- `0` IDLE: not running. -/
  | idle
  /-- `1` RUN: the sequencer executes commands. -/
  | run
  /-- `2` DONE: a HALT ended the run. -/
  | done
  /-- `3` FAULT: a command faulted. -/
  | fault
deriving DecidableEq, Repr

/-- What FCAUSE records (R37, R280), as an enumeration of the codes ever produced (U17, log 18). -/
inductive FaultCause where
  /-- `0`: no fault recorded. -/
  | noFault
  /-- `1` DIVZERO. -/
  | divzero
  /-- `2` ILLEGAL. -/
  | illegal
  /-- `3` FETCHRANGE. -/
  | fetchrange
deriving DecidableEq, Repr

/-- The written bytes of CMDBUF as (window offset, byte), in the canonical form of `Memory.wf` (R41, R51, R53; log 2). -/
abbrev Memory := List Host.Cell

/-- Everything U128E holds. ID, CTRL, STATUS, the window's PC, IP and `irq` are views of it (R31 to R36) and the ROMs are
constants (log 17). -/
structure State where
  /-- The general registers `x[0]` to `x[15]` (R23). -/
  x : Vector Word128 16
  /-- The index of the current command (R26). -/
  pc : Word16
  /-- STATE (R29). -/
  runState : RunState
  /-- IE: bit 0 DONE_IE, bit 1 FAULT_IE (R35). -/
  ie : BitVec 2
  /-- FCAUSE (R37). -/
  fcause : FaultCause
  /-- FPC bits [15:0] (R37). -/
  fpc : Word16
  /-- FCMD (R37). -/
  fcmd : Word32
  /-- CMDBUF: the bytes written since the last hardware reset (R41). -/
  cmdbuf : Memory
  /-- The model's own count of hardware resets, the argument of the free bytes of CMDBUF (R41; log 1). -/
  powerOns : Nat
deriving DecidableEq, Repr

/-- Why a host access stops. The three faults of R280 (DIVZERO, ILLEGAL, FETCHRANGE) are no reasons here: they are next
states, with STATE = FAULT (R283). -/
inductive Fault where
  /-- The bus error of R56, raised by `hostRead` and `hostWrite` on an access of another size than four bytes, or misaligned, or
  outside the window. No step raises it. Safe: U128E keeps its state, and no data is claimed of the refused read (log 11). -/
  | busError
deriving DecidableEq, Repr

/-- Why a command has no meaning. -/
inductive Refusal where
  /-- The command of that mnemonic has no meaning in this model; raised by no arm of `exec` now. Safe. -/
  | notModelled (mnemonic : String)
deriving DecidableEq, Repr

/-- What one command or one step answers. -/
abbrev StepResult := Host.Outcome State Fault Refusal

/-- The state after a hardware reset (R44, R311): every register, `pc`, IE and the fault registers `0`, STATE = IDLE, and no
byte of CMDBUF written, so that every one of them is a free value (log 1). -/
def State.reset : State where
  x := Vector.replicate 16 0#128
  pc := 0#16
  runState := .idle
  ie := 0#2
  fcause := .noFault
  fpc := 0#16
  fcmd := 0#32
  cmdbuf := []
  powerOns := 0

end Sys2Proof.Machine
end

