-- ==== Sys2Proof/Machine/Ops.lean ====
section
/-! DEFINITION. The named operations on the state: registers, the command buffer, the program counter, taking a fault
(60_exceptions.md R283) and leaving it (R287), the host's strobes (10_state.md R32) and the resets (70_reset_and_hazards.md). -/

namespace Sys2Proof.Machine

/-! ## Registers (R23, R24) -/

/-- `x[r]` (R10, R24). -/
def State.reg (s : State) (r : Reg) : Word128 := s.x[r]

/-- `x[r] <- v`: the whole 128-bit value is replaced (R12, R24). -/
def State.setReg (s : State) (r : Reg) (v : Word128) : State := { s with x := s.x.set r v }

/-! ## The command buffer (R41, R51 to R53) -/

/-- A window offset that belongs to CMDBUF, `0x400`..`0x7FF` (R51). -/
abbrev inCmdbuf (off : Nat) : Prop := 0x400 ≤ off ∧ off < 0x400 + 4 * Config.cmdbufWords

/-- The canonical form of the command buffer: offsets strictly rising and inside CMDBUF (log 2). -/
abbrev Memory.wf (m : Memory) : Prop := m.Pairwise (fun c d => c.1 < d.1) ∧ ∀ c ∈ m, inCmdbuf c.1

/-- The byte written at an offset; an unlisted offset has none (log 2). -/
def Memory.get (m : Memory) (off : Nat) : Option Byte :=
  match m with
  | [] => none
  | (k, b) :: rest => if k = off then some b else Memory.get rest off

/-- Write one byte, keeping the offsets strictly rising. -/
def Memory.put (m : Memory) (off : Nat) (b : Byte) : Memory :=
  match m with
  | [] => [(off, b)]
  | (k, c) :: rest =>
    if off < k then (off, b) :: (k, c) :: rest
    else if off = k then (off, b) :: rest
    else (k, c) :: Memory.put rest off b

/-- The byte of CMDBUF at a window offset: what was written there, else what the buffer powered on with (R41; log 1). -/
def State.byteAt (s : State) (off : Nat) : Byte :=
  (s.cmdbuf.get off).getD (Config.powerOnByte s.powerOns off)

/-- Write one byte of CMDBUF. -/
def State.setByte (s : State) (off : Nat) (b : Byte) : State := { s with cmdbuf := s.cmdbuf.put off b }

/-- The window offset of word `k` of CMDBUF (R51). -/
def cmdOffset (k : Nat) : Nat := 0x400 + 4 * k

/-- `CMDBUF[k]`, little-endian (R52, R53 b). -/
def State.cmdWord (s : State) (k : Nat) : Word32 :=
  wordOfBytes (s.byteAt (cmdOffset k)) (s.byteAt (cmdOffset k + 1)) (s.byteAt (cmdOffset k + 2)) (s.byteAt (cmdOffset k + 3))

/-- Replace `CMDBUF[k]` (R55). -/
def State.setCmdWord (s : State) (k : Nat) (w : Word32) : State :=
  (((s.setByte (cmdOffset k) (byteOf w 0)).setByte (cmdOffset k + 1) (byteOf w 1)).setByte (cmdOffset k + 2)
    (byteOf w 2)).setByte (cmdOffset k + 3) (byteOf w 3)

/-! ## Sequencing (R27, R241) -/

/-- `pc <- t`. -/
def State.setPc (s : State) (t : Word16) : State := { s with pc := t }

/-- `STATE <- r` (R29). -/
def State.setRunState (s : State) (r : RunState) : State := { s with runState := r }

/-- `pc <- wrap_16(pc + 1)` (R27). -/
def State.advance (s : State) : State := s.setPc (s.pc + 1)

/-- `wrap_16(pc + sext(off16))`, relative to the branch's own index (R241). -/
def branchTarget (pc : Word16) (off : Int) : Word16 := BitVec.ofInt 16 ((pc.toNat : Int) + off)

/-- A taken branch: `pc <- wrap_16(pc + sext(off16))` (R27). -/
def State.branch (s : State) (off : Int) : State := s.setPc (branchTarget s.pc off)

/-- A command that writes one register and goes on: `x[rd] <- v; pc <- wrap_16(pc + 1)` (R27). -/
def State.writeResult (s : State) (rd : Reg) (v : Word128) : State := (s.setReg rd v).advance

/-! ## Faults (R280 to R288) -/

/-- Fault entry, the one operation of R283: FCAUSE, FPC and FCMD are recorded, STATE becomes FAULT, and nothing else
changes. `w` is the command word, `0` for FETCHRANGE. -/
def takeFault (c : FaultCause) (w : Word32) (s : State) : State :=
  { s with fcause := c, fpc := s.pc, fcmd := w, runState := .fault }

/-- CTRL.CLEAR, the host's return from DONE or FAULT (R32, R287): STATE becomes IDLE and the fault registers `0`; `pc` and the
registers are kept. In IDLE and RUN it is ignored. -/
def clearRun (s : State) : State :=
  match s.runState with
  | .done | .fault => { s with runState := .idle, fcause := .noFault, fpc := 0, fcmd := 0 }
  | .idle | .run => s

/-- CTRL.START (R32): in IDLE the sequencer begins at the current `pc`; in any other state it is ignored. -/
def startRun (s : State) : State :=
  match s.runState with
  | .idle => s.setRunState .run
  | .run | .done | .fault => s

/-! ## Reset (R310 to R312) -/

/-- Hardware reset (R311): the state after reset, with every byte of CMDBUF a fresh free value (log 1). -/
def hardwareReset (s : State) : State := { State.reset with powerOns := s.powerOns + 1 }

/-- Soft reset, CTRL.SRST (R312): everything but CMDBUF goes to its reset value. -/
def softReset (s : State) : State := { State.reset with cmdbuf := s.cmdbuf, powerOns := s.powerOns }

/-! ## The interrupt line (R36, R289) -/

/-- IP: bit 0 DONE_IP, bit 1 FAULT_IP, a view of STATE (R36). -/
def State.ip (s : State) : BitVec 2 :=
  match s.runState with
  | .done => 1
  | .fault => 2
  | .idle | .run => 0

/-- The output `irq`, a level: `(IE & IP) != 0` (R36, R289). -/
def State.irq (s : State) : Bool := s.ie &&& s.ip != 0

end Sys2Proof.Machine
end

