-- ==== Sys2Proof/Machine/Operands.lean ====
section
/-! DEFINITION. How commands read operands and form values: limbs and digits (00_scope.md R9), narrow operands
(10_state.md R25), immediates (30_encoding.md R75). -/

namespace Sys2Proof.Machine

/-- `hi64(v) = v[127:64]` (R9). -/
def hi64 (v : Word128) : Word64 := v.extractLsb' 64 64

/-- `lo64(v) = v[63:0]` (R9). -/
def lo64 (v : Word128) : Word64 := v.extractLsb' 0 64

/-- `U128(h, l) = h * 2^64 + l` (R9). -/
def u128 (h l : Word64) : Word128 := h ++ l

/-- The widening of a 64-bit value: `U128(0, v)` (R25). -/
def widen (v : Word64) : Word128 := u128 0 v

/-- `w[63:32]`, the upper digit of a limb, as a 64-bit value (R9). -/
def hiDigit (w : Word64) : Word64 := w >>> 32

/-- `w[31:0]`, the lower digit of a limb, as a 64-bit value (R9). -/
def loDigit (w : Word64) : Word64 := w &&& 0xFFFFFFFF#64

/-- A narrow operand: the low limb of the register, its high limb ignored (R25). -/
def State.narrow (s : State) (r : Reg) : Word64 := lo64 (s.reg r)

/-- `zext_128(imm16)` (R75 a). -/
def zextImm (imm : Nat) : Word128 := BitVec.ofNat 128 imm

/-- The constants of R22 by LDC's selector (R103). -/
def ldcValue : LdcConst → Word128
  | .zero => 0
  | .one => 1
  | .max => u128 0xFFFFFFFFFFFFFFFF 0xFFFFFFFFFFFFFFFF
  | .min => 0

end Sys2Proof.Machine
end

