-- ==== Sys2Proof/Machine/Flags.lean ====
section
/-! DEFINITION. U128E has no flags (10_state.md R28). What stands in their place: the carry and the borrow that exist only between
two limbs inside the adder (R140, R142), and the value 1 or 0 that a compare or predicate command writes (R28). -/

namespace Sys2Proof.Machine

/-- The carry out of a wrapped limb sum `l`, one of whose operands was `a`: 1 if `l < a` (R140, R150). -/
def carryOut (l a : Word64) : Word64 := if l < a then 1 else 0

/-- The borrow of a limb subtraction: 1 if `a < b` (R142). -/
def borrowOut (a b : Word64) : Word64 := if a < b then 1 else 0

/-- The result of a compare or predicate command: 1 for true, 0 for false, as a 128-bit value (R28). -/
def boolWord (p : Bool) : Word128 := if p then 1 else 0

end Sys2Proof.Machine
end

