-- ==== Sys2Proof/Machine/AddSub.lean ====
section
/-! DEFINITION. ADD, SUB (42_add_sub.md R140 to R144): limb sums with one carry or borrow between the limbs. -/

namespace Sys2Proof.Machine

/-- `Add128(a, b)` (R140). -/
def add128 (a b : Word128) : Word128 :=
  let l := lo64 a + lo64 b
  u128 (hi64 a + hi64 b + carryOut l (lo64 a)) l

/-- `Sub128(a, b)` (R142). -/
def sub128 (a b : Word128) : Word128 :=
  u128 (hi64 a - hi64 b - borrowOut (lo64 a) (lo64 b)) (lo64 a - lo64 b)

/-- ADD rd, rs1, rs2 (R141). -/
def execAdd (rd rs1 rs2 : Reg) (s : State) : StepResult := .next (s.writeResult rd (add128 (s.reg rs1) (s.reg rs2)))

/-- SUB rd, rs1, rs2 (R143). -/
def execSub (rd rs1 rs2 : Reg) (s : State) : StepResult := .next (s.writeResult rd (sub128 (s.reg rs1) (s.reg rs2)))

end Sys2Proof.Machine
end

