-- ==== Sys2Proof/Machine/Compare.lean ====
section
/-! DEFINITION. CEQ, CNE, CLT, CLE, CGT, CGE (41_compare_logic_shift.md R120 to R126): structural equality and the
lexicographic order on (high, low). -/

namespace Sys2Proof.Machine

/-- Structural equality: both limbs equal (R21, R120). -/
def eq128 (a b : Word128) : Bool := hi64 a == hi64 b && lo64 a == lo64 b

/-- Unsigned order, high limb first (R21, R122). -/
def lt128 (a b : Word128) : Bool :=
  decide (hi64 a < hi64 b) || (hi64 a == hi64 b && decide (lo64 a < lo64 b))

/-- A compare command: the test on the two sources, as 1 or 0 (R28). -/
def writeCompare (p : Word128 → Word128 → Bool) (rd rs1 rs2 : Reg) (s : State) : State :=
  s.writeResult rd (boolWord (p (s.reg rs1) (s.reg rs2)))

/-- CEQ rd, rs1, rs2 (R120). -/
def execCeq (rd rs1 rs2 : Reg) (s : State) : StepResult := .next (writeCompare eq128 rd rs1 rs2 s)

/-- CNE rd, rs1, rs2: the negation of CEQ (R121). -/
def execCne (rd rs1 rs2 : Reg) (s : State) : StepResult := .next (writeCompare (fun a b => !eq128 a b) rd rs1 rs2 s)

/-- CLT rd, rs1, rs2 (R122). -/
def execClt (rd rs1 rs2 : Reg) (s : State) : StepResult := .next (writeCompare lt128 rd rs1 rs2 s)

/-- CLE rd, rs1, rs2: `lt` or equal (R123). -/
def execCle (rd rs1 rs2 : Reg) (s : State) : StepResult :=
  .next (writeCompare (fun a b => lt128 a b || eq128 a b) rd rs1 rs2 s)

/-- CGT rd, rs1, rs2: `lt` with the operands exchanged (R124). -/
def execCgt (rd rs1 rs2 : Reg) (s : State) : StepResult := .next (writeCompare (fun a b => lt128 b a) rd rs1 rs2 s)

/-- CGE rd, rs1, rs2: the negation of CLT (R125). -/
def execCge (rd rs1 rs2 : Reg) (s : State) : StepResult := .next (writeCompare (fun a b => !lt128 a b) rd rs1 rs2 s)

end Sys2Proof.Machine
end

