-- ==== Sys2Proof/Machine/Control.lean ====
section
/-! DEFINITION. NOP, HALT, JMP, BZ, BNZ (47_control.md R235 to R242). None writes a register. -/

namespace Sys2Proof.Machine

/-- NOP (R236). -/
def execNop (s : State) : StepResult := .next s.advance

/-- HALT (R237): `pc` moves past it and STATE becomes DONE. -/
def execHalt (s : State) : StepResult := .next (s.advance.setRunState .done)

/-- JMP off16 (R238). -/
def execJmp (off : Int) (s : State) : StepResult := .next (s.branch off)

/-- A conditional branch: to the target if taken, else to the next command (R239, R240). -/
def branchIf (taken : Bool) (off : Int) (s : State) : State := if taken then s.branch off else s.advance

/-- BZ rs1, off16: the test is on all 128 bits (R239). -/
def execBz (rs1 : Reg) (off : Int) (s : State) : StepResult := .next (branchIf (s.reg rs1 == 0) off s)

/-- BNZ rs1, off16 (R240). -/
def execBnz (rs1 : Reg) (off : Int) (s : State) : StepResult := .next (branchIf (s.reg rs1 != 0) off s)

end Sys2Proof.Machine
end

