-- ==== Sys2Proof/Machine/Divide.lean ====
section
/-! DEFINITION. DIV, MOD, DIVREM (44_divide.md R165 to R169). The divider's routes (R171 to R175) cannot be observed and stand
in `Machine/Datapath.lean` (log 13). -/

namespace Sys2Proof.Machine

/-- `DivMod(a, b)` for `b != 0`: the quotient and remainder with `a = b * q + r` and `r < b` (R165). -/
def divMod (a b : Word128) : Word128 × Word128 := (a / b, a % b)

/-- The zero test of the three divide commands, made before any write: DIVZERO with the command's word, else the command's
effect on the pair of R165 (R169, R281). The word of the command is the one the decoder read it from (log 6). -/
def divideOrFault (i : Instr) (a b : Word128) (finish : Word128 × Word128 → State) (s : State) : StepResult :=
  if b = 0 then .next (takeFault .divzero (encode i) s) else .next (finish (divMod a b))

/-- DIV rd, rs1, rs2 (R166). -/
def execDiv (rd rs1 rs2 : Reg) (s : State) : StepResult :=
  divideOrFault (.div rd rs1 rs2) (s.reg rs1) (s.reg rs2) (fun qr => s.writeResult rd qr.1) s

/-- MOD rd, rs1, rs2 (R167). -/
def execMod (rd rs1 rs2 : Reg) (s : State) : StepResult :=
  divideOrFault (.mod rd rs1 rs2) (s.reg rs1) (s.reg rs2) (fun qr => s.writeResult rd qr.2) s

/-- DIVREM rd, rd2, rs1, rs2: the quotient first, the remainder second, so that with `rd = rd2` the remainder stays (R168). -/
def execDivrem (rd rd2 rs1 rs2 : Reg) (s : State) : StepResult :=
  divideOrFault (.divrem rd rd2 rs1 rs2) (s.reg rs1) (s.reg rs2) (fun qr => (s.setReg rd qr.1).writeResult rd2 qr.2) s

end Sys2Proof.Machine
end

