-- ==== Sys2Proof/Machine/LogicShift.lean ====
section
/-! DEFINITION. AND, OR, SHL, SHR, SHLI, SHRI (41_compare_logic_shift.md R127 to R134). -/

namespace Sys2Proof.Machine

/-- AND, limb by limb (R127). -/
def and128 (a b : Word128) : Word128 := u128 (hi64 a &&& hi64 b) (lo64 a &&& lo64 b)

/-- OR, limb by limb (R128). -/
def or128 (a b : Word128) : Word128 := u128 (hi64 a ||| hi64 b) (lo64 a ||| lo64 b)

/-- `ShiftLeft(v, s)` by its four cases; every limb shift is by less than 64 (R129). -/
def shiftLeft (v : Word128) (s : Nat) : Word128 :=
  if s = 0 then v
  else if s < 64 then u128 (hi64 v <<< s ||| lo64 v >>> (64 - s)) (lo64 v <<< s)
  else if s < 128 then u128 (lo64 v <<< (s - 64)) 0
  else 0

/-- `ShiftRight(v, s)` by its four cases, a logical shift (R130). -/
def shiftRight (v : Word128) (s : Nat) : Word128 :=
  if s = 0 then v
  else if s < 64 then u128 (hi64 v >>> s) (lo64 v >>> s ||| hi64 v <<< (64 - s))
  else if s < 128 then u128 0 (hi64 v >>> (s - 64))
  else 0

/-- AND rd, rs1, rs2 (R127). -/
def execAnd (rd rs1 rs2 : Reg) (s : State) : StepResult := .next (s.writeResult rd (and128 (s.reg rs1) (s.reg rs2)))

/-- OR rd, rs1, rs2 (R128). -/
def execOr (rd rs1 rs2 : Reg) (s : State) : StepResult := .next (s.writeResult rd (or128 (s.reg rs1) (s.reg rs2)))

/-- SHL rd, rs1, rs2: the amount is the whole value of `x[rs2]` (R131). -/
def execShl (rd rs1 rs2 : Reg) (s : State) : StepResult :=
  .next (s.writeResult rd (shiftLeft (s.reg rs1) (s.reg rs2).toNat))

/-- SHR rd, rs1, rs2 (R132). -/
def execShr (rd rs1 rs2 : Reg) (s : State) : StepResult :=
  .next (s.writeResult rd (shiftRight (s.reg rs1) (s.reg rs2).toNat))

/-- SHLI rd, rs1, imm7 (R133). -/
def execShli (rd rs1 : Reg) (amount : Nat) (s : State) : StepResult :=
  .next (s.writeResult rd (shiftLeft (s.reg rs1) amount))

/-- SHRI rd, rs1, imm7 (R134). -/
def execShri (rd rs1 : Reg) (amount : Nat) (s : State) : StepResult :=
  .next (s.writeResult rd (shiftRight (s.reg rs1) amount))

end Sys2Proof.Machine
end

