-- ==== Sys2Proof/Machine/Multiply.lean ====
section
/-! DEFINITION. MUL64, SQR64, MUL (43_multiply.md R150 to R156). -/

namespace Sys2Proof.Machine

/-- The last sums of R150 and R152: the product from its low, middle and high partial products. `mid` is the wrapped sum of the
two cross products, one of which was `cross`. -/
def combineProducts (ll cross mid hh : Word64) : Word128 :=
  let low := ll + mid <<< 32
  u128 (hh + mid >>> 32 + carryOut mid cross <<< 32 + carryOut low ll) low

/-- `Multiply64(x, y)`, the full product from four products of 32-bit digits (R150). -/
def multiply64 (x y : Word64) : Word128 :=
  let ll := loDigit x * loDigit y
  let lh := loDigit x * hiDigit y
  let hl := hiDigit x * loDigit y
  let hh := hiDigit x * hiDigit y
  combineProducts ll lh (lh + hl) hh

/-- `Square64(v)`, one cross product used twice (R152). -/
def square64 (v : Word64) : Word128 :=
  let ll := loDigit v * loDigit v
  let c := loDigit v * hiDigit v
  let hh := hiDigit v * hiDigit v
  combineProducts ll c (c + c) hh

/-- `Mul128(a, b)`, truncating (R154). -/
def mul128 (a b : Word128) : Word128 :=
  let r := multiply64 (lo64 a) (lo64 b)
  let cross := lo64 a * hi64 b + hi64 a * lo64 b
  u128 (hi64 r + cross) (lo64 r)

/-- MUL64 rd, rs1, rs2: narrow operands (R151). -/
def execMul64 (rd rs1 rs2 : Reg) (s : State) : StepResult :=
  .next (s.writeResult rd (multiply64 (s.narrow rs1) (s.narrow rs2)))

/-- SQR64 rd, rs1: a narrow operand (R153). -/
def execSqr64 (rd rs1 : Reg) (s : State) : StepResult := .next (s.writeResult rd (square64 (s.narrow rs1)))

/-- MUL rd, rs1, rs2 (R155). -/
def execMul (rd rs1 rs2 : Reg) (s : State) : StepResult := .next (s.writeResult rd (mul128 (s.reg rs1) (s.reg rs2)))

end Sys2Proof.Machine
end

