-- ==== Sys2Proof/Machine/Modular.lean ====
section
/-! DEFINITION. MULMOD, ABSU, MODPOW (45_modular.md R190 to R197). A zero modulus is no fault here. -/

namespace Sys2Proof.Machine

/-- `MulMod64(a, b, m)`: the exact 128-bit product, reduced; 0 if `m = 0` (R190). -/
def mulMod64 (a b m : Word64) : Word64 :=
  if m = 0 then 0 else lo64 (divMod (multiply64 a b) (widen m)).2

/-- `AbsU_w(v)` on a `w`-bit pattern: `(p + mask) ^ mask` with the sign mask (R193). -/
def absU {w : Nat} (p : BitVec w) : BitVec w :=
  let mask := if p.msb then BitVec.allOnes w else 0#w
  (p + mask) ^^^ mask

/-- ABSU at a selected width: the low `w` bits of the source, the result zero-extended (R194). -/
def absUWord (w : AbsWidth) (v : Word128) : Word128 :=
  match w with
  | .w8 => (absU (v.extractLsb' 0 8)).setWidth 128
  | .w16 => (absU (v.extractLsb' 0 16)).setWidth 128
  | .w32 => (absU (v.extractLsb' 0 32)).setWidth 128
  | .w64 => (absU (v.extractLsb' 0 64)).setWidth 128

/-- The loop of R195, square and multiply from the low bit of `e`; `turns` bounds it (64 is enough: log 14). -/
def modPowLoop (turns : Nat) (acc base e m : Word64) : Word64 :=
  match turns with
  | 0 => acc
  | n + 1 =>
    if e = 0 then acc
    else modPowLoop n (if e.getLsbD 0 then mulMod64 acc base m else acc) (mulMod64 base base m) (e >>> 1) m

/-- `ModPow64(b, e, m)`: `m = 0` is tested first (R195). -/
def modPow64 (b e m : Word64) : Word64 := if m = 0 then 0 else modPowLoop 64 1 (b % m) e m

/-- ABSU rd, rs1, w (R194). -/
def execAbsu (rd rs1 : Reg) (w : AbsWidth) (s : State) : StepResult := .next (s.writeResult rd (absUWord w (s.reg rs1)))

/-- MULMOD rd, rs1, rs2, rs3: narrow operands (R191). -/
def execMulmod (rd rs1 rs2 rs3 : Reg) (s : State) : StepResult :=
  .next (s.writeResult rd (widen (mulMod64 (s.narrow rs1) (s.narrow rs2) (s.narrow rs3))))

/-- MODPOW rd, rs1, rs2, rs3: narrow operands (R196). -/
def execModpow (rd rs1 rs2 rs3 : Reg) (s : State) : StepResult :=
  .next (s.writeResult rd (widen (modPow64 (s.narrow rs1) (s.narrow rs2) (s.narrow rs3))))

end Sys2Proof.Machine
end

