-- ==== Sys2Proof/Machine/Move.lean ====
section
/-! DEFINITION. MOV, LDI, LDIS, LDC, MAKE, LO, HI, ISNARROW (40_move_convert.md R100 to R108). -/

namespace Sys2Proof.Machine

/-- MOV rd, rs1 (R100). -/
def execMov (rd rs1 : Reg) (s : State) : StepResult := .next (s.writeResult rd (s.reg rs1))

/-- LDI rd, imm16 (R101). -/
def execLdi (rd : Reg) (imm : Nat) (s : State) : StepResult := .next (s.writeResult rd (zextImm imm))

/-- LDIS rd, imm16: `wrap_128(x[rd] * 2^16) | zext_128(imm16)` (R102). -/
def execLdis (rd : Reg) (imm : Nat) (s : State) : StepResult :=
  .next (s.writeResult rd (s.reg rd <<< 16 ||| zextImm imm))

/-- LDC rd, k (R103). -/
def execLdc (rd : Reg) (k : LdcConst) (s : State) : StepResult := .next (s.writeResult rd (ldcValue k))

/-- MAKE rd, rs1, rs2: the high limb from `rs1`, the low limb from `rs2`, each a narrow operand (R104). -/
def execMake (rd rs1 rs2 : Reg) (s : State) : StepResult :=
  .next (s.writeResult rd (u128 (s.narrow rs1) (s.narrow rs2)))

/-- LO rd, rs1: narrow, then widen (R105). -/
def execLo (rd rs1 : Reg) (s : State) : StepResult := .next (s.writeResult rd (widen (lo64 (s.reg rs1))))

/-- HI rd, rs1: the high limb, widened (R106). -/
def execHi (rd rs1 : Reg) (s : State) : StepResult := .next (s.writeResult rd (widen (hi64 (s.reg rs1))))

/-- ISNARROW rd, rs1 (R107). -/
def execIsnarrow (rd rs1 : Reg) (s : State) : StepResult :=
  .next (s.writeResult rd (boolWord (hi64 (s.reg rs1) == 0)))

end Sys2Proof.Machine
end

