-- ==== Sys2Proof/Machine/Tables.lean ====
section
/-! DEFINITION. The contents of the constant ROMs (10_state.md R38 to R40). They are read only by the units that use them and
never change (log 17). -/

namespace Sys2Proof.Machine

/-- ROM `msbPos256`: for each byte the position of its most significant set bit, 8 for byte 0 (R14, R38). -/
def msbPos256Rom : List (BitVec 4) :=
  [8] ++ [0] ++ List.replicate 2 1 ++ List.replicate 4 2 ++ List.replicate 8 3 ++ List.replicate 16 4 ++
    List.replicate 32 5 ++ List.replicate 64 6 ++ List.replicate 128 7

/-- ROM `SMALL_PRIMES`: the odd primes from 3 to 149, ascending (R39, R224). -/
def smallPrimes : List Nat :=
  [3, 5, 7, 11, 13, 17, 19, 23, 29, 31, 37, 41, 43, 47, 53, 59, 61] ++
  [67, 71, 73, 79, 83, 89, 97, 101, 103, 107, 109, 113, 127, 131, 137, 139, 149]

/-- A witness table: exclusive bounds with the witnesses that certify every value below them (R40, R222). -/
abbrev WitnessTable := List (Nat × List Word64)

/-- The default `WITNESS_TABLE` of R223, marked there as general knowledge. PRESUMED, unsafe (log 7). -/
def witnessTable : WitnessTable :=
  [(2047, [2]),
   (1373653, [2, 3]),
   (25326001, [2, 3, 5]),
   (3215031751, [2, 3, 5, 7]),
   (2152302898747, [2, 3, 5, 7, 11]),
   (3474749660383, [2, 3, 5, 7, 11, 13]),
   (341550071728321, [2, 3, 5, 7, 11, 13, 17]),
   (3825123056546413051, [2, 3, 5, 7, 11, 13, 17, 19, 23]),
   (18446744073709551616, [2, 3, 5, 7, 11, 13, 17, 19, 23, 29, 31, 37])]

end Sys2Proof.Machine
end

