-- ==== Sys2Proof/Machine/Prime.lean ====
section
/-! DEFINITION. GCD, ISCOPRIME, ISPRIME (46_prime.md R210 to R213, R220 to R227). -/

namespace Sys2Proof.Machine

/-! ## Gcd and IsCoprime -/

/-- The loop of R210: `(a, b)` becomes `(b mod a, a)` until `a < 2`; `turns` bounds it (258 is enough for 128 bits: log 14). -/
def gcdLoop (turns : Nat) (a b : Word128) : Word128 :=
  match turns with
  | 0 => b
  | n + 1 => if a = 0 then b else if a = 1 then 1 else gcdLoop n (divMod b a).2 a

/-- `Gcd128(a, b)` (R210). -/
def gcd128 (a b : Word128) : Word128 := gcdLoop 258 a b

/-- `IsCoprime128(a, b)`, with the even/even shortcut (R212). -/
def isCoprime128 (a b : Word128) : Bool := if (a ||| b) &&& 1 = 0 then false else gcd128 a b == 1

/-! ## IsPrime -/

/-- The smallest position from `k` on, within `turns` positions, at which `v` has a 1; the position after them if there is none
(R15; log 14). -/
def trailingZerosFrom (turns k : Nat) (v : Word64) : Nat :=
  match turns with
  | 0 => k
  | n + 1 => if v.getLsbD k then k else trailingZerosFrom n (k + 1) v

/-- `TrailingZeros_64(v)` for `v != 0` (R15). At 0, which the engine never asks for, it is 64, the width as sentinel: DESIGN CHOICE,
log 21 (R15: "not needed"). -/
def trailingZeros64 (v : Word64) : Nat := trailingZerosFrom 64 0 v

/-- The repeated squaring of R225: whether `v - 1` is found among at most `turns` squares of `x` modulo `v`. -/
def squaresReach (turns : Nat) (x v : Word64) : Bool :=
  match turns with
  | 0 => false
  | n + 1 => if mulMod64 x x v = v - 1 then true else squaresReach n (mulMod64 x x v) v

/-- One witness of R225: reduced if it is not below `v`, skipped if it is then 0 or 1, else the strong test to that base. -/
def witnessPasses (v d : Word64) (s : Nat) (a : Word64) : Bool :=
  let a' := if v ≤ a then a % v else a
  if a' < 2 then true
  else
    let x := modPow64 a' d v
    x == 1 || x == v - 1 || squaresReach (s - 1) x v

/-- `MillerRabin(v, W)` for odd `v >= 3`: every witness passes (R225). -/
def millerRabin (v : Word64) (ws : List Word64) : Bool :=
  let s := trailingZeros64 (v - 1)
  let d := (v - 1) >>> s
  ws.all (witnessPasses v d s)

/-- `SelectWitnesses(v)`: the witnesses of the first entry whose bound exceeds `v` (R227). -/
def selectWitnesses (table : WitnessTable) (v : Word64) : List Word64 :=
  match table with
  | [] => []
  | (bound, ws) :: rest => if v.toNat < bound then ws else selectWitnesses rest v

/-- Stage (b) of R221: the first small prime that divides `n` decides, prime only if it is `n`. -/
def smallPrimeStage (primes : List Nat) (n : Nat) : Option Bool :=
  match primes with
  | [] => none
  | p :: rest => if n % p = 0 then some (n == p) else smallPrimeStage rest n

/-- Stage (c) of R221: trial division by `c`, `c + 2`, ... while `c * c <= n`; `turns` bounds it (500 is enough below
TRIAL_LIMIT: log 14). -/
def trialStage (turns c n : Nat) : Bool :=
  match turns with
  | 0 => true
  | k + 1 => if c * c ≤ n then (if n % c = 0 then false else trialStage k (c + 2) n) else true

/-- The pipeline of R221 for a given witness table (R40, U6). -/
def isPrime64With (table : WitnessTable) (v : Word64) : Bool :=
  if v < 2 then false
  else if v.getLsbD 0 = false then v == 2
  else
    match smallPrimeStage smallPrimes v.toNat with
    | some answer => answer
    | none =>
      if v.toNat < Config.trialLimit then trialStage 500 (Config.smallPrimeLimit + 2) v.toNat
      else millerRabin v (selectWitnesses table v)

/-- `IsPrime64(v)` with the engine's own ROM (R220, R221; the table is R223's: log 7). -/
def isPrime64 (v : Word64) : Bool := isPrime64With witnessTable v

/-- GCD rd, rs1, rs2 (R211). -/
def execGcd (rd rs1 rs2 : Reg) (s : State) : StepResult := .next (s.writeResult rd (gcd128 (s.reg rs1) (s.reg rs2)))

/-- ISCOPRIME rd, rs1, rs2 (R213). -/
def execIscoprime (rd rs1 rs2 : Reg) (s : State) : StepResult :=
  .next (s.writeResult rd (boolWord (isCoprime128 (s.reg rs1) (s.reg rs2))))

/-- ISPRIME rd, rs1: a narrow operand (R226). -/
def execIsprime (rd rs1 : Reg) (s : State) : StepResult :=
  .next (s.writeResult rd (boolWord (isPrime64 (s.narrow rs1))))

end Sys2Proof.Machine
end

