-- ==== Sys2Proof/Machine/Dispatch.lean ====
section
/-! DEFINITION. The dispatch of a command to its meaning (30_encoding.md R80): one arm per constructor of `Instr`. -/

namespace Sys2Proof.Machine

def exec (i : Instr) (s : State) : Host.Outcome State Fault Refusal :=
  match i with
  | .nop => Sys2Proof.Machine.execNop s
  | .halt => Sys2Proof.Machine.execHalt s
  | .jmp off => Sys2Proof.Machine.execJmp off s
  | .bz rs1 off => Sys2Proof.Machine.execBz rs1 off s
  | .bnz rs1 off => Sys2Proof.Machine.execBnz rs1 off s
  | .mov rd rs1 => Sys2Proof.Machine.execMov rd rs1 s
  | .ldi rd imm => Sys2Proof.Machine.execLdi rd imm s
  | .ldis rd imm => Sys2Proof.Machine.execLdis rd imm s
  | .ldc rd k => Sys2Proof.Machine.execLdc rd k s
  | .make rd rs1 rs2 => Sys2Proof.Machine.execMake rd rs1 rs2 s
  | .lo rd rs1 => Sys2Proof.Machine.execLo rd rs1 s
  | .hi rd rs1 => Sys2Proof.Machine.execHi rd rs1 s
  | .isnarrow rd rs1 => Sys2Proof.Machine.execIsnarrow rd rs1 s
  | .ceq rd rs1 rs2 => Sys2Proof.Machine.execCeq rd rs1 rs2 s
  | .cne rd rs1 rs2 => Sys2Proof.Machine.execCne rd rs1 rs2 s
  | .clt rd rs1 rs2 => Sys2Proof.Machine.execClt rd rs1 rs2 s
  | .cle rd rs1 rs2 => Sys2Proof.Machine.execCle rd rs1 rs2 s
  | .cgt rd rs1 rs2 => Sys2Proof.Machine.execCgt rd rs1 rs2 s
  | .cge rd rs1 rs2 => Sys2Proof.Machine.execCge rd rs1 rs2 s
  | .and rd rs1 rs2 => Sys2Proof.Machine.execAnd rd rs1 rs2 s
  | .or rd rs1 rs2 => Sys2Proof.Machine.execOr rd rs1 rs2 s
  | .shl rd rs1 rs2 => Sys2Proof.Machine.execShl rd rs1 rs2 s
  | .shr rd rs1 rs2 => Sys2Proof.Machine.execShr rd rs1 rs2 s
  | .shli rd rs1 amount => Sys2Proof.Machine.execShli rd rs1 amount s
  | .shri rd rs1 amount => Sys2Proof.Machine.execShri rd rs1 amount s
  | .add rd rs1 rs2 => Sys2Proof.Machine.execAdd rd rs1 rs2 s
  | .sub rd rs1 rs2 => Sys2Proof.Machine.execSub rd rs1 rs2 s
  | .mul64 rd rs1 rs2 => Sys2Proof.Machine.execMul64 rd rs1 rs2 s
  | .sqr64 rd rs1 => Sys2Proof.Machine.execSqr64 rd rs1 s
  | .mul rd rs1 rs2 => Sys2Proof.Machine.execMul rd rs1 rs2 s
  | .div rd rs1 rs2 => Sys2Proof.Machine.execDiv rd rs1 rs2 s
  | .mod rd rs1 rs2 => Sys2Proof.Machine.execMod rd rs1 rs2 s
  | .divrem rd rd2 rs1 rs2 => Sys2Proof.Machine.execDivrem rd rd2 rs1 rs2 s
  | .absu rd rs1 w => Sys2Proof.Machine.execAbsu rd rs1 w s
  | .mulmod rd rs1 rs2 rs3 => Sys2Proof.Machine.execMulmod rd rs1 rs2 rs3 s
  | .modpow rd rs1 rs2 rs3 => Sys2Proof.Machine.execModpow rd rs1 rs2 rs3 s
  | .gcd rd rs1 rs2 => Sys2Proof.Machine.execGcd rd rs1 rs2 s
  | .iscoprime rd rs1 rs2 => Sys2Proof.Machine.execIscoprime rd rs1 rs2 s
  | .isprime rd rs1 => Sys2Proof.Machine.execIsprime rd rs1 s

end Sys2Proof.Machine
end

