-- ==== Sys2Proof/Machine/Fetch.lean ====
section
/-! DEFINITION. Fetch and decode of the next command (30_encoding.md R80, 20_memory.md R52), with the checks in the order of
60_exceptions.md R285. -/

namespace Sys2Proof.Machine

/-- What a fetch at `pc` finds (R80). -/
inductive Fetched where
  /-- `pc >= CMDBUF_WORDS`: no word is fetched, FETCHRANGE (R284). -/
  | outOfRange
  /-- The word is no command: ILLEGAL (R282). -/
  | illegal (w : Word32)
  /-- The word is a command. -/
  | command (i : Instr)
deriving DecidableEq, Repr

/-- `CmdFetch(pc)` and the decoder (R52, R76, R80); it changes nothing. -/
def fetchNext (s : State) : Fetched :=
  if Config.cmdbufWords ≤ s.pc.toNat then .outOfRange
  else
    match decodeWord (s.cmdWord s.pc.toNat) with
    | .ok i => .command i
    | .error _ => .illegal (s.cmdWord s.pc.toNat)

end Sys2Proof.Machine
end

