-- ==== Sys2Proof/Machine/Step.lean ====
section
/-! DEFINITION. One step of the sequencer (30_encoding.md R80), and the placing of one word where the next step fetches. -/

namespace Sys2Proof.Machine

/-- One step. While STATE = RUN: fetch, decode, execute (R80, R235), a fetch or decode fault being a next state (R283). In IDLE,
DONE and FAULT the sequencer does nothing and all state is kept (R288, R297; log 4). -/
def step (s : State) : Host.Outcome State Fault Refusal :=
  match s.runState with
  | .run =>
    match fetchNext s with
    | .outOfRange => .next (takeFault .fetchrange 0 s)
    | .illegal w => .next (takeFault .illegal w s)
    | .command i => exec i s
  | .idle | .done | .fault => .next s

/-- The command word `w` placed where the next step fetches, the engine running (log 3): `pc` is kept if it is inside CMDBUF and
set to 0 otherwise, the word is written there, and, if the engine does not run, the host's CLEAR and START are applied (R32). -/
def State.withFetchWord (s : State) (nbits w : Nat) : State :=
  let p := if s.pc.toNat < Config.cmdbufWords then s else s.setPc 0
  startRun (clearRun (p.setCmdWord p.pc.toNat (BitVec.ofNat 32 (w % 2 ^ nbits))))

end Sys2Proof.Machine
end

