-- ==== Sys2Proof/Machine/Datapath.lean ====
section
/-! DEFINITION. The inner routes of the divider and of the modular unit, and the bit-position helpers they use
(00_scope.md R14, R15; 44_divide.md R170 to R175; 45_modular.md R192). No command's meaning calls them, because nothing a program or
the host can observe depends on them (R170, R192; log 13); they are defined so that it can be stated that every route computes
`divMod` and `mulMod64`. R174's route is not among them: the spec says it cannot be reproduced. -/

namespace Sys2Proof.Machine

/-! ## Bit positions (R14, R15) -/

/-- `msbPos256[b]`, a look-up in the ROM (R14). -/
def msbPos256 (b : Byte) : Nat := (msbPos256Rom.getD b.toNat 0).toNat

/-- The position of the most significant set bit in the low `k` bytes of `v`, scanning from the top byte; `dflt` if they are all
zero. The scan is R15's example; how the table is used cannot be observed: DESIGN CHOICE, log 13. -/
def highBitFrom (k v dflt : Nat) : Nat :=
  match k with
  | 0 => dflt
  | j + 1 =>
    if v / 2 ^ (8 * j) % 256 = 0 then highBitFrom j v dflt
    else 8 * j + msbPos256 (BitVec.ofNat 8 (v / 2 ^ (8 * j)))

/-- `HighBitPosition_64(v)`, 64 for 0 (R15). -/
def highBitPosition64 (v : Word64) : Nat := highBitFrom 8 v.toNat 64

/-- `HighBitPosition_128(v)`, 128 for 0 (R15). -/
def highBitPosition128 (v : Word128) : Nat := highBitFrom 16 v.toNat 128

/-- `LeadingZeros_64(v)` for `v != 0` (R15). At 0, which the engine never asks for, it is 64, the width as sentinel: DESIGN CHOICE,
log 21 (R15: "not needed"). -/
def leadingZeros64 (v : Word64) : Nat := if v = 0 then 64 else 63 - highBitPosition64 v

/-- `IsPow2(v)` for `v != 0` (R15, R255). At 0, which the engine never asks for, it is false: DESIGN CHOICE, log 21 (R15 gives the
test for `v != 0` only). -/
def isPow2 (v : Word128) : Bool := v != 0 && v &&& (v - 1) == 0

/-! ## Quotient digits (R172, R175) -/

/-- The digit base of the divider, `2^32` (R9, R172). -/
def digitBase : Nat := 2 ^ 32

/-- Digit `k` of a number in base `2^32` (R9). -/
def digitAt (u k : Nat) : Nat := u / digitBase ^ k % digitBase

/-- The correction loop of a quotient digit: while the estimate is too large, one less and one more divisor digit; at most twice
(R172, R175; log 14). -/
def correctDigit (turns qhat rhat v1 v0 next : Nat) : Nat :=
  match turns with
  | 0 => qhat
  | n + 1 =>
    if digitBase ≤ qhat ∨ digitBase * rhat + next < qhat * v0 then
      if digitBase ≤ rhat + v1 then qhat - 1 else correctDigit n (qhat - 1) (rhat + v1) v1 v0 next
    else qhat

/-- One quotient digit: estimate by the top divisor digit, then correct (R172). -/
def quotientDigit (num next v1 v0 : Nat) : Nat := correctDigit 2 (num / v1) (num % v1) v1 v0 next

/-- `DivUnchecked(u1, u0, v)` for `v != 0`, `u1 < v`: quotient and remainder of `u1 * 2^64 + u0` by `v`, two digits (R172). -/
def divUnchecked (u1 u0 v : Word64) : Word64 × Word64 :=
  let s := leadingZeros64 v
  let vn := v <<< s
  let un32 := if s = 0 then u1 else u1 <<< s ||| u0 >>> (64 - s)
  let un10 := if s = 0 then u0 else u0 <<< s
  let vn1 := digitAt vn.toNat 1
  let vn0 := digitAt vn.toNat 0
  let un1 := digitAt un10.toNat 1
  let un0 := digitAt un10.toNat 0
  let q1 := quotientDigit un32.toNat un1 vn1 vn0
  let un21 := un32 <<< 32 + BitVec.ofNat 64 un1 - BitVec.ofNat 64 q1 * vn
  let q0 := quotientDigit un21.toNat un0 vn1 vn0
  let r := (un21 <<< 32 + BitVec.ofNat 64 un0 - BitVec.ofNat 64 q0 * vn) >>> s
  (BitVec.ofNat 64 (q1 * digitBase + q0), r)

/-- 128-by-64 division for `d != 0`: a native divide of the high limb, then one call of the primitive (R173). -/
def divide128by64 (a : Word128) (d : Word64) : Word128 × Word128 :=
  let ql := divUnchecked (hi64 a % d) (lo64 a) d
  (u128 (hi64 a / d) ql.1, widen ql.2)

/-! ## Algorithm D on 32-bit digits (R175) -/

/-- Short division by one digit, from digit `j - 1` down; answers the quotient and the remainder (R175, `n = 1`). -/
def shortDivide (j a d q r : Nat) : Nat × Nat :=
  match j with
  | 0 => (q, r)
  | k + 1 =>
    let cur := r * digitBase + digitAt a k
    shortDivide k a d (q * digitBase + cur / d) (cur % d)

/-- One turn of the main loop: the digit `q_j`, and `u` with its digits `u_(j+n)..u_j` reduced; the rare add-back included
(R175). -/
def knuthDigit (n v j u : Nat) : Nat × Nat :=
  let num := digitAt u (j + n) * digitBase + digitAt u (j + n - 1)
  let v1 := digitAt v (n - 1)
  let qhat := correctDigit 2 (num / v1) (num % v1) v1 (digitAt v (n - 2)) (digitAt u (j + n - 2))
  let wrap := digitBase ^ (n + 1)
  let seg := u / digitBase ^ j % wrap
  if seg < qhat * v then
    (qhat - 1, u - seg * digitBase ^ j + (seg + wrap - qhat * v + v) % wrap * digitBase ^ j)
  else
    (qhat, u - seg * digitBase ^ j + (seg - qhat * v) * digitBase ^ j)

/-- The main loop, `j` from its first argument less one down to 0; answers the quotient and the last `u` (R175). -/
def knuthLoop (j n v u q : Nat) : Nat × Nat :=
  match j with
  | 0 => (q, u)
  | k + 1 => let qu := knuthDigit n v k u; knuthLoop k n v qu.2 (q * digitBase + qu.1)

/-- The number of 32-bit digits of a non-zero divisor (R175). -/
def digitCount (d : Nat) : Nat :=
  if d < digitBase then 1 else if d < digitBase ^ 2 then 2 else if d < digitBase ^ 3 then 3 else 4

/-- Knuth's Algorithm D for any `d != 0` (R175). -/
def knuthDivide (a d : Nat) : Nat × Nat :=
  if a < d then (0, a)
  else
    let n := digitCount d
    if n = 1 then shortDivide 4 a d 0 0
    else
      let s := 31 - highBitFrom 4 (digitAt d (n - 1)) 32
      let qu := knuthLoop (5 - n) n (d * 2 ^ s) (a * 2 ^ s) 0
      (qu.1, qu.2 % digitBase ^ n / 2 ^ s)

/-- The divider by its routes, after the zero test: the two fast paths (R171), a narrow divisor (R173), else Algorithm D
(R175). Two points are DESIGN CHOICE, log 13, and no result depends on them: the 32-bit path is tried before the power-of-two path
(R171 states no order), and a divisor below `2^32` that neither takes, its dividend's high limb not zero, goes to the 128-by-64
division (N25: the source names no route; R173: its sequence is correct for every `d != 0`). -/
def dividerRoute (a b : Word128) : Word128 × Word128 :=
  if hi64 a = 0 ∧ b.toNat < digitBase then (widen (lo64 a / lo64 b), widen (lo64 a % lo64 b))
  else if isPow2 b then (shiftRight a (highBitPosition128 b), and128 a (b - 1))
  else if hi64 b = 0 then divide128by64 a (lo64 b)
  else
    let qr := knuthDivide a.toNat b.toNat
    (BitVec.ofNat 128 qr.1, BitVec.ofNat 128 qr.2)

/-! ## Russian-peasant MulMod (R192) -/

/-- `(r + a) mod m` for `r < m`, `a < m`, without overflow (R192). -/
def addModNoOverflow (r a m : Word64) : Word64 := if m - a ≤ r then r - (m - a) else r + a

/-- The loop of R192: halve `b`, double `a` modulo `m`; 64 turns are enough (log 14). -/
def peasantLoop (turns : Nat) (a b r m : Word64) : Word64 :=
  match turns with
  | 0 => r
  | n + 1 =>
    if b = 0 then r
    else peasantLoop n (addModNoOverflow a a m) (b >>> 1) (if b.getLsbD 0 then addModNoOverflow r a m else r) m

/-- MulMod by double-and-reduce in 64 bits (R192). -/
def mulModPeasant (a b m : Word64) : Word64 := if m = 0 then 0 else peasantLoop 64 (a % m) (b % m) 0 m

end Sys2Proof.Machine
end

