-- ==== Sys2Proof/Machine/Assembler.lean ====
section
/-! DEFINITION. The assembler (30_encoding.md R81, R82): the spelling of commands, labels, the pseudo-instructions, and the reading of
assembler text. No command uses it. What it takes as text is in R81's terms; a line it cannot read makes it answer none (log 20). -/

namespace Sys2Proof.Machine

/-! ## Statements -/

/-- An operand as it is written (R81). -/
inductive AsmOperand where
  /-- `q0` to `q15`. -/
  | reg (r : Reg)
  /-- A decimal or hexadecimal number, or a signed offset. -/
  | num (v : Int)
  /-- A label, or the name of a selector of LDC. -/
  | name (s : List Char)
deriving DecidableEq, Repr

/-- A mnemonic with its operands, destination first (R81). -/
structure AsmStatement where
  mnemonic : List Char
  operands : List AsmOperand
deriving DecidableEq, Repr

/-- A statement of a mnemonic and its operands. -/
def stmt (m : String) (ops : List AsmOperand) : AsmStatement := ⟨m.toList, ops⟩

/-- LDC's selector as a name (R81). -/
def ldcName : LdcConst → String
  | .zero => "ZERO"
  | .one => "ONE"
  | .max => "MAX"
  | .min => "MIN"

/-- ABSU's width in bits (R81, R194). -/
def absWidthBits : AbsWidth → Nat
  | .w8 => 8
  | .w16 => 16
  | .w32 => 32
  | .w64 => 64

/-- A command as a statement, operands in the order of R77's column, offsets as numbers (R81). -/
def toStatement : Instr → AsmStatement
  | .nop => stmt "NOP" []
  | .halt => stmt "HALT" []
  | .jmp off => stmt "JMP" [.num off]
  | .bz rs1 off => stmt "BZ" [.reg rs1, .num off]
  | .bnz rs1 off => stmt "BNZ" [.reg rs1, .num off]
  | .mov rd rs1 => stmt "MOV" [.reg rd, .reg rs1]
  | .ldi rd imm => stmt "LDI" [.reg rd, .num imm]
  | .ldis rd imm => stmt "LDIS" [.reg rd, .num imm]
  | .ldc rd k => stmt "LDC" [.reg rd, .name (ldcName k).toList]
  | .make rd rs1 rs2 => stmt "MAKE" [.reg rd, .reg rs1, .reg rs2]
  | .lo rd rs1 => stmt "LO" [.reg rd, .reg rs1]
  | .hi rd rs1 => stmt "HI" [.reg rd, .reg rs1]
  | .isnarrow rd rs1 => stmt "ISNARROW" [.reg rd, .reg rs1]
  | .ceq rd rs1 rs2 => stmt "CEQ" [.reg rd, .reg rs1, .reg rs2]
  | .cne rd rs1 rs2 => stmt "CNE" [.reg rd, .reg rs1, .reg rs2]
  | .clt rd rs1 rs2 => stmt "CLT" [.reg rd, .reg rs1, .reg rs2]
  | .cle rd rs1 rs2 => stmt "CLE" [.reg rd, .reg rs1, .reg rs2]
  | .cgt rd rs1 rs2 => stmt "CGT" [.reg rd, .reg rs1, .reg rs2]
  | .cge rd rs1 rs2 => stmt "CGE" [.reg rd, .reg rs1, .reg rs2]
  | .and rd rs1 rs2 => stmt "AND" [.reg rd, .reg rs1, .reg rs2]
  | .or rd rs1 rs2 => stmt "OR" [.reg rd, .reg rs1, .reg rs2]
  | .shl rd rs1 rs2 => stmt "SHL" [.reg rd, .reg rs1, .reg rs2]
  | .shr rd rs1 rs2 => stmt "SHR" [.reg rd, .reg rs1, .reg rs2]
  | .shli rd rs1 amount => stmt "SHLI" [.reg rd, .reg rs1, .num amount]
  | .shri rd rs1 amount => stmt "SHRI" [.reg rd, .reg rs1, .num amount]
  | .add rd rs1 rs2 => stmt "ADD" [.reg rd, .reg rs1, .reg rs2]
  | .sub rd rs1 rs2 => stmt "SUB" [.reg rd, .reg rs1, .reg rs2]
  | .mul64 rd rs1 rs2 => stmt "MUL64" [.reg rd, .reg rs1, .reg rs2]
  | .sqr64 rd rs1 => stmt "SQR64" [.reg rd, .reg rs1]
  | .mul rd rs1 rs2 => stmt "MUL" [.reg rd, .reg rs1, .reg rs2]
  | .div rd rs1 rs2 => stmt "DIV" [.reg rd, .reg rs1, .reg rs2]
  | .mod rd rs1 rs2 => stmt "MOD" [.reg rd, .reg rs1, .reg rs2]
  | .divrem rd rd2 rs1 rs2 => stmt "DIVREM" [.reg rd, .reg rd2, .reg rs1, .reg rs2]
  | .absu rd rs1 w => stmt "ABSU" [.reg rd, .reg rs1, .num (absWidthBits w)]
  | .mulmod rd rs1 rs2 rs3 => stmt "MULMOD" [.reg rd, .reg rs1, .reg rs2, .reg rs3]
  | .modpow rd rs1 rs2 rs3 => stmt "MODPOW" [.reg rd, .reg rs1, .reg rs2, .reg rs3]
  | .gcd rd rs1 rs2 => stmt "GCD" [.reg rd, .reg rs1, .reg rs2]
  | .iscoprime rd rs1 rs2 => stmt "ISCOPRIME" [.reg rd, .reg rs1, .reg rs2]
  | .isprime rd rs1 => stmt "ISPRIME" [.reg rd, .reg rs1]

/-- The name of a register, `q0` to `q15` (R81). -/
def registerName (r : Reg) : List Char := 'q' :: Nat.toDigits 10 r.val

/-- A number in decimal, a negative one with its sign (R81; log 20). -/
def numberChars : Int → List Char
  | .ofNat n => Nat.toDigits 10 n
  | .negSucc n => '-' :: Nat.toDigits 10 (n + 1)

/-- An operand as text. -/
def operandChars : AsmOperand → List Char
  | .reg r => registerName r
  | .num v => numberChars v
  | .name s => s

/-- A statement as text: the mnemonic, then the operands separated by commas (R81). -/
def statementChars (st : AsmStatement) : List Char :=
  match st.operands with
  | [] => st.mnemonic
  | ops => st.mnemonic ++ ' ' :: [',', ' '].intercalate (ops.map operandChars)

/-- A command as the assembler writes it (R81). -/
def toAsm (i : Instr) : String := String.ofList (statementChars (toStatement i))

/-- A program as text, one command a line (R81). -/
def programText (is : List Instr) : String :=
  String.ofList (['\n'].intercalate (is.map fun i => statementChars (toStatement i)))

/-! ## Labels and pseudo-instructions -/

/-- The offset a branch written with a label gets: `off16 = wrap_16(label_index - branch_index)`, read back as signed (R81). -/
def labelOffset (labelIndex branchIndex : Nat) : Int := sext16 (off16Bits ((labelIndex : Int) - branchIndex))

/-- The 16 bits of `v` from bit `16 * k` up (R82). -/
def half16 (v k : Nat) : Nat := v / 2 ^ (16 * k) % 2 ^ 16

/-- LDIS of the `k` lowest 16-bit pieces of `v`, highest first (R82). -/
def ldisPieces (rd : Reg) (v : Nat) : Nat → List Instr
  | 0 => []
  | k + 1 => .ldis rd (half16 v k) :: ldisPieces rd v k

/-- CLR rd (R82). -/
def pseudoClr (rd : Reg) : List Instr := [.ldc rd .zero]

/-- WIDEN rd, rs (R82). -/
def pseudoWiden (rd rs : Reg) : List Instr := [.lo rd rs]

/-- LI64 rd, v: always four commands (R82). -/
def pseudoLi64 (rd : Reg) (v : Nat) : List Instr := .ldi rd (half16 v 3) :: ldisPieces rd v 3

/-- LI128 rd, v: always eight commands (R82). -/
def pseudoLi128 (rd : Reg) (v : Nat) : List Instr := .ldi rd (half16 v 7) :: ldisPieces rd v 7

/-- SQR rd, rs (R82). -/
def pseudoSqr (rd rs : Reg) : List Instr := [.sqr64 rd rs]

/-! ## From statements to commands -/

/-- The commands of two registers (R77), and the pseudo-instructions of two (R82). -/
def twoRegisterNames : List (String × (Reg → Reg → List Instr)) :=
  [("MOV", fun a b => [.mov a b]), ("LO", fun a b => [.lo a b]), ("HI", fun a b => [.hi a b]),
   ("ISNARROW", fun a b => [.isnarrow a b]), ("SQR64", fun a b => [.sqr64 a b]), ("ISPRIME", fun a b => [.isprime a b]),
   ("WIDEN", pseudoWiden), ("SQR", pseudoSqr)]

/-- The commands of three registers (R77). -/
def threeRegisterNames : List (String × (Reg → Reg → Reg → Instr)) :=
  [("MAKE", .make), ("CEQ", .ceq), ("CNE", .cne), ("CLT", .clt), ("CLE", .cle), ("CGT", .cgt), ("CGE", .cge), ("AND", .and),
   ("OR", .or), ("SHL", .shl), ("SHR", .shr)] ++
  [("ADD", .add), ("SUB", .sub), ("MUL64", .mul64), ("MUL", .mul), ("DIV", .div), ("MOD", .mod), ("GCD", .gcd),
   ("ISCOPRIME", .iscoprime)]

/-- The commands of four registers (R77). -/
def fourRegisterNames : List (String × (Reg → Reg → Reg → Reg → Instr)) :=
  [("DIVREM", .divrem), ("MULMOD", .mulmod), ("MODPOW", .modpow)]

/-- The entry of a name in a list. -/
def lookupName {α : Type} (entries : List (String × α)) (name : List Char) : Option α :=
  match entries with
  | [] => none
  | (n, a) :: rest => if n.toList = name then some a else lookupName rest name

/-- LDC's selector from its name (R81). -/
def ldcNames : List (String × LdcConst) := [("ZERO", .zero), ("ONE", .one), ("MAX", .max), ("MIN", .min)]

/-- ABSU's width from the number of bits (R81). -/
def absWidthOfBits (bits : Int) : Option AbsWidth :=
  if bits = 8 then some .w8 else if bits = 16 then some .w16 else if bits = 32 then some .w32
  else if bits = 64 then some .w64 else none

/-- The offset of a label: `off16` from the label's index, if the label stands somewhere (R81). -/
def labelTarget (labels : List (List Char × Nat)) (index : Nat) (name : List Char) : Option Int :=
  (labels.find? fun l => l.1 == name).map fun l => labelOffset l.2 index

/-- The offset that a number written in a branch means: `0..65535` is the field `off16` itself, so `0x8000` and `-32768` are the same
offset; a negative number is the offset (log 20, from the examples of 95_test_vectors.md). -/
def numberTarget (v : Int) : Int := if 0 ≤ v ∧ v < 65536 then sext16 v.toNat else v

/-- A branch target: a number, or a label (R81). An operand spelled like a register is the label of that name, since no branch has
a register there: DESIGN CHOICE, log 20. -/
def targetOffset (labels : List (List Char × Nat)) (index : Nat) : AsmOperand → Option Int
  | .num v => some (numberTarget v)
  | .name s => labelTarget labels index s
  | .reg r => labelTarget labels index (registerName r)

/-- One command, if an encoding can hold it (R75). -/
def oneCommand (i : Instr) : Option (List Instr) := if i.wellFormed then some [i] else none

/-- A command with a number in a field: the number must not be negative. -/
def withNumber (v : Int) (f : Nat → Option (List Instr)) : Option (List Instr) := if 0 ≤ v then f v.toNat else none

/-- The commands of a statement of one operand: JMP, BR, which is JMP, and CLR (R77, R82). -/
def oneOperandCommands (labels : List (List Char × Nat)) (index : Nat) (m : List Char) (t : AsmOperand) : Option (List Instr) :=
  if m = "JMP".toList ∨ m = "BR".toList then (targetOffset labels index t).bind fun off => oneCommand (.jmp off)
  else if m = "CLR".toList then
    match t with
    | .reg a => some (pseudoClr a)
    | .num _ | .name _ => none
  else none

/-- The commands of a statement of a register and a number (R77, R82). -/
def registerNumberCommands (m : List Char) (a : Reg) (n : Nat) : Option (List Instr) :=
  if m = "LDI".toList then oneCommand (.ldi a n)
  else if m = "LDIS".toList then oneCommand (.ldis a n)
  else if m = "LDC".toList then if n < 4 then some [.ldc a (ldcConstOf n)] else none
  else if m = "LI64".toList then if n < 2 ^ 64 then some (pseudoLi64 a n) else none
  else if m = "LI128".toList then if n < 2 ^ 128 then some (pseudoLi128 a n) else none
  else none

/-- The commands of a statement of a register and a second operand: the branches first, whose second operand is a target, then
those of two registers, of a register and a number, and LDC with its selector's name (R77, R81, R82). -/
def twoOperandCommands (labels : List (List Char × Nat)) (index : Nat) (m : List Char) (a : Reg) (t : AsmOperand) :
    Option (List Instr) :=
  if m = "BZ".toList then (targetOffset labels index t).bind fun off => oneCommand (.bz a off)
  else if m = "BNZ".toList then (targetOffset labels index t).bind fun off => oneCommand (.bnz a off)
  else
    match t with
    | .reg b => (lookupName twoRegisterNames m).map fun c => c a b
    | .num v => withNumber v (registerNumberCommands m a)
    | .name s => if m = "LDC".toList then (lookupName ldcNames s).map fun k => [.ldc a k] else none

/-- The commands of a statement that stands at `index`; none if it is no statement of R81 or R82. -/
def commandsOf (labels : List (List Char × Nat)) (index : Nat) (st : AsmStatement) : Option (List Instr) :=
  match st.operands with
  | [] =>
    if st.mnemonic = "NOP".toList then some [.nop] else if st.mnemonic = "HALT".toList then some [.halt] else none
  | [t] => oneOperandCommands labels index st.mnemonic t
  | [.reg a, t] => twoOperandCommands labels index st.mnemonic a t
  | [.reg a, .reg b, .reg c] => (lookupName threeRegisterNames st.mnemonic).map fun f => [f a b c]
  | [.reg a, .reg b, .num v] =>
    if st.mnemonic = "SHLI".toList then withNumber v fun n => oneCommand (.shli a b n)
    else if st.mnemonic = "SHRI".toList then withNumber v fun n => oneCommand (.shri a b n)
    else if st.mnemonic = "ABSU".toList then (absWidthOfBits v).map fun w => [.absu a b w]
    else none
  | [.reg a, .reg b, .reg c, .reg d] => (lookupName fourRegisterNames st.mnemonic).map fun f => [f a b c d]
  | _ => none

/-- How many commands a statement becomes (R82). -/
def wordCount (st : AsmStatement) : Nat :=
  if st.mnemonic = "LI64".toList then 4 else if st.mnemonic = "LI128".toList then 8 else 1

/-- A line: perhaps a label, perhaps a statement (R81). -/
structure AsmLine where
  label : Option (List Char)
  statement : Option AsmStatement
deriving DecidableEq, Repr

/-- A label stands for the index of the next command (R81). -/
def labelIndices (lines : List AsmLine) (index : Nat) : List (List Char × Nat) :=
  match lines with
  | [] => []
  | l :: rest =>
    (match l.label with
      | some s => [(s, index)]
      | none => []) ++
    labelIndices rest (match l.statement with
      | some st => index + wordCount st
      | none => index)

/-- The commands of lines that begin at `index`. -/
def commandsOfLines (labels : List (List Char × Nat)) (lines : List AsmLine) (index : Nat) : Option (List Instr) :=
  match lines with
  | [] => some []
  | l :: rest =>
    match l.statement with
    | none => commandsOfLines labels rest index
    | some st =>
      (commandsOf labels index st).bind fun is =>
        (commandsOfLines labels rest (index + wordCount st)).map fun more => is ++ more

/-! ## Reading text -/

/-- Blanks between words. -/
def isBlank (c : Char) : Bool := c == ' ' || c == '\t' || c == '\r'

/-- Text without blanks at either end. -/
def trimChars (cs : List Char) : List Char := ((cs.dropWhile isBlank).reverse.dropWhile isBlank).reverse

/-- Text cut at every separator. -/
def cutAt (sep : Char) (cs : List Char) : List (List Char) :=
  match cs with
  | [] => [[]]
  | c :: rest =>
    if c = sep then [] :: cutAt sep rest
    else
      match cutAt sep rest with
      | [] => [[c]]
      | part :: parts => (c :: part) :: parts

/-- The value of a digit in a base up to 16. -/
def digitValue (base : Nat) (c : Char) : Option Nat :=
  let d := if '0' ≤ c ∧ c ≤ '9' then c.toNat - 48
    else if 'a' ≤ c ∧ c ≤ 'f' then c.toNat - 87
    else if 'A' ≤ c ∧ c ≤ 'F' then c.toNat - 55
    else 16
  if d < base then some d else none

/-- The number that digits write, most significant first. -/
def digitsValue (base acc : Nat) (cs : List Char) : Option Nat :=
  match cs with
  | [] => some acc
  | c :: rest => (digitValue base c).bind fun d => digitsValue base (acc * base + d) rest

/-- A decimal or `0x` hexadecimal number (R81). Whether R7's underscores may separate its digits R81 does not say; here they may not:
DESIGN CHOICE, log 20. -/
def naturalOf (cs : List Char) : Option Nat :=
  match cs with
  | [] => none
  | '0' :: 'x' :: c :: rest => digitsValue 16 0 (c :: rest)
  | cs => digitsValue 10 0 cs

/-- A name: letters, digits and underscores, not beginning with a digit. -/
def isName (cs : List Char) : Bool :=
  match cs with
  | [] => false
  | c :: rest => (c.isAlpha || c == '_') && rest.all fun d => d.isAlphanum || d == '_'

/-- A register `q0` to `q15` (R81). A label may be spelled like one; `targetOffset` reads it as the label (log 20). -/
def registerOf (cs : List Char) : Option Reg :=
  match cs with
  | ['q', a] => (digitValue 10 a).map fun d => Fin.ofNat 16 d
  | ['q', '1', a] => (digitValue 6 a).map fun d => Fin.ofNat 16 (10 + d)
  | _ => none

/-- An operand: a register, a number, which may carry a sign (log 20), or a name. -/
def operandOf (cs : List Char) : Option AsmOperand :=
  match registerOf cs with
  | some r => some (.reg r)
  | none =>
    match cs with
    | '-' :: rest => (naturalOf rest).map fun n => .num (-(n : Int))
    | '+' :: rest => (naturalOf rest).map fun n => .num n
    | cs =>
      match naturalOf cs with
      | some n => some (.num n)
      | none => if isName cs then some (.name cs) else none

/-- All answers, if there is one for every element. -/
def allOf {α β : Type} (f : α → Option β) (xs : List α) : Option (List β) :=
  match xs with
  | [] => some []
  | x :: rest => (f x).bind fun y => (allOf f rest).map fun ys => y :: ys

/-- A statement, or nothing, from text without label and comment. -/
def statementOf (cs : List Char) : Option (Option AsmStatement) :=
  match trimChars cs with
  | [] => some none
  | cs =>
    let m := cs.takeWhile fun c => !isBlank c
    match trimChars (cs.drop m.length) with
    | [] => some (some ⟨m, []⟩)
    | ops => (allOf operandOf ((cutAt ',' ops).map trimChars)).map fun os => some ⟨m, os⟩

/-- A line of text: `;` starts a comment, and a name with a colon at the start is a label (R81). -/
def lineOf (cs : List Char) : Option AsmLine :=
  let text := cs.takeWhile fun c => c != ';'
  match cutAt ':' text with
  | [l, body] =>
    if isName (trimChars l) then (statementOf body).map fun st => ⟨some (trimChars l), st⟩ else none
  | [body] => (statementOf body).map fun st => ⟨none, st⟩
  | _ => none

/-- The commands of an assembler text whose first command stands at index 0 (R81, R82); none if a label is written twice. -/
def assemble (text : String) : Option (List Instr) :=
  (allOf lineOf (cutAt '\n' text.toList)).bind fun lines =>
    let labels := labelIndices lines 0
    if (labels.map Prod.fst).Nodup then commandsOfLines labels lines 0 else none

end Sys2Proof.Machine
end

