-- ==== Sys2Proof/Machine/HostWindow.lean ====
section
/-! DEFINITION. The host window (20_memory.md R50 to R60; 10_state.md R30 to R37; 70_reset_and_hazards.md R320): where an offset
leads, what a read returns, what a write does. -/

namespace Sys2Proof.Machine

/-- The control registers, in the order of their offsets `0x000`, `0x004`, ..., `0x020` (R30). -/
inductive CtlReg where
  /-- ID (R31). -/
  | id
  /-- CTRL (R32). -/
  | ctrl
  /-- STATUS (R33). -/
  | status
  /-- PC (R34). -/
  | pc
  /-- IE (R35). -/
  | ie
  /-- IP (R36). -/
  | ip
  /-- FCAUSE (R37). -/
  | fcause
  /-- FPC (R37). -/
  | fpc
  /-- FCMD (R37). -/
  | fcmd
deriving DecidableEq, Repr

/-- What stands at an aligned offset of the window (R51). -/
inductive WindowLoc where
  /-- A control register. -/
  | control (c : CtlReg)
  /-- A reserved offset. -/
  | reserved
  /-- Word `j` of `x[r]`. -/
  | regWord (r : Reg) (j : Fin 4)
  /-- Word `k` of CMDBUF. -/
  | cmdWord (k : Nat)
deriving DecidableEq, Repr

/-- The control register at word `n` of the window (R30). -/
def ctlRegAt : Nat → Option CtlReg
  | 0 => some .id
  | 1 => some .ctrl
  | 2 => some .status
  | 3 => some .pc
  | 4 => some .ie
  | 5 => some .ip
  | 6 => some .fcause
  | 7 => some .fpc
  | 8 => some .fcmd
  | _ => none

/-- The map of R51 on an aligned offset below `0x800`. -/
def locationAt (off : Nat) : WindowLoc :=
  if off < 0x100 then
    match ctlRegAt (off / 4) with
    | some c => .control c
    | none => .reserved
  else if off < 0x200 then .regWord (Fin.ofNat 16 ((off - 0x100) / 16)) (Fin.ofNat 4 (off / 4))
  else if off < 0x400 then .reserved
  else .cmdWord ((off - 0x400) / 4)

/-- Where an access of `size` bytes at an offset leads: nowhere unless it is four bytes, aligned and inside the window
(R54 to R56; log 10). -/
def locate (off size : Nat) : Option WindowLoc :=
  if size = 4 ∧ off % 4 = 0 ∧ off < Config.windowBytes then some (locationAt off) else none

/-- The code of STATE (R29, R33). -/
def runStateCode : RunState → Word32
  | .idle => 0
  | .run => 1
  | .done => 2
  | .fault => 3

/-- The code of FCAUSE (R280). -/
def causeCode : FaultCause → Word32
  | .noFault => 0
  | .divzero => 1
  | .illegal => 2
  | .fetchrange => 3

/-- What a control register reads; bits not listed read 0 (R30 to R37). -/
def controlRead (c : CtlReg) (s : State) : Word32 :=
  match c with
  | .id => Config.idValue
  | .ctrl => 0
  | .status => runStateCode s.runState
  | .pc => s.pc.setWidth 32
  | .ie => s.ie.setWidth 32
  | .ip => s.ip.setWidth 32
  | .fcause => causeCode s.fcause
  | .fpc => s.fpc.setWidth 32
  | .fcmd => s.fcmd

/-- A write of CTRL: SRST alone if set; else CLEAR first, then START (R32). -/
def ctrlWrite (w : Word32) (s : State) : State :=
  if w.getLsbD 2 then softReset s
  else
    let cleared := if w.getLsbD 1 then clearRun s else s
    if w.getLsbD 0 then startRun cleared else cleared

/-- A write that is ignored, without any signal, while STATE = RUN (R55). -/
def unlessRunning (f : State → State) (s : State) : State :=
  match s.runState with
  | .run => s
  | .idle | .done | .fault => f s

/-- A write of a control register (R31 to R37). -/
def controlWrite (c : CtlReg) (w : Word32) (s : State) : State :=
  match c with
  | .ctrl => ctrlWrite w s
  | .pc => unlessRunning (fun t => t.setPc (w.setWidth 16)) s
  | .ie => { s with ie := w.setWidth 2 }
  | .id | .status | .ip | .fcause | .fpc | .fcmd => s

/-- Word `j` of a register value, `v[32*j+31 : 32*j]` (R53 a). -/
def wordOf (v : Word128) (j : Nat) : Word32 := v.extractLsb' (32 * j) 32

/-- A register value with word `j` replaced and the other 96 bits kept (R55). -/
def replaceWord (v : Word128) (j : Nat) (w : Word32) : Word128 :=
  (v &&& ~~~(0xFFFFFFFF#128 <<< (32 * j))) ||| (w.setWidth 128 <<< (32 * j))

/-- What a read returns (R51, R54). -/
def readLoc (l : WindowLoc) (s : State) : Word32 :=
  match l with
  | .control c => controlRead c s
  | .reserved => 0
  | .regWord r j => wordOf (s.reg r) j.val
  | .cmdWord k => s.cmdWord k

/-- What a write does (R51, R55, R320). -/
def writeLoc (l : WindowLoc) (w : Word32) (s : State) : State :=
  match l with
  | .control c => controlWrite c w s
  | .reserved => s
  | .regWord r j => unlessRunning (fun t => t.setReg r (replaceWord (t.reg r) j.val w)) s
  | .cmdWord k => unlessRunning (fun t => t.setCmdWord k w) s

/-- `MemRead(BASE + off, size)`: the word, without side effect, or the bus error of R56, which carries no data (R54; log 11). -/
def windowRead (off size : Nat) (s : State) : Host.Outcome Word32 Fault Refusal :=
  match locate off size with
  | some l => .next (readLoc l s)
  | none => .fault .busError

/-- `MemWrite(BASE + off, size, w)`: the state after it, or the bus error of R56, which changes nothing (R55). -/
def windowWrite (off size : Nat) (w : Word32) (s : State) : StepResult :=
  match locate off size with
  | some l => .next (writeLoc l w s)
  | none => .fault .busError

/-- A host read at a bus address (R51, R54, R56). -/
def hostRead (addr size : Nat) (s : State) : Host.Outcome Word32 Fault Refusal :=
  if Config.base ≤ addr then windowRead (addr - Config.base) size s else .fault .busError

/-- A host write at a bus address (R51, R55, R56). -/
def hostWrite (addr size : Nat) (w : Word32) (s : State) : StepResult :=
  if Config.base ≤ addr then windowWrite (addr - Config.base) size w s else .fault .busError

end Sys2Proof.Machine
end

