-- ==== Sys2Proof/Machine/Events.lean ====
section
/-! DEFINITION. Whole executions (20_memory.md R61): one total order of the sequencer's commands, the host's accesses and the
platform's resets, each at a command boundary. Which event comes next is not fixed, so an execution is any list (log 5). -/

namespace Sys2Proof.Machine

/-- One event of an execution (R61, R310). -/
inductive HostEvent where
  /-- The sequencer takes one step (R235). -/
  | command
  /-- The host reads `size` bytes at a bus address (R54). -/
  | read (addr size : Nat)
  /-- The host writes `size` bytes at a bus address (R55); `w` is what it writes, if that is a word. -/
  | write (addr size : Nat) (w : Word32)
  /-- The platform asserts and releases `rst` (R310 a). -/
  | reset
deriving DecidableEq, Repr

/-- What the host sees of an event. -/
inductive HostReply where
  /-- Nothing: a command or a reset. -/
  | silent
  /-- The data of a read. -/
  | data (w : Word32)
  /-- A write was taken (an ignored write signals nothing: R55). -/
  | written
  /-- The bus error of R56. -/
  | busError
deriving DecidableEq, Repr

/-- The state an outcome leaves; a refused access changes no state (R56). -/
def stateAfter (r : StepResult) (s : State) : State :=
  match r with
  | .next t => t
  | .fault _ | .refused _ => s

/-- The state after one event. -/
def applyEvent (e : HostEvent) (s : State) : State :=
  match e with
  | .command => stateAfter (step s) s
  | .read _ _ => s
  | .write addr size w => stateAfter (hostWrite addr size w s) s
  | .reset => hardwareReset s

/-- What the host sees of one event. -/
def replyTo (e : HostEvent) (s : State) : HostReply :=
  match e with
  | .command | .reset => .silent
  | .read addr size =>
    match hostRead addr size s with
    | .next w => .data w
    | .fault _ | .refused _ => .busError
  | .write addr size w =>
    match hostWrite addr size w s with
    | .next _ => .written
    | .fault _ | .refused _ => .busError

/-- The state after a list of events, first to last (R61). -/
def applyEvents (es : List HostEvent) (s : State) : State :=
  match es with
  | [] => s
  | e :: rest => applyEvents rest (applyEvent e s)

end Sys2Proof.Machine
end

