-- ==== Sys2Proof/Safety.lean ====
section
/-! DEFINITION. The terms in which statements about U128E are made: words written field by field (30_encoding.md R71 to R73), what a
command leaves unchanged (10_state.md R28), fault entry as a relation (60_exceptions.md R283), the invariant of every reachable
state, and the property required of a witness table (46_prime.md R222). -/

namespace Sys2Proof.Machine

/-! ## Words written field by field -/

/-- The four bits of a register field (R74). -/
def regBits (r : Reg) : BitVec 4 := BitVec.ofNat 4 r.val

/-- A word in format R: opcode, rd, rs1, rs2, rs3, eight zero bits (R71). -/
def fmtR (op : BitVec 8) (rd rs1 rs2 rs3 : Reg) : Word32 :=
  op ++ regBits rd ++ regBits rs1 ++ regBits rs2 ++ regBits rs3 ++ 0#8

/-- A word in format I: opcode, rd, rs1, imm16 (R72). -/
def fmtI (op : BitVec 8) (rd rs1 : Reg) (imm : BitVec 16) : Word32 := op ++ regBits rd ++ regBits rs1 ++ imm

/-- A word in format B: opcode, four zero bits, rs1, off16 (R73). -/
def fmtB (op : BitVec 8) (rs1 : Reg) (off : BitVec 16) : Word32 := op ++ 0#4 ++ regBits rs1 ++ off

/-! ## What a command changes and what it keeps -/

/-- Nothing but `pc` and the general registers differs: the run state, the interrupt enables, the fault registers and every byte
of CMDBUF are the same (R28). -/
structure KeepsControl (s t : State) : Prop where
  runState : t.runState = s.runState
  ie : t.ie = s.ie
  fcause : t.fcause = s.fcause
  fpc : t.fpc = s.fpc
  fcmd : t.fcmd = s.fcmd
  bytes : ∀ off, t.byteAt off = s.byteAt off

/-- The effect of a command that writes one register: `x[rd] <- v`, every other register kept, `pc <- wrap_16(pc + 1)`, nothing
else changed (R27, R28). -/
structure WritesRegister (s t : State) (rd : Reg) (v : Nat) : Prop where
  result : (t.reg rd).toNat = v
  others : ∀ r, r ≠ rd → t.reg r = s.reg r
  next : t.pc.toNat = (s.pc.toNat + 1) % 65536
  control : KeepsControl s t

/-- The effect of DIVREM on a non-zero divisor: the quotient, then the remainder, which stays if both go to one register
(R168). -/
structure WritesTwoRegisters (s t : State) (rd rd2 : Reg) (q r : Nat) : Prop where
  quotient : rd ≠ rd2 → (t.reg rd).toNat = q
  remainder : (t.reg rd2).toNat = r
  others : ∀ k, k ≠ rd → k ≠ rd2 → t.reg k = s.reg k
  next : t.pc.toNat = (s.pc.toNat + 1) % 65536
  control : KeepsControl s t

/-- The effect of a control command other than HALT: `pc` becomes `wrap_16(target)`, nothing else changes (R27, R28). -/
structure MovesPc (s t : State) (target : Int) : Prop where
  pc : (t.pc.toNat : Int) = target % 65536
  registers : ∀ r, t.reg r = s.reg r
  control : KeepsControl s t

/-- Fault entry with cause `c` and word `w` (R283). -/
structure FaultEntered (c : FaultCause) (w : Word32) (s t : State) : Prop where
  fcause : t.fcause = c
  fpc : t.fpc = s.pc
  fcmd : t.fcmd = w
  runState : t.runState = .fault
  pc : t.pc = s.pc
  registers : ∀ r, t.reg r = s.reg r
  ie : t.ie = s.ie
  bytes : ∀ off, t.byteAt off = s.byteAt off

/-- The word `w` is the command `i`, and `i` answers a next state that writes `v` to `x[rd]` and changes nothing else. -/
def CommandWrites (w : Word32) (i : Instr) (s : State) (rd : Reg) (v : Nat) : Prop :=
  decodeWord w = .ok i ∧ ∃ t, exec i s = .next t ∧ WritesRegister s t rd v

/-- The word `w` is the command `i`, and `i` answers a next state in which only `pc` changes, to `wrap_16(target)`. -/
def CommandMovesPc (w : Word32) (i : Instr) (s : State) (target : Int) : Prop :=
  decodeWord w = .ok i ∧ ∃ t, exec i s = .next t ∧ MovesPc s t target

/-- The word `w` is the command `i`, and `i` answers the DIVZERO fault with FCMD = `w`. -/
def CommandDivZero (w : Word32) (i : Instr) (s : State) : Prop :=
  decodeWord w = .ok i ∧ ∃ t, exec i s = .next t ∧ FaultEntered .divzero w s t

/-- The registers a command may write (R24, R28). -/
def destinations : Instr → List Reg
  | .nop | .halt | .jmp _ | .bz _ _ | .bnz _ _ => []
  | .mov rd _ | .ldi rd _ | .ldis rd _ | .ldc rd _ | .make rd _ _ | .lo rd _ | .hi rd _ | .isnarrow rd _ => [rd]
  | .ceq rd _ _ | .cne rd _ _ | .clt rd _ _ | .cle rd _ _ | .cgt rd _ _ | .cge rd _ _ => [rd]
  | .and rd _ _ | .or rd _ _ | .shl rd _ _ | .shr rd _ _ | .shli rd _ _ | .shri rd _ _ => [rd]
  | .add rd _ _ | .sub rd _ _ | .mul64 rd _ _ | .sqr64 rd _ | .mul rd _ _ => [rd]
  | .div rd _ _ | .mod rd _ _ => [rd]
  | .divrem rd rd2 _ _ => [rd, rd2]
  | .absu rd _ _ | .mulmod rd _ _ _ | .modpow rd _ _ _ | .gcd rd _ _ | .iscoprime rd _ _ | .isprime rd _ => [rd]

/-- The registers whose values a command uses (R24, R79). -/
def sources : Instr → List Reg
  | .nop | .halt | .jmp _ | .ldi _ _ | .ldc _ _ => []
  | .bz rs1 _ | .bnz rs1 _ => [rs1]
  | .mov _ rs1 | .lo _ rs1 | .hi _ rs1 | .isnarrow _ rs1 => [rs1]
  | .ldis rd _ => [rd]
  | .make _ rs1 rs2 => [rs1, rs2]
  | .ceq _ rs1 rs2 | .cne _ rs1 rs2 | .clt _ rs1 rs2 | .cle _ rs1 rs2 | .cgt _ rs1 rs2 | .cge _ rs1 rs2 => [rs1, rs2]
  | .and _ rs1 rs2 | .or _ rs1 rs2 | .shl _ rs1 rs2 | .shr _ rs1 rs2 => [rs1, rs2]
  | .shli _ rs1 _ | .shri _ rs1 _ => [rs1]
  | .add _ rs1 rs2 | .sub _ rs1 rs2 | .mul64 _ rs1 rs2 | .mul _ rs1 rs2 => [rs1, rs2]
  | .sqr64 _ rs1 | .absu _ rs1 _ | .isprime _ rs1 => [rs1]
  | .div _ rs1 rs2 | .mod _ rs1 rs2 | .divrem _ _ rs1 rs2 => [rs1, rs2]
  | .mulmod _ rs1 rs2 rs3 | .modpow _ rs1 rs2 rs3 => [rs1, rs2, rs3]
  | .gcd _ rs1 rs2 | .iscoprime _ rs1 rs2 => [rs1, rs2]

/-- The divisor register of a divide command (R166 to R168). -/
def divisorOf : Instr → Option Reg
  | .div _ _ rs2 | .mod _ _ rs2 | .divrem _ _ _ rs2 => some rs2
  | _ => none

/-- The destination of a command on 64-bit operands, and the registers of which it uses the low limb only (R25). -/
def narrowOperands : Instr → Option (Reg × List Reg)
  | .make rd rs1 rs2 | .mul64 rd rs1 rs2 => some (rd, [rs1, rs2])
  | .sqr64 rd rs1 | .absu rd rs1 _ | .isprime rd rs1 => some (rd, [rs1])
  | .mulmod rd rs1 rs2 rs3 | .modpow rd rs1 rs2 rs3 => some (rd, [rs1, rs2, rs3])
  | _ => none

/-- The offset by which a command moves `pc` in a state: its own for JMP and a taken BZ or BNZ, 1 for every other command
(R27). -/
def pcOffset (i : Instr) (s : State) : Int :=
  match i with
  | .jmp off => off
  | .bz rs1 off => if (s.reg rs1).toNat = 0 then off else 1
  | .bnz rs1 off => if (s.reg rs1).toNat = 0 then 1 else off
  | _ => 1

/-- The commands of a list, one after another (R235); used for the expansions of R82. -/
def execAll (is : List Instr) (s : State) : StepResult :=
  match is with
  | [] => .next s
  | i :: rest =>
    match exec i s with
    | .next t => execAll rest t
    | .fault e => .fault e
    | .refused e => .refused e

/-- The commands of a list can all be encoded, and run from `s` to a state with `v` in `x[rd]`, every other register kept, `pc` moved
past all of them, and nothing else changed (R27, R28, R82). -/
def LoadsValue (is : List Instr) (s : State) (rd : Reg) (v : Nat) : Prop :=
  (∀ i ∈ is, i.wellFormed = true) ∧
    ∃ t, execAll is s = .next t ∧ (t.reg rd).toNat = v ∧ (∀ r, r ≠ rd → t.reg r = s.reg r) ∧
      t.pc.toNat = (s.pc.toNat + is.length) % 65536 ∧ KeepsControl s t

/-! ## The invariant -/

/-- FCAUSE, FPC and FCMD describe the fault that caused the present FAULT state, or are 0 (R280, R288). -/
def FaultRecord (s : State) : Prop :=
  match s.fcause with
  | .noFault => s.runState ≠ .fault ∧ s.fpc = 0 ∧ s.fcmd = 0
  | .divzero =>
    s.runState = .fault ∧ s.fpc.toNat < Config.cmdbufWords ∧
      ∃ i r, decodeWord s.fcmd = .ok i ∧ divisorOf i = some r
  | .illegal => s.runState = .fault ∧ s.fpc.toNat < Config.cmdbufWords ∧ ∃ e, decodeWord s.fcmd = .error e
  | .fetchrange => s.runState = .fault ∧ Config.cmdbufWords ≤ s.fpc.toNat ∧ s.fcmd = 0

/-- What holds after every event: the command buffer is in its canonical form (log 2), and the fault registers are a true record
(R288). -/
structure StateInv (s : State) : Prop where
  memory : s.cmdbuf.wf
  record : FaultRecord s

/-! ## Witness tables (R222) -/

/-- A witness list certifies below a bound: every odd composite from TRIAL_LIMIT up to the bound, without a prime factor up to
SMALL_PRIME_LIMIT, fails the test (R222). -/
def CertifiesBelow (bound : Nat) (ws : List Word64) : Prop :=
  ∀ v : Word64, v.toNat % 2 = 1 → ¬ v.toNat.Prime → Config.trialLimit ≤ v.toNat → v.toNat < bound →
    (∀ p, p.Prime → p ∣ v.toNat → Config.smallPrimeLimit < p) → millerRabin v ws = false

/-- The property required of WITNESS_TABLE: bounds strictly rising, one of them at least `2^64`, and every row certifies below
its bound (R222). -/
structure WitnessTableSuffices (table : WitnessTable) : Prop where
  rising : table.Pairwise (fun a b => a.1 < b.1)
  covers : ∃ row ∈ table, 2 ^ 64 ≤ row.1
  certifies : ∀ row ∈ table, CertifiesBelow row.1 row.2

/-! ## Addresses of the host window (R51) -/

/-- The bus address of an offset of the window. -/
def windowAddr (off : Nat) : Nat := Config.base + off

/-- The bus address of word `j` of `x[r]`. -/
def regAddr (r : Reg) (j : Fin 4) : Nat := windowAddr (0x100 + 16 * r.val + 4 * j.val)

/-- The bus address of CMDBUF word `k`. -/
def cmdAddr (k : Fin 256) : Nat := windowAddr (0x400 + 4 * k.val)

/-- The bus address of CTRL. -/
def ctrlAddr : Nat := windowAddr 4

/-- Word `j` of a register value, `v[32*j+31 : 32*j]`, as a number (R53 a). -/
def wordAt (v : Word128) (j : Nat) : Nat := v.toNat / 2 ^ (32 * j) % 2 ^ 32

end Sys2Proof.Machine
end

