-- ==== Sys2Proof/Certificates/Slice0/Obligations.lean ====
section
/-! DEFINITION. The statements about U128E, in the order of OBLIGATIONS.json. The terms they are made in stand in
Sys2Proof/Safety.lean. -/

open Sys2Proof Sys2Proof.Machine

/-! ## Encoding -/

/-- Decoding an encoded command gives it back, as a word and as the word's bytes in memory order (R53 b, R71 to R77). -/
def Obligations.DecodeEncodeRoundTrip : Prop :=
  ∀ i : Instr, i.wellFormed = true →
    decodeWord (encode i) = .ok i ∧
      decodeBytes [byteOf (encode i) 0, byteOf (encode i) 1, byteOf (encode i) 2, byteOf (encode i) 3] = .ok i

/-- A word that decodes is the encoding of its command, which is well-formed: no bit of a legal word is ignored (R74, R76). -/
def Obligations.EncodeDecodeRoundTrip : Prop :=
  ∀ (w : Word32) (i : Instr), decodeWord w = .ok i → i.wellFormed = true ∧ encode i = w

/-- R76 and R282: a word is legal exactly when a row of R77 accepts it, at most one row does, and a fetched word raises ILLEGAL
exactly when none does. -/
def Obligations.LegalExactlyWhenARowMatches : Prop :=
  (∀ w : Word32, (∃ i, decodeWord w = .ok i) ↔ ∃ row ∈ opcodeTable, w &&& row.mask = row.matchBits) ∧
  (∀ w : Word32, ∀ row ∈ opcodeTable, ∀ row' ∈ opcodeTable,
    w &&& row.mask = row.matchBits → w &&& row'.mask = row'.matchBits → row = row') ∧
  ∀ s : State, s.runState = .run → s.pc.toNat < 256 →
    ((∃ t, step s = .next t ∧ FaultEntered .illegal (s.cmdWord s.pc.toNat) s t) ↔
      ∀ row ∈ opcodeTable, s.cmdWord s.pc.toNat &&& row.mask ≠ row.matchBits)

/-- Example words of the spec decode to their commands, and two illegal words do not (R81, R101 to R133, R194, R238, R240). -/
def Obligations.SomeWordsDecode : Prop :=
  decodeWord 0x20312000 = .ok (.add 3 1 2) ∧ decodeWord 0x32412500 = .ok (.divrem 4 5 1 2) ∧
  decodeWord 0x0A10ABCD = .ok (.ldis 1 0xABCD) ∧ decodeWord 0x1E210040 = .ok (.shli 2 1 64) ∧
  decodeWord 0x0300FFFB = .ok (.jmp (-5)) ∧ decodeWord 0x0507FFFC = .ok (.bnz 7 (-4)) ∧
  decodeWord 0x38210002 = .ok (.absu 2 1 .w32) ∧ decodeWord 0x3A412300 = .ok (.modpow 4 1 2 3) ∧
  decodeWord 0x00000000 = .error .unassignedOpcode ∧ decodeWord 0x20312001 = .error .mustBeZero

/-- A branch written with a label reaches the label, from any index to any index of a command buffer of the largest size
(R81, R241). -/
def Obligations.LabelBranchReachesLabel : Prop :=
  ∀ label index : Nat, label < 65536 → index < 65536 →
    offInRange (labelOffset label index) = true ∧
      (branchTarget (BitVec.ofNat 16 index) (labelOffset label index)).toNat = label

/-- The statement of every well-formed command, its mnemonic with its operands in the order of R77, is taken by the assembler as
that one command, wherever it stands and whatever labels there are (R81). JMP, BZ and BNZ have a signed number as their offset there,
which R81 does not say and the examples of R238 and R240 show (DESIGN CHOICE, log 20). -/
def Obligations.StatementsBecomeTheirCommands : Prop :=
  ∀ (i : Instr) (labels : List (List Char × Nat)) (index : Nat), i.wellFormed = true →
    commandsOf labels index (toStatement i) = some [i] ∧ wordCount (toStatement i) = 1

/-! ## The step and the faults -/

/-- While STATE = RUN, the four bytes at `pc` in the order of their addresses are decoded and the command runs (R52, R53, R80). -/
def Obligations.StepRunsTheDecodedCommand : Prop :=
  ∀ (s : State) (i : Instr), s.runState = .run → s.pc.toNat < 256 → i.wellFormed = true →
    decodeBytes [s.byteAt (0x400 + 4 * s.pc.toNat), s.byteAt (0x401 + 4 * s.pc.toNat),
      s.byteAt (0x402 + 4 * s.pc.toNat), s.byteAt (0x403 + 4 * s.pc.toNat)] = .ok i →
    step s = exec i s

/-- R284: FETCHRANGE is raised exactly when the sequencer is about to fetch with `pc >= 256`, with FPC that `pc` and FCMD 0. -/
def Obligations.FetchRangeFault : Prop :=
  (∀ s : State, s.runState = .run → 256 ≤ s.pc.toNat →
    ∃ t, step s = .next t ∧ FaultEntered .fetchrange 0 s t) ∧
  ∀ s t : State, s.runState = .run → step s = .next t → t.runState = .fault → t.fcause = .fetchrange →
    256 ≤ s.pc.toNat

/-- R281: a fetched DIV, MOD or DIVREM with a zero divisor raises DIVZERO and writes no register, whatever the dividend; no other
command, and no divide with another divisor, faults. -/
def Obligations.DivideByZeroFault : Prop :=
  (∀ (s : State) (i : Instr) (r : Reg), s.runState = .run → s.pc.toNat < 256 →
    decodeWord (s.cmdWord s.pc.toNat) = .ok i → divisorOf i = some r → s.reg r = 0 →
    ∃ t, step s = .next t ∧ FaultEntered .divzero (s.cmdWord s.pc.toNat) s t) ∧
  ∀ (i : Instr) (s t : State), s.runState ≠ .fault → exec i s = .next t → t.runState = .fault →
    ∃ r, divisorOf i = some r ∧ s.reg r = 0

/-- R283: a step that ends in FAULT has entered the fault with its cause, `pc` and word, has changed nothing else, has raised
`irq` if FAULT_IE is 1, and is followed by no other effect. -/
def Obligations.FaultEntryIsPrecise : Prop :=
  ∀ s t : State, s.runState = .run → step s = .next t → t.runState = .fault →
    (∃ c w, FaultEntered c w s t ∧ c ≠ .noFault ∧
      (c = .fetchrange ∧ 256 ≤ s.pc.toNat ∧ w = 0 ∨
        c ≠ .fetchrange ∧ s.pc.toNat < 256 ∧ w = s.cmdWord s.pc.toNat)) ∧
    t.ip = 2 ∧ t.irq = s.ie.getLsbD 1 ∧ step t = .next t

/-- The checks of a step in the order of R285: FETCHRANGE, then ILLEGAL, then DIVZERO, and otherwise the command with no fault. -/
def Obligations.FaultCauseOfAStep : Prop :=
  ∀ s : State, s.runState = .run → ∃ t, step s = .next t ∧
    if 256 ≤ s.pc.toNat then FaultEntered .fetchrange 0 s t
    else
      match decodeWord (s.cmdWord s.pc.toNat) with
      | .error _ => FaultEntered .illegal (s.cmdWord s.pc.toNat) s t
      | .ok i =>
        ((∃ r, divisorOf i = some r ∧ s.reg r = 0) → FaultEntered .divzero (s.cmdWord s.pc.toNat) s t) ∧
        ((∀ r, divisorOf i = some r → s.reg r ≠ 0) → t.runState ≠ .fault ∧ exec i s = .next t)

/-- R286: the same registers, CMDBUF and `pc` give the same registers, `pc` and STATE after the step, and the same fault with the
same record, whatever the fault registers and interrupt enables held. -/
def Obligations.FaultsAreDeterministic : Prop :=
  ∀ s s' : State, s.runState = .run → s'.runState = .run → s.pc = s'.pc → (∀ r, s.reg r = s'.reg r) →
    (∀ k, k < 256 → s.cmdWord k = s'.cmdWord k) →
    ∃ t t', step s = .next t ∧ step s' = .next t' ∧ t.pc = t'.pc ∧ (∀ r, t.reg r = t'.reg r) ∧
      t.runState = t'.runState ∧
      (t.runState = .fault → t.fcause = t'.fcause ∧ t.fpc = t'.fpc ∧ t.fcmd = t'.fcmd)

/-- R287: CLEAR leads from FAULT to IDLE and clears the fault registers only; START then resumes at `pc`; both in one word do the
same; and the faulting command is executed again from the start, with the same end, if nothing was repaired. -/
def Obligations.ClearStartRetriesTheFault : Prop :=
  (∀ s : State, s.runState = .fault → ∃ t u,
    hostWrite ctrlAddr 4 2 s = .next t ∧ t.runState = .idle ∧ t.fcause = .noFault ∧ t.fpc = 0 ∧ t.fcmd = 0 ∧
    t.pc = s.pc ∧ (∀ r, t.reg r = s.reg r) ∧ t.ie = s.ie ∧ (∀ off, t.byteAt off = s.byteAt off) ∧
    hostWrite ctrlAddr 4 1 t = .next u ∧ hostWrite ctrlAddr 4 3 s = .next u ∧ u.runState = .run ∧
    u.pc = s.pc ∧ (∀ r, u.reg r = s.reg r)) ∧
  ∀ p s u : State, p.runState = .run → step p = .next s → s.runState = .fault →
    hostWrite ctrlAddr 4 3 s = .next u → step u = .next s

/-! ## What every command does -/

/-- Every command and every step ends, with a next state (R318); outside RUN the step changes nothing (R80, R297; log 4). -/
def Obligations.EveryStepCompletes : Prop :=
  (∀ (i : Instr) (s : State), ∃ t, exec i s = .next t) ∧ (∀ s : State, ∃ t, step s = .next t) ∧
    ∀ s : State, s.runState ≠ .run → step s = .next s

/-- R27: how `pc` moves. A fault leaves it; every other command adds its offset, which is 1 but for JMP and a taken branch,
modulo `2^16`; and a `pc` of 256 or more faults at the next fetch. -/
def Obligations.ProgramCounterRule : Prop :=
  (∀ (i : Instr) (s : State), s.runState = .run → ∃ t, exec i s = .next t ∧
    (t.runState = .fault → t.pc = s.pc) ∧
    (t.runState ≠ .fault → (t.pc.toNat : Int) = (s.pc.toNat + pcOffset i s) % 65536)) ∧
  ∀ s : State, s.runState = .run → 256 ≤ s.pc.toNat → ∃ t, step s = .next t ∧ FaultEntered .fetchrange 0 s t

/-- The frame of every command (R28, R30, R41): only the destinations among the registers; STATE only by HALT or a fault; the
fault registers only by a fault; never the interrupt enables or CMDBUF. -/
def Obligations.CommandsWriteOnlyTheirDestinations : Prop :=
  ∀ (i : Instr) (s : State), s.runState = .run → ∃ t, exec i s = .next t ∧
    (∀ r, r ∉ destinations i → t.reg r = s.reg r) ∧ t.ie = s.ie ∧ (∀ off, t.byteAt off = s.byteAt off) ∧
    (t.runState = .run ∨ (t.runState = .done ∧ i = .halt) ∨
      (t.runState = .fault ∧ ∃ r, divisorOf i = some r ∧ s.reg r = 0)) ∧
    (t.runState ≠ .fault → t.fcause = s.fcause ∧ t.fpc = s.fpc ∧ t.fcmd = s.fcmd)

/-- R11: a command's result is a function of its source operands alone. Two states that agree on the sources, whatever else they
hold, get the same results, or both the fault. -/
def Obligations.ResultsDependOnSourcesOnly : Prop :=
  ∀ (i : Instr) (s s' : State), s.runState = .run → s'.runState = .run → (∀ r ∈ sources i, s.reg r = s'.reg r) →
    ∃ t t', exec i s = .next t ∧ exec i s' = .next t' ∧ t.runState = t'.runState ∧
      (t.runState ≠ .fault → ∀ r ∈ destinations i, t.reg r = t'.reg r)

/-- R25: the commands on 64-bit operands ignore the high limbs of their sources, and a 64-bit result is written widened. -/
def Obligations.HighLimbsAreIgnored : Prop :=
  (∀ (i : Instr) (rd : Reg) (rs : List Reg) (s s' : State), narrowOperands i = some (rd, rs) →
    (∀ r ∈ rs, (s.reg r).toNat % 2 ^ 64 = (s'.reg r).toNat % 2 ^ 64) →
    ∃ t t', exec i s = .next t ∧ exec i s' = .next t' ∧ t.reg rd = t'.reg rd) ∧
  ∀ (rd rs1 rs2 rs3 : Reg) (w : AbsWidth) (s : State),
    ∀ i ∈ [Instr.mulmod rd rs1 rs2 rs3, .modpow rd rs1 rs2 rs3, .absu rd rs1 w, .isprime rd rs1],
      ∃ t, exec i s = .next t ∧ (t.reg rd).toNat < 2 ^ 64

/-! ## Control -/

/-- R236 and R237: NOP and HALT have one word each. NOP moves `pc` only. HALT moves `pc` past itself and sets STATE = DONE; no
further command is then executed, DONE_IP reads 1, and `irq` is 1 if DONE_IE is. A `pc` of 256 faults at the next fetch. -/
def Obligations.NopAndHalt : Prop :=
  (∀ w, decodeWord w = .ok .nop ↔ w = 0x01000000#32) ∧ (∀ w, decodeWord w = .ok .halt ↔ w = 0x02000000#32) ∧
  (∀ s : State, ∃ t, exec .nop s = .next t ∧ MovesPc s t (s.pc.toNat + 1)) ∧
  (∀ s : State, ∃ t, exec .halt s = .next t ∧ t.pc.toNat = (s.pc.toNat + 1) % 65536 ∧ t.runState = .done ∧
    (∀ r, t.reg r = s.reg r) ∧ t.ie = s.ie ∧ t.fcause = s.fcause ∧ t.fpc = s.fpc ∧ t.fcmd = s.fcmd ∧
    (∀ off, t.byteAt off = s.byteAt off) ∧ step t = .next t ∧ t.ip = 1 ∧ t.irq = s.ie.getLsbD 0) ∧
  ∀ s : State, s.runState = .run → s.pc = 256 → ∃ t, step s = .next t ∧ FaultEntered .fetchrange 0 s t

/-- R238 to R241: JMP, BZ and BNZ at every offset, from every index, relative to the branch's own index and wrapping; the test is
on all 128 bits; a target outside CMDBUF faults at the next fetch only. -/
def Obligations.BranchCommands : Prop :=
  (∀ (rs1 : Reg) (o : BitVec 16) (s : State),
    CommandMovesPc (fmtB 0x03 0 o) (.jmp o.toInt) s (s.pc.toNat + o.toInt) ∧
    CommandMovesPc (fmtB 0x04 rs1 o) (.bz rs1 o.toInt) s
      (if (s.reg rs1).toNat = 0 then s.pc.toNat + o.toInt else s.pc.toNat + 1) ∧
    CommandMovesPc (fmtB 0x05 rs1 o) (.bnz rs1 o.toInt) s
      (if (s.reg rs1).toNat ≠ 0 then s.pc.toNat + o.toInt else s.pc.toNat + 1)) ∧
  ∀ s : State, s.runState = .run → 256 ≤ s.pc.toNat → ∃ t, step s = .next t ∧ FaultEntered .fetchrange 0 s t

/-! ## Move, compare, logic, shift -/

/-- R100, R104 to R107: MOV, MAKE, LO, HI, ISNARROW. -/
def Obligations.MoveCommands : Prop :=
  ∀ (rd rs1 rs2 : Reg) (s : State),
    CommandWrites (fmtR 0x08 rd rs1 0 0) (.mov rd rs1) s rd (s.reg rs1).toNat ∧
    CommandWrites (fmtR 0x0C rd rs1 rs2 0) (.make rd rs1 rs2) s rd
      ((s.reg rs1).toNat % 2 ^ 64 * 2 ^ 64 + (s.reg rs2).toNat % 2 ^ 64) ∧
    CommandWrites (fmtR 0x0D rd rs1 0 0) (.lo rd rs1) s rd ((s.reg rs1).toNat % 2 ^ 64) ∧
    CommandWrites (fmtR 0x0E rd rs1 0 0) (.hi rd rs1) s rd ((s.reg rs1).toNat / 2 ^ 64) ∧
    CommandWrites (fmtR 0x0F rd rs1 0 0) (.isnarrow rd rs1) s rd (if (s.reg rs1).toNat / 2 ^ 64 = 0 then 1 else 0)

/-- R101 to R103: LDI, LDIS, LDC, for every immediate and every selector; a selector above 3 is no command. -/
def Obligations.ImmediateCommands : Prop :=
  (∀ (rd : Reg) (imm : BitVec 16) (s : State),
    CommandWrites (fmtI 0x09 rd 0 imm) (.ldi rd imm.toNat) s rd imm.toNat ∧
    CommandWrites (fmtI 0x0A rd 0 imm) (.ldis rd imm.toNat) s rd
      ((s.reg rd).toNat * 2 ^ 16 % 2 ^ 128 ||| imm.toNat)) ∧
  (∀ (rd : Reg) (s : State),
    CommandWrites (fmtI 0x0B rd 0 0) (.ldc rd .zero) s rd 0 ∧ CommandWrites (fmtI 0x0B rd 0 1) (.ldc rd .one) s rd 1 ∧
    CommandWrites (fmtI 0x0B rd 0 2) (.ldc rd .max) s rd (2 ^ 128 - 1) ∧
    CommandWrites (fmtI 0x0B rd 0 3) (.ldc rd .min) s rd 0) ∧
  ∀ (rd : Reg) (imm : BitVec 16), 3 < imm.toNat → decodeWord (fmtI 0x0B rd 0 imm) = .error .mustBeZero

/-- R82: what the assembler makes of the statements CLR, WIDEN, SQR, BR, LI64 and LI128, at any index and with any labels: the
commands of the expansion, all four or all eight of them whatever the value; and what those commands do. -/
def Obligations.PseudoInstructionsMeanWhatTheySay : Prop :=
  ∀ (labels : List (List Char × Nat)) (index : Nat),
    (∀ (rd rs : Reg) (s : State),
      commandsOf labels index (stmt "CLR" [.reg rd]) = some [.ldc rd .zero] ∧ LoadsValue [.ldc rd .zero] s rd 0 ∧
      commandsOf labels index (stmt "WIDEN" [.reg rd, .reg rs]) = some [.lo rd rs] ∧
      LoadsValue [.lo rd rs] s rd ((s.reg rs).toNat % 2 ^ 64) ∧
      commandsOf labels index (stmt "SQR" [.reg rd, .reg rs]) = some [.sqr64 rd rs]) ∧
    (∀ target, commandsOf labels index (stmt "BR" [target]) = commandsOf labels index (stmt "JMP" [target])) ∧
    (∀ name k, (labels.map Prod.fst).Nodup → (name, k) ∈ labels →
      commandsOf labels index (stmt "BR" [.name name]) = some [.jmp (labelOffset k index)]) ∧
    (∀ (rd : Reg) (v : Nat) (s : State), v < 2 ^ 64 →
      let is := [.ldi rd (v / 2 ^ 48 % 2 ^ 16), .ldis rd (v / 2 ^ 32 % 2 ^ 16), .ldis rd (v / 2 ^ 16 % 2 ^ 16),
        .ldis rd (v % 2 ^ 16)]
      commandsOf labels index (stmt "LI64" [.reg rd, .num v]) = some is ∧
        wordCount (stmt "LI64" [.reg rd, .num v]) = 4 ∧ LoadsValue is s rd v) ∧
    ∀ (rd : Reg) (v : Nat) (s : State), v < 2 ^ 128 →
      let is := [.ldi rd (v / 2 ^ 112 % 2 ^ 16), .ldis rd (v / 2 ^ 96 % 2 ^ 16), .ldis rd (v / 2 ^ 80 % 2 ^ 16),
        .ldis rd (v / 2 ^ 64 % 2 ^ 16), .ldis rd (v / 2 ^ 48 % 2 ^ 16), .ldis rd (v / 2 ^ 32 % 2 ^ 16),
        .ldis rd (v / 2 ^ 16 % 2 ^ 16), .ldis rd (v % 2 ^ 16)]
      commandsOf labels index (stmt "LI128" [.reg rd, .num v]) = some is ∧
        wordCount (stmt "LI128" [.reg rd, .num v]) = 8 ∧ LoadsValue is s rd v

/-- R120 to R125: the six compares, by the order of the integers that the registers hold. -/
def Obligations.CompareCommands : Prop :=
  ∀ (rd rs1 rs2 : Reg) (s : State),
    CommandWrites (fmtR 0x10 rd rs1 rs2 0) (.ceq rd rs1 rs2) s rd
      (if (s.reg rs1).toNat = (s.reg rs2).toNat then 1 else 0) ∧
    CommandWrites (fmtR 0x11 rd rs1 rs2 0) (.cne rd rs1 rs2) s rd
      (if (s.reg rs1).toNat = (s.reg rs2).toNat then 0 else 1) ∧
    CommandWrites (fmtR 0x12 rd rs1 rs2 0) (.clt rd rs1 rs2) s rd
      (if (s.reg rs1).toNat < (s.reg rs2).toNat then 1 else 0) ∧
    CommandWrites (fmtR 0x13 rd rs1 rs2 0) (.cle rd rs1 rs2) s rd
      (if (s.reg rs1).toNat ≤ (s.reg rs2).toNat then 1 else 0) ∧
    CommandWrites (fmtR 0x14 rd rs1 rs2 0) (.cgt rd rs1 rs2) s rd
      (if (s.reg rs1).toNat > (s.reg rs2).toNat then 1 else 0) ∧
    CommandWrites (fmtR 0x15 rd rs1 rs2 0) (.cge rd rs1 rs2) s rd
      (if (s.reg rs1).toNat ≥ (s.reg rs2).toNat then 1 else 0)

/-- R127 and R128: AND and OR, the same as on the 128-bit values. -/
def Obligations.AndOrCommands : Prop :=
  ∀ (rd rs1 rs2 : Reg) (s : State),
    CommandWrites (fmtR 0x18 rd rs1 rs2 0) (.and rd rs1 rs2) s rd ((s.reg rs1).toNat &&& (s.reg rs2).toNat) ∧
    CommandWrites (fmtR 0x19 rd rs1 rs2 0) (.or rd rs1 rs2) s rd ((s.reg rs1).toNat ||| (s.reg rs2).toNat)

/-- SHL, SHR, SHLI, SHRI by value: `wrap_128(v * 2^s)` and `v div 2^s`, which the spec derives from the four cases of R129 and
R130; the amount of SHL and SHR is the whole register; an amount of 128 or more is no SHLI or SHRI. -/
def Obligations.ShiftCommands : Prop :=
  (∀ (rd rs1 rs2 : Reg) (s : State),
    CommandWrites (fmtR 0x1C rd rs1 rs2 0) (.shl rd rs1 rs2) s rd
      ((s.reg rs1).toNat * 2 ^ (s.reg rs2).toNat % 2 ^ 128) ∧
    CommandWrites (fmtR 0x1D rd rs1 rs2 0) (.shr rd rs1 rs2) s rd ((s.reg rs1).toNat / 2 ^ (s.reg rs2).toNat)) ∧
  (∀ (rd rs1 : Reg) (k : BitVec 7) (s : State),
    CommandWrites (fmtI 0x1E rd rs1 (k.setWidth 16)) (.shli rd rs1 k.toNat) s rd
      ((s.reg rs1).toNat * 2 ^ k.toNat % 2 ^ 128) ∧
    CommandWrites (fmtI 0x1F rd rs1 (k.setWidth 16)) (.shri rd rs1 k.toNat) s rd ((s.reg rs1).toNat / 2 ^ k.toNat)) ∧
  ∀ (rd rs1 : Reg) (imm : BitVec 16), 127 < imm.toNat →
    decodeWord (fmtI 0x1E rd rs1 imm) = .error .mustBeZero ∧ decodeWord (fmtI 0x1F rd rs1 imm) = .error .mustBeZero

/-! ## Arithmetic -/

/-- ADD, SUB and MUL by value: `wrap_128` of the sum, the difference and the product, which the spec derives from the pseudocode
of R140, R142 and R154. -/
def Obligations.WrappingArithmetic : Prop :=
  ∀ (rd rs1 rs2 : Reg) (s : State),
    CommandWrites (fmtR 0x20 rd rs1 rs2 0) (.add rd rs1 rs2) s rd
      (((s.reg rs1).toNat + (s.reg rs2).toNat) % 2 ^ 128) ∧
    CommandWrites (fmtR 0x21 rd rs1 rs2 0) (.sub rd rs1 rs2) s rd
      ((((s.reg rs1).toNat : Int) - (s.reg rs2).toNat) % 2 ^ 128).toNat ∧
    CommandWrites (fmtR 0x2A rd rs1 rs2 0) (.mul rd rs1 rs2) s rd
      ((s.reg rs1).toNat * (s.reg rs2).toNat % 2 ^ 128)

/-- R151 and R153: MUL64 and SQR64 give the full product of the low limbs. -/
def Obligations.FullProducts : Prop :=
  ∀ (rd rs1 rs2 : Reg) (s : State),
    CommandWrites (fmtR 0x28 rd rs1 rs2 0) (.mul64 rd rs1 rs2) s rd
      ((s.reg rs1).toNat % 2 ^ 64 * ((s.reg rs2).toNat % 2 ^ 64)) ∧
    CommandWrites (fmtR 0x29 rd rs1 0 0) (.sqr64 rd rs1) s rd
      ((s.reg rs1).toNat % 2 ^ 64 * ((s.reg rs1).toNat % 2 ^ 64))

/-- R166 to R168: on a non-zero divisor, DIV, MOD and DIVREM write the one pair with `a = b * q + r` and `r < b`; on a zero
divisor each of them faults and writes nothing. -/
def Obligations.DivideCommands : Prop :=
  ∀ (rd rd2 rs1 rs2 : Reg) (s : State),
    ((s.reg rs2).toNat ≠ 0 → ∃ q r, (s.reg rs1).toNat = (s.reg rs2).toNat * q + r ∧ r < (s.reg rs2).toNat ∧
      CommandWrites (fmtR 0x30 rd rs1 rs2 0) (.div rd rs1 rs2) s rd q ∧
      CommandWrites (fmtR 0x31 rd rs1 rs2 0) (.mod rd rs1 rs2) s rd r ∧
      decodeWord (fmtR 0x32 rd rs1 rs2 rd2) = .ok (.divrem rd rd2 rs1 rs2) ∧
      ∃ t, exec (.divrem rd rd2 rs1 rs2) s = .next t ∧ WritesTwoRegisters s t rd rd2 q r) ∧
    ((s.reg rs2).toNat = 0 →
      CommandDivZero (fmtR 0x30 rd rs1 rs2 0) (.div rd rs1 rs2) s ∧
      CommandDivZero (fmtR 0x31 rd rs1 rs2 0) (.mod rd rs1 rs2) s ∧
      CommandDivZero (fmtR 0x32 rd rs1 rs2 rd2) (.divrem rd rd2 rs1 rs2) s)

/-- The division identity in the engine's own commands, and which of quotient and remainder are narrow (R176, which the spec
derives from R165). -/
def Obligations.DivisionIdentityInCommands : Prop :=
  ∀ (ra rb rq rr rt : Reg) (s : State), [ra, rb, rq, rr, rt].Nodup → s.reg rb ≠ 0 →
    ∃ t, execAll [.divrem rq rr ra rb, .mul rt rb rq, .add rt rt rr] s = .next t ∧
      t.reg rt = s.reg ra ∧ (t.reg rr).toNat < (s.reg rb).toNat ∧
      ((s.reg rb).toNat < 2 ^ 64 → (t.reg rr).toNat < 2 ^ 64) ∧
      (2 ^ 64 ≤ (s.reg rb).toNat → (t.reg rq).toNat < 2 ^ 64)

/-- R191 with R190: MULMOD gives `(a * b) mod m` of the low limbs, with the exact product, and 0 for `m = 0`. -/
def Obligations.MulmodCommand : Prop :=
  ∀ (rd rs1 rs2 rs3 : Reg) (s : State),
    CommandWrites (fmtR 0x39 rd rs1 rs2 rs3) (.mulmod rd rs1 rs2 rs3) s rd
      (if (s.reg rs3).toNat % 2 ^ 64 = 0 then 0
        else (s.reg rs1).toNat % 2 ^ 64 * ((s.reg rs2).toNat % 2 ^ 64) % ((s.reg rs3).toNat % 2 ^ 64))

/-- R194: ABSU gives the magnitude of the low `w` bits read as a signed number, at each of the four widths, the signed minimum
included; a width selector above 3 is no command. -/
def Obligations.AbsuCommand : Prop :=
  (∀ (rd rs1 : Reg) (s : State),
    CommandWrites (fmtI 0x38 rd rs1 0) (.absu rd rs1 .w8) s rd (BitVec.ofNat 8 (s.reg rs1).toNat).toInt.natAbs ∧
    CommandWrites (fmtI 0x38 rd rs1 1) (.absu rd rs1 .w16) s rd (BitVec.ofNat 16 (s.reg rs1).toNat).toInt.natAbs ∧
    CommandWrites (fmtI 0x38 rd rs1 2) (.absu rd rs1 .w32) s rd (BitVec.ofNat 32 (s.reg rs1).toNat).toInt.natAbs ∧
    CommandWrites (fmtI 0x38 rd rs1 3) (.absu rd rs1 .w64) s rd (BitVec.ofNat 64 (s.reg rs1).toNat).toInt.natAbs) ∧
  ∀ (rd rs1 : Reg) (imm : BitVec 16), 3 < imm.toNat → decodeWord (fmtI 0x38 rd rs1 imm) = .error .mustBeZero

/-- R196 with the values R195 gives: MODPOW is 0 for `m = 0`, 1 for `e = 0` and another `m` (also for `m = 1`), and
`(b^e) mod m` otherwise. -/
def Obligations.ModpowCommand : Prop :=
  ∀ (rd rs1 rs2 rs3 : Reg) (s : State),
    CommandWrites (fmtR 0x3A rd rs1 rs2 rs3) (.modpow rd rs1 rs2 rs3) s rd
      (if (s.reg rs3).toNat % 2 ^ 64 = 0 then 0
        else if (s.reg rs2).toNat % 2 ^ 64 = 0 then 1
        else ((s.reg rs1).toNat % 2 ^ 64) ^ ((s.reg rs2).toNat % 2 ^ 64) % ((s.reg rs3).toNat % 2 ^ 64))

/-- GCD gives the greatest common divisor, 0 for two zeros, which the spec derives from the loop of R210. -/
def Obligations.GcdCommand : Prop :=
  ∀ (rd rs1 rs2 : Reg) (s : State),
    CommandWrites (fmtR 0x40 rd rs1 rs2 0) (.gcd rd rs1 rs2) s rd (Nat.gcd (s.reg rs1).toNat (s.reg rs2).toNat)

/-- ISCOPRIME gives 1 exactly when the greatest common divisor is 1: the even/even shortcut of R212 never changes the answer, as
the spec derives. -/
def Obligations.IscoprimeCommand : Prop :=
  ∀ (rd rs1 rs2 : Reg) (s : State),
    CommandWrites (fmtR 0x41 rd rs1 rs2 0) (.iscoprime rd rs1 rs2) s rd
      (if Nat.gcd (s.reg rs1).toNat (s.reg rs2).toNat = 1 then 1 else 0)

/-! ## Primes -/

/-- ISPRIME with the engine's own table, as far as no property of that table is needed: the result is 1 or 0, it is 1 for every
prime, and it is 0 for every number that is not prime and is below TRIAL_LIMIT or has a prime factor up to 149 (R221, R226). -/
def Obligations.IsprimeCommand : Prop :=
  ∀ (rd rs1 : Reg) (s : State), ∃ v ≤ 1, CommandWrites (fmtR 0x42 rd rs1 0 0) (.isprime rd rs1) s rd v ∧
    (((s.reg rs1).toNat % 2 ^ 64).Prime → v = 1) ∧
    (¬ ((s.reg rs1).toNat % 2 ^ 64).Prime →
      ((s.reg rs1).toNat % 2 ^ 64 < 1000000 ∨ ∃ p ≤ 149, p.Prime ∧ p ∣ (s.reg rs1).toNat % 2 ^ 64) → v = 0)

/-- For every witness table with the property of R222, the pipeline of R221 decides primality of every 64-bit value, as R220's
contract asks (R222 marks the inference as derived). The command is that pipeline with the engine's table (R226), which in the model
is the default of R223, a table the spec itself marks as general knowledge (PRESUMED, log 7). -/
def Obligations.IsPrimeMeetsItsContract : Prop :=
  (∀ table : WitnessTable, WitnessTableSuffices table → ∀ v : Word64, isPrime64With table v = true ↔ v.toNat.Prime) ∧
  ∀ (rd rs1 : Reg) (s : State), ∃ t, exec (.isprime rd rs1) s = .next t ∧
    (t.reg rd).toNat = if isPrime64With witnessTable ((s.reg rs1).setWidth 64) then 1 else 0

/-- R224: SMALL_PRIMES holds the odd primes up to 149, in ascending order, 34 of them. -/
def Obligations.SmallPrimesAreTheOddPrimes : Prop :=
  (∀ p, p ∈ smallPrimes ↔ p.Prime ∧ p ≠ 2 ∧ p ≤ 149) ∧ smallPrimes.Pairwise (· < ·) ∧ smallPrimes.length = 34

/-! ## State transitions, invariants, reset -/

/-- R29: the run state changes by nothing but START, HALT, a fault, CLEAR, SRST and reset (CLEAR and START in one write lead
through IDLE to RUN, R32). -/
def Obligations.RunStateTransitions : Prop :=
  ∀ (s : State) (e : HostEvent), (applyEvent e s).runState ≠ s.runState →
    match s.runState, (applyEvent e s).runState with
    | .idle, .run => ∃ w, e = .write ctrlAddr 4 w ∧ w.getLsbD 0 = true ∧ w.getLsbD 2 = false
    | .run, .done => e = .command ∧ fetchNext s = .command .halt
    | .run, .fault => e = .command ∧ ∃ c w, FaultEntered c w s (applyEvent e s)
    | .done, .run | .fault, .run =>
      ∃ w, e = .write ctrlAddr 4 w ∧ w.getLsbD 0 = true ∧ w.getLsbD 1 = true ∧ w.getLsbD 2 = false
    | .done, .idle | .fault, .idle =>
      e = .reset ∨ ∃ w, e = .write ctrlAddr 4 w ∧ (w.getLsbD 1 = true ∨ w.getLsbD 2 = true)
    | .run, .idle => e = .reset ∨ ∃ w, e = .write ctrlAddr 4 w ∧ w.getLsbD 2 = true
    | _, _ => False

/-- The invariant holds at reset (R44; the canonical form of the empty command buffer is the model's, log 2). -/
def Obligations.InvariantHoldsAtReset : Prop := StateInv State.reset ∧ ∀ s, StateInv (hardwareReset s)

/-- Every step keeps the invariant: the fault registers describe the fault that caused the present FAULT state, or are 0 (R288),
and the command buffer keeps its canonical form (log 2). -/
def Obligations.StepKeepsInvariant : Prop :=
  ∀ s t : State, StateInv s → step s = .next t → StateInv t

/-- Every execution keeps the invariant: commands, host reads and writes, taken and refused, and resets, in any order (R61,
R288; log 2). -/
def Obligations.ExecutionsKeepInvariant : Prop :=
  ∀ (es : List HostEvent) (s : State), StateInv s → StateInv (applyEvents es s)

/-- What the host finds at the end of a run (R319, which the spec derives). -/
def Obligations.EndOfARun : Prop :=
  ∀ s t : State, StateInv s → s.runState = .run → step s = .next t → t.runState ≠ .run →
    (t.runState = .done ∧ t.pc.toNat = (s.pc.toNat + 1) % 65536 ∧ t.fcause = .noFault ∧ t.fpc = 0 ∧ t.fcmd = 0) ∨
    (t.runState = .fault ∧ t.pc = t.fpc ∧ t.fpc = s.pc ∧ t.fcause ≠ .noFault)

/-- R311: a hardware reset from any state, and the state after reset: everything at its reset value, ID readable, and the
sequencer waiting in IDLE. Nothing is claimed of CMDBUF. -/
def Obligations.HardwareResetState : Prop :=
  ∀ t : State, (t = State.reset ∨ ∃ s, t = hardwareReset s) →
    (∀ r, t.reg r = 0) ∧ t.pc = 0 ∧ t.runState = .idle ∧ t.ie = 0 ∧ t.fcause = .noFault ∧ t.fpc = 0 ∧ t.fcmd = 0 ∧
    t.ip = 0 ∧ t.irq = false ∧ hostRead (windowAddr 0) 4 t = .next 0x55313238#32 ∧ step t = .next t

/-- R312: a write of CTRL with SRST, with any other bits and in any state, resets everything but CMDBUF. -/
def Obligations.SoftResetKeepsTheCommands : Prop :=
  ∀ (s : State) (w : Word32), w.getLsbD 2 = true → ∃ t, hostWrite ctrlAddr 4 w s = .next t ∧
    (∀ r, t.reg r = 0) ∧ t.pc = 0 ∧ t.runState = .idle ∧ t.ie = 0 ∧ t.fcause = .noFault ∧ t.fpc = 0 ∧ t.fcmd = 0 ∧
    ∀ off, t.byteAt off = s.byteAt off

/-! ## The host window -/

/-- Register words through the window (R51, R53 a, R54, R55): a write while STATE is not RUN replaces one word of one register, a
write while RUN changes nothing, and a read returns the word in every state. -/
def Obligations.RegisterWords : Prop :=
  (∀ (s : State) (r : Reg) (j : Fin 4) (w : Word32), s.runState ≠ .run →
    ∃ t, hostWrite (regAddr r j) 4 w s = .next t ∧
      (∀ k, k < 4 → wordAt (t.reg r) k = if k = j.val then w.toNat else wordAt (s.reg r) k) ∧
      (∀ r', r' ≠ r → t.reg r' = s.reg r') ∧ t.pc = s.pc ∧ KeepsControl s t) ∧
  (∀ (s : State) (r : Reg) (j : Fin 4) (w : Word32), s.runState = .run → hostWrite (regAddr r j) 4 w s = .next s) ∧
  ∀ (s : State) (r : Reg) (j : Fin 4), ∃ w, hostRead (regAddr r j) 4 s = .next w ∧ w.toNat = wordAt (s.reg r) j.val

/-- Four word writes, in any order, build a register's value, and four reads return it (R57). -/
def Obligations.FourWordWritesBuildAValue : Prop :=
  ∀ (s : State) (r : Reg) (v : Word128) (order : List (Fin 4)), s.runState ≠ .run → order.Perm [0, 1, 2, 3] →
    (applyEvents (order.map fun j => .write (regAddr r j) 4 (BitVec.ofNat 32 (wordAt v j.val))) s).reg r = v ∧
    ∀ j, replyTo (.read (regAddr r j) 4)
      (applyEvents (order.map fun j => .write (regAddr r j) 4 (BitVec.ofNat 32 (wordAt v j.val))) s) =
        .data (BitVec.ofNat 32 (wordAt v j.val))

/-- R52 and R58: the host writes command words while STATE is not RUN, reads them back in every state, and the fetch finds the
word the host sees; a write while RUN changes nothing. -/
def Obligations.CommandBufferWords : Prop :=
  (∀ (s : State) (k : Fin 256) (w : Word32), s.runState ≠ .run →
    ∃ t, hostWrite (cmdAddr k) 4 w s = .next t ∧ hostRead (cmdAddr k) 4 t = .next w ∧
      (∀ k', k' ≠ k → hostRead (cmdAddr k') 4 t = hostRead (cmdAddr k') 4 s) ∧
      (∀ r, t.reg r = s.reg r) ∧ t.pc = s.pc ∧ t.runState = s.runState ∧ t.ie = s.ie ∧ t.fcause = s.fcause ∧
      t.fpc = s.fpc ∧ t.fcmd = s.fcmd) ∧
  (∀ (s : State) (k : Fin 256) (w : Word32), s.runState = .run → hostWrite (cmdAddr k) 4 w s = .next s) ∧
  (∀ (s : State) (k : Fin 256), hostRead (cmdAddr k) 4 s = .next (s.cmdWord k.val)) ∧
  (∀ (s : State) (k : Fin 256), s.pc.toNat = k.val → ∃ w, hostRead (cmdAddr k) 4 s = .next w ∧
    fetchNext s = match decodeWord w with
      | .ok i => .command i
      | .error _ => .illegal w) ∧
  ∀ s : State, 256 ≤ s.pc.toNat → fetchNext s = .outOfRange

/-- R320: what each host write does in each state. Of the reads: every aligned one returns a value, and CTRL and the reserved
offsets read 0 (R32, R51). -/
def Obligations.HostProtocolTable : Prop :=
  ∀ (s : State) (w : Word32),
    (∀ r j, ∃ t, hostWrite (regAddr r j) 4 w s = .next t ∧
      if s.runState = .run then t = s else wordAt (t.reg r) j.val = w.toNat) ∧
    (∀ k, ∃ t, hostWrite (cmdAddr k) 4 w s = .next t ∧
      if s.runState = .run then t = s else hostRead (cmdAddr k) 4 t = .next w) ∧
    (∃ t, hostWrite (windowAddr 0x00C) 4 w s = .next t ∧
      if s.runState = .run then t = s else t.pc.toNat = w.toNat % 65536) ∧
    (∃ t, hostWrite (windowAddr 0x010) 4 w s = .next t ∧ t.ie.toNat = w.toNat % 4) ∧
    (w.getLsbD 0 = true → w.getLsbD 1 = false → w.getLsbD 2 = false →
      hostWrite ctrlAddr 4 w s = .next (if s.runState = .idle then { s with runState := .run } else s)) ∧
    (w.getLsbD 0 = false → w.getLsbD 1 = true → w.getLsbD 2 = false →
      hostWrite ctrlAddr 4 w s = .next (if s.runState = .done ∨ s.runState = .fault
        then { s with runState := .idle, fcause := .noFault, fpc := 0, fcmd := 0 } else s)) ∧
    (w.getLsbD 0 = true → w.getLsbD 1 = true → w.getLsbD 2 = false →
      hostWrite ctrlAddr 4 w s = .next (match s.runState with
        | .idle => { s with runState := .run }
        | .run => s
        | .done | .fault => { s with runState := .run, fcause := .noFault, fpc := 0, fcmd := 0 })) ∧
    (w.getLsbD 2 = true → hostWrite ctrlAddr 4 w s = .next (softReset s)) ∧
    (∀ off, off % 4 = 0 → off ∈ [0x000, 0x008, 0x014, 0x018, 0x01C, 0x020] ∨ 0x024 ≤ off ∧ off < 0x100 ∨
      0x200 ≤ off ∧ off < 0x400 → hostWrite (windowAddr off) 4 w s = .next s) ∧
    (∀ off, off % 4 = 0 → off < 0x800 → ∃ v, hostRead (windowAddr off) 4 s = .next v) ∧
    hostRead ctrlAddr 4 s = .next 0 ∧
    ∀ off, off % 4 = 0 → 0x024 ≤ off ∧ off < 0x100 ∨ 0x200 ≤ off ∧ off < 0x400 → hostRead (windowAddr off) 4 s = .next 0

/-- Exactly the aligned four-byte accesses inside the window are taken; any other gets the bus error and changes nothing (R56,
whose `0x7FFF` is read as the `0x7FF` of R51: log 10; the error carries no data: log 11). -/
def Obligations.RefusedAccessesGetTheBusError : Prop :=
  ∀ (s : State) (addr size : Nat) (w : Word32),
    if size = 4 ∧ addr % 4 = 0 ∧ windowAddr 0 ≤ addr ∧ addr < windowAddr 0x800 then
      (∃ v, hostRead addr size s = .next v) ∧ ∃ t, hostWrite addr size w s = .next t
    else
      hostRead addr size s = .fault .busError ∧ hostWrite addr size w s = .fault .busError ∧
      replyTo (.read addr size) s = .busError ∧ replyTo (.write addr size w) s = .busError ∧
      applyEvent (.write addr size w) s = s

/-- R31, R33 and R36: what ID, STATUS and IP read, and that writing them changes nothing. -/
def Obligations.ReadOnlyRegisters : Prop :=
  ∀ (s : State) (w : Word32),
    hostRead (windowAddr 0x000) 4 s = .next 0x55313238#32 ∧
    hostRead (windowAddr 0x008) 4 s = .next (match s.runState with
      | .idle => 0
      | .run => 1
      | .done => 2
      | .fault => 3) ∧
    hostRead (windowAddr 0x014) 4 s = .next (match s.runState with
      | .done => 1
      | .fault => 2
      | .idle | .run => 0) ∧
    (∀ off ∈ [0x000, 0x008, 0x014], hostWrite (windowAddr off) 4 w s = .next s) ∧
    (s.irq = true ↔ s.ie &&& s.ip ≠ 0)

/-- R34 and R35: PC is read in every state and written outside RUN, and a written value of 256 or more makes the next run fault at
its first fetch; IE is read and written in every state, in two bits. -/
def Obligations.PcAndIeRegisters : Prop :=
  (∀ s : State, (∃ v, hostRead (windowAddr 0x00C) 4 s = .next v ∧ v.toNat = s.pc.toNat) ∧
    ∃ v, hostRead (windowAddr 0x010) 4 s = .next v ∧ v.toNat = s.ie.toNat) ∧
  (∀ (s : State) (w : Word32), s.runState ≠ .run → ∃ t, hostWrite (windowAddr 0x00C) 4 w s = .next t ∧
    t.pc.toNat = w.toNat % 65536 ∧ (∀ r, t.reg r = s.reg r) ∧ KeepsControl s t) ∧
  (∀ (s : State) (w : Word32), s.runState = .run → hostWrite (windowAddr 0x00C) 4 w s = .next s) ∧
  (∀ (s : State) (w : Word32), s.runState = .idle → 256 ≤ w.toNat % 65536 → ∃ t u,
    applyEvents [.write (windowAddr 0x00C) 4 w, .write ctrlAddr 4 1] s = t ∧ step t = .next u ∧
    FaultEntered .fetchrange 0 t u ∧ u.fpc.toNat = w.toNat % 65536) ∧
  ∀ (s : State) (w : Word32), ∃ t, hostWrite (windowAddr 0x010) 4 w s = .next t ∧ t.ie.toNat = w.toNat % 4 ∧
    t.pc = s.pc ∧ (∀ r, t.reg r = s.reg r) ∧ t.runState = s.runState ∧ t.fcause = s.fcause ∧ t.fpc = s.fpc ∧
    t.fcmd = s.fcmd ∧ (∀ off, t.byteAt off = s.byteAt off) ∧
    (t.irq = true ↔ t.ie.getLsbD 0 = true ∧ s.runState = .done ∨ t.ie.getLsbD 1 = true ∧ s.runState = .fault)

/-- The fault registers (R37): what they read, that the host cannot write them, and that nothing writes them but a command that
faults, or a CTRL write with CLEAR or SRST or a reset, which clear all three. -/
def Obligations.FaultRegisters : Prop :=
  (∀ s : State,
    (∃ v, hostRead (windowAddr 0x018) 4 s = .next v ∧ v = match s.fcause with
      | .noFault => 0
      | .divzero => 1
      | .illegal => 2
      | .fetchrange => 3) ∧
    (∃ v, hostRead (windowAddr 0x01C) 4 s = .next v ∧ v.toNat = s.fpc.toNat) ∧
    hostRead (windowAddr 0x020) 4 s = .next s.fcmd) ∧
  (∀ (s : State) (w : Word32), ∀ off ∈ [0x018, 0x01C, 0x020], hostWrite (windowAddr off) 4 w s = .next s) ∧
  ∀ (s : State) (e : HostEvent),
    ((applyEvent e s).fcause = s.fcause ∧ (applyEvent e s).fpc = s.fpc ∧ (applyEvent e s).fcmd = s.fcmd) ∨
    ((e = .reset ∨ ∃ w, e = .write ctrlAddr 4 w ∧ (w.getLsbD 1 = true ∨ w.getLsbD 2 = true)) ∧
      (applyEvent e s).fcause = .noFault ∧ (applyEvent e s).fpc = 0 ∧ (applyEvent e s).fcmd = 0) ∨
    (e = .command ∧ s.runState = .run ∧ ∃ c w, FaultEntered c w s (applyEvent e s))

/-- R289: `irq` is a level, 1 exactly when an enabled source is pending, and the two sources are never pending together. -/
def Obligations.InterruptLevel : Prop :=
  ∀ s : State,
    (s.irq = true ↔ s.ie &&& s.ip ≠ 0) ∧
    (s.irq = true ↔ s.ie.getLsbD 0 = true ∧ s.runState = .done ∨ s.ie.getLsbD 1 = true ∧ s.runState = .fault) ∧
    ¬ (s.ip.getLsbD 0 = true ∧ s.ip.getLsbD 1 = true)

/-! ## The datapaths that cannot be observed -/

/-- R14 and R15: the ROM holds the position of the most significant set bit of every byte, and the bit-position helpers built on
it give the positions they are named for. -/
def Obligations.BitPositionHelpers : Prop :=
  (msbPos256 0 = 8 ∧ ∀ b : Byte, b ≠ 0 → msbPos256 b = Nat.log2 b.toNat) ∧
  (highBitPosition64 0 = 64 ∧ ∀ v : Word64, v ≠ 0 →
    highBitPosition64 v = Nat.log2 v.toNat ∧ leadingZeros64 v = 63 - Nat.log2 v.toNat) ∧
  (highBitPosition128 0 = 128 ∧ ∀ v : Word128, v ≠ 0 → highBitPosition128 v = Nat.log2 v.toNat) ∧
  (∀ v : Word64, v ≠ 0 → v.getLsbD (trailingZeros64 v) = true ∧ ∀ k, k < trailingZeros64 v → v.getLsbD k = false) ∧
  ∀ v : Word128, v ≠ 0 → (isPow2 v = true ↔ ∃ k, v.toNat = 2 ^ k)

/-- The divider's primitive is exact: for `v != 0` and `u1 < v`, its quotient and remainder satisfy the division identity of
`u1 * 2^64 + u0` by `v` (R172, whose listing the spec marks as general knowledge; log 13). -/
def Obligations.DivUncheckedIsExact : Prop :=
  ∀ u1 u0 v : Word64, v ≠ 0 → u1 < v →
    u1.toNat * 2 ^ 64 + u0.toNat = v.toNat * (divUnchecked u1 u0 v).1.toNat + (divUnchecked u1 u0 v).2.toNat ∧
      (divUnchecked u1 u0 v).2.toNat < v.toNat

/-- The reference datapath, Algorithm D on 32-bit digits, computes the quotient and the remainder for every dividend and every
divisor (R175, whose listing the spec marks as general knowledge; log 13). -/
def Obligations.KnuthDivideIsExact : Prop :=
  ∀ a d : Nat, a < 2 ^ 128 → 0 < d → d < 2 ^ 128 → knuthDivide a d = (a / d, a % d)

/-- Whatever route the divider takes but that of R174, the pair is that of the divide commands (R170, R171, R173, R175). The route
of R174 is left out, as the spec says that it cannot be reproduced (log 13). -/
def Obligations.DividerRoutesAgree : Prop :=
  ∀ a b : Word128, b ≠ 0 → dividerRoute a b = divMod a b

/-- The Russian-peasant datapath computes the same function as the multiply-and-divide one, and never leaves 64 bits (R192; log 13). -/
def Obligations.RussianPeasantIsMulMod : Prop :=
  ∀ a b m : Word64, mulModPeasant a b m = mulMod64 a b m ∧
    (m ≠ 0 → (mulModPeasant a b m).toNat = a.toNat * b.toNat % m.toNat)

/-! ## Assembler text -/

/-- The assembler reads the text it spells: a program of well-formed commands, written one a line with its mnemonics, registers,
numbers and selectors, is read as those commands, in their order (R81; names, blanks and signed offsets as in log 20). -/
def Obligations.AssemblerReadsProgramText : Prop :=
  ∀ is : List Instr, (∀ i ∈ is, i.wellFormed = true) → assemble (programText is) = some is
end

