-- ==== Sys2Proof/Laws/Operands.lean ====
section
/-! SUPPORT. The limbs, digits and truth values of Machine/Operands.lean and Machine/Flags.lean as numbers (00_scope.md R7, R9). -/

namespace Sys2Proof.Machine

theorem lo64_toNat (v : Word128) : (lo64 v).toNat = v.toNat % 2 ^ 64 := by
  simp [lo64, BitVec.extractLsb'_toNat]

theorem hi64_toNat (v : Word128) : (hi64 v).toNat = v.toNat / 2 ^ 64 := by
  have := v.isLt
  simp only [hi64, BitVec.extractLsb'_toNat, Nat.shiftRight_eq_div_pow]
  omega

theorem u128_toNat (h l : Word64) : (u128 h l).toNat = h.toNat * 2 ^ 64 + l.toNat := by
  have := l.isLt
  simp only [u128, BitVec.toNat_append]
  rw [← Nat.shiftLeft_add_eq_or_of_lt (by omega), Nat.shiftLeft_eq]

theorem widen_toNat (v : Word64) : (widen v).toNat = v.toNat := by simp [widen, u128_toNat]

/-- A value is made of its limbs (R9, R20). -/
theorem toNat_eq_limbs (v : Word128) : v.toNat = (hi64 v).toNat * 2 ^ 64 + (lo64 v).toNat := by
  rw [hi64_toNat, lo64_toNat]
  omega

@[simp] theorem u128_hi64_lo64 (v : Word128) : u128 (hi64 v) (lo64 v) = v := by
  apply BitVec.eq_of_toNat_eq
  rw [u128_toNat, ← toNat_eq_limbs]

@[simp] theorem hi64_u128 (h l : Word64) : hi64 (u128 h l) = h := by
  apply BitVec.eq_of_toNat_eq
  have := l.isLt
  rw [hi64_toNat, u128_toNat]
  omega

@[simp] theorem lo64_u128 (h l : Word64) : lo64 (u128 h l) = l := by
  apply BitVec.eq_of_toNat_eq
  have := l.isLt
  rw [lo64_toNat, u128_toNat]
  omega

@[simp] theorem lo64_widen (v : Word64) : lo64 (widen v) = v := lo64_u128 _ _

/-- Two values with equal limbs are equal (R21). -/
theorem ext_limbs {a b : Word128} (hh : hi64 a = hi64 b) (hl : lo64 a = lo64 b) : a = b := by
  rw [← u128_hi64_lo64 a, ← u128_hi64_lo64 b, hh, hl]

theorem hiDigit_toNat (w : Word64) : (hiDigit w).toNat = w.toNat / 2 ^ 32 := by
  simp [hiDigit, Nat.shiftRight_eq_div_pow]

theorem loDigit_toNat (w : Word64) : (loDigit w).toNat = w.toNat % 2 ^ 32 := by
  have : (0xFFFFFFFF#64).toNat = 2 ^ 32 - 1 := by decide
  rw [loDigit, BitVec.toNat_and, this, Nat.and_two_pow_sub_one_eq_mod]

theorem carryOut_toNat (l a : Word64) : (carryOut l a).toNat = if l.toNat < a.toNat then 1 else 0 := by
  simp only [carryOut, BitVec.lt_def]
  split_ifs <;> rfl

theorem borrowOut_toNat (a b : Word64) : (borrowOut a b).toNat = if a.toNat < b.toNat then 1 else 0 := by
  simp only [borrowOut, BitVec.lt_def]
  split_ifs <;> rfl

theorem boolWord_toNat (p : Bool) : (boolWord p).toNat = if p then 1 else 0 := by cases p <;> rfl

end Sys2Proof.Machine
end

