-- ==== Sys2Proof/Laws/Arith.lean ====
section
/-! SUPPORT. One lemma for each shared arithmetic operation: what it computes, as a number or as one 128-bit operation. -/

namespace Sys2Proof.Machine

/-- `Add128(a, b) = wrap_128(a + b)` (R140). -/
theorem add128_eq (a b : Word128) : add128 a b = a + b := by
  apply BitVec.eq_of_toNat_eq
  have ha := a.isLt
  have hb := b.isLt
  simp only [add128, u128_toNat, BitVec.toNat_add, carryOut_toNat, lo64_toNat, hi64_toNat]
  split_ifs <;> omega

/-- `Sub128(a, b) = wrap_128(a - b)` (R142). -/
theorem sub128_eq (a b : Word128) : sub128 a b = a - b := by
  apply BitVec.eq_of_toNat_eq
  have ha := a.isLt
  have hb := b.isLt
  simp only [sub128, u128_toNat, BitVec.toNat_sub, borrowOut_toNat, lo64_toNat, hi64_toNat]
  split_ifs <;> omega

/-- AND is the 128-bit AND (R127). -/
theorem and128_eq (a b : Word128) : and128 a b = a &&& b := by
  refine ext_limbs ?_ ?_ <;> simp [and128] <;> ext i hi <;> simp [hi64, lo64]

/-- OR is the 128-bit OR (R128). -/
theorem or128_eq (a b : Word128) : or128 a b = a ||| b := by
  refine ext_limbs ?_ ?_ <;> simp [or128] <;> ext i hi <;> simp [hi64, lo64]

/-- Structural equality is equality (R21). -/
theorem eq128_iff (a b : Word128) : eq128 a b = true ↔ a = b := by
  simp only [eq128, Bool.and_eq_true, beq_iff_eq]
  exact ⟨fun h => ext_limbs h.1 h.2, fun h => h ▸ ⟨rfl, rfl⟩⟩

/-- The lexicographic order is the order of the integers (R21, R122). -/
theorem lt128_iff (a b : Word128) : lt128 a b = true ↔ a.toNat < b.toNat := by
  have ha := (lo64 a).isLt
  have hb := (lo64 b).isLt
  simp only [lt128, Bool.or_eq_true, Bool.and_eq_true, decide_eq_true_eq, beq_iff_eq, BitVec.lt_def,
    BitVec.toNat_eq (x := hi64 a), toNat_eq_limbs a, toNat_eq_limbs b]
  omega

/-- `ShiftLeft(v, s) = wrap_128(v * 2^s)` for every `s` (R129). -/
theorem shiftLeft_eq (v : Word128) (s : Nat) : shiftLeft v s = v <<< s := by
  unfold shiftLeft
  split_ifs with h0 h1 h2
  · simp [h0]
  · refine ext_limbs ?_ ?_ <;> simp only [hi64_u128, lo64_u128] <;> ext i hi <;> simp [hi64, lo64] <;> grind
  · refine ext_limbs ?_ ?_ <;> simp only [hi64_u128, lo64_u128] <;> ext i hi <;> simp [hi64, lo64] <;> grind
  · ext i hi
    simp
    omega

/-- `ShiftRight(v, s) = v div 2^s` for every `s` (R130). -/
theorem shiftRight_eq (v : Word128) (s : Nat) : shiftRight v s = v >>> s := by
  unfold shiftRight
  split_ifs with h0 h1 h2
  · simp [h0]
  · refine ext_limbs ?_ ?_ <;> simp only [hi64_u128, lo64_u128] <;> ext i hi <;> simp [hi64, lo64] <;> grind
  · refine ext_limbs ?_ ?_ <;> simp only [hi64_u128, lo64_u128] <;> ext i hi <;> simp [hi64, lo64] <;> grind
  · ext i hi
    simp
    exact BitVec.getLsbD_of_ge _ _ (by omega)

/-- The sums of R150 on partial products below `(2^32 - 1)^2`: no carry is lost. -/
theorem combineProducts_toNat (ll c c' hh : Word64) (hll : ll.toNat ≤ (2 ^ 32 - 1) ^ 2) (hc : c.toNat ≤ (2 ^ 32 - 1) ^ 2)
    (hc' : c'.toNat ≤ (2 ^ 32 - 1) ^ 2) (hhh : hh.toNat ≤ (2 ^ 32 - 1) ^ 2)
    (hsum : hh.toNat * 2 ^ 64 + (c.toNat + c'.toNat) * 2 ^ 32 + ll.toNat < 2 ^ 128) :
    (combineProducts ll c (c + c') hh).toNat = hh.toNat * 2 ^ 64 + (c.toNat + c'.toNat) * 2 ^ 32 + ll.toNat := by
  simp only [combineProducts, u128_toNat, BitVec.toNat_add, BitVec.toNat_shiftLeft, BitVec.toNat_ushiftRight,
    carryOut_toNat, Nat.shiftLeft_eq, Nat.shiftRight_eq_div_pow]
  split_ifs <;> omega

theorem digit_mul_le {a b : Nat} (ha : a < 2 ^ 32) (hb : b < 2 ^ 32) : a * b ≤ (2 ^ 32 - 1) ^ 2 := by
  rw [sq]
  exact Nat.mul_le_mul (by omega) (by omega)

theorem loDigit_lt (w : Word64) : (loDigit w).toNat < 2 ^ 32 := by
  rw [loDigit_toNat]
  omega

theorem hiDigit_lt (w : Word64) : (hiDigit w).toNat < 2 ^ 32 := by
  have := w.isLt
  rw [hiDigit_toNat]
  omega

/-- A product of two digits fits in a limb (R150: "each < 2^64"). -/
theorem digit_mul_toNat {a b : Word64} (ha : a.toNat < 2 ^ 32) (hb : b.toNat < 2 ^ 32) :
    (a * b).toNat = a.toNat * b.toNat := by
  have := digit_mul_le ha hb
  rw [BitVec.toNat_mul, Nat.mod_eq_of_lt]
  omega

theorem toNat_eq_digits (w : Word64) : w.toNat = (hiDigit w).toNat * 2 ^ 32 + (loDigit w).toNat := by
  rw [hiDigit_toNat, loDigit_toNat]
  omega

/-- `Multiply64(x, y)` is the exact product (R150). -/
theorem multiply64_toNat (x y : Word64) : (multiply64 x y).toNat = x.toNat * y.toNat := by
  have hxl := loDigit_lt x
  have hxh := hiDigit_lt x
  have hyl := loDigit_lt y
  have hyh := hiDigit_lt y
  have hp : x.toNat * y.toNat < 2 ^ 128 := by
    calc x.toNat * y.toNat < 2 ^ 64 * 2 ^ 64 := Nat.mul_lt_mul'' x.isLt y.isLt
      _ = 2 ^ 128 := by norm_num
  have key : x.toNat * y.toNat = (hiDigit x).toNat * (hiDigit y).toNat * 2 ^ 64 +
      ((loDigit x).toNat * (hiDigit y).toNat + (hiDigit x).toNat * (loDigit y).toNat) * 2 ^ 32 +
      (loDigit x).toNat * (loDigit y).toNat := by
    rw [toNat_eq_digits x, toNat_eq_digits y]
    ring
  rw [multiply64, combineProducts_toNat]
  · rw [digit_mul_toNat hxh hyh, digit_mul_toNat hxl hyh, digit_mul_toNat hxh hyl, digit_mul_toNat hxl hyl, key]
  · exact digit_mul_toNat hxl hyl ▸ digit_mul_le hxl hyl
  · exact digit_mul_toNat hxl hyh ▸ digit_mul_le hxl hyh
  · exact digit_mul_toNat hxh hyl ▸ digit_mul_le hxh hyl
  · exact digit_mul_toNat hxh hyh ▸ digit_mul_le hxh hyh
  · rw [digit_mul_toNat hxh hyh, digit_mul_toNat hxl hyh, digit_mul_toNat hxh hyl, digit_mul_toNat hxl hyl, ← key]
    exact hp

/-- The squarer returns what the multiplier returns (R152). -/
theorem square64_eq (v : Word64) : square64 v = multiply64 v v := by
  simp only [square64, multiply64, BitVec.mul_comm (hiDigit v) (loDigit v)]

theorem wrapped_cross_sum {h l p q k : Nat} (hl : l < 2 ^ 64) :
    (h + (p % 2 ^ 64 + q % 2 ^ 64) % 2 ^ 64) % 2 ^ 64 * 2 ^ 64 + l =
      (k * 2 ^ 128 + (p + q) * 2 ^ 64 + (h * 2 ^ 64 + l)) % 2 ^ 128 := by
  omega

/-- `Mul128(a, b) = wrap_128(a * b)` (R154). -/
theorem mul128_eq (a b : Word128) : mul128 a b = a * b := by
  apply BitVec.eq_of_toNat_eq
  have hm := multiply64_toNat (lo64 a) (lo64 b)
  rw [toNat_eq_limbs (multiply64 _ _)] at hm
  rw [mul128, u128_toNat, BitVec.toNat_mul, toNat_eq_limbs a, toNat_eq_limbs b]
  simp only [BitVec.toNat_add, BitVec.toNat_mul]
  have key : ((hi64 a).toNat * 2 ^ 64 + (lo64 a).toNat) * ((hi64 b).toNat * 2 ^ 64 + (lo64 b).toNat) =
      (hi64 a).toNat * (hi64 b).toNat * 2 ^ 128 +
      ((lo64 a).toNat * (hi64 b).toNat + (hi64 a).toNat * (lo64 b).toNat) * 2 ^ 64 + (lo64 a).toNat * (lo64 b).toNat := by
    ring
  rw [key, ← hm]
  exact wrapped_cross_sum (lo64 (multiply64 (lo64 a) (lo64 b))).isLt

/-- `DivMod(a, b)` satisfies the division identity (R165). -/
theorem divMod_identity (a b : Word128) (hb : b ≠ 0) :
    a.toNat = b.toNat * (divMod a b).1.toNat + (divMod a b).2.toNat ∧ (divMod a b).2.toNat < b.toNat := by
  have hpos : 0 < b.toNat := by
    rw [Nat.pos_iff_ne_zero]
    exact fun h => hb (BitVec.eq_of_toNat_eq h)
  simp only [divMod, BitVec.toNat_udiv, BitVec.toNat_umod]
  exact ⟨(Nat.div_add_mod _ _).symm, Nat.mod_lt _ hpos⟩

/-- `MulMod64(a, b, m) = (a * b) mod m`, and 0 for `m = 0` (R190). -/
theorem mulMod64_toNat (a b m : Word64) :
    (mulMod64 a b m).toNat = if m = 0 then 0 else a.toNat * b.toNat % m.toNat := by
  unfold mulMod64
  split_ifs with hm
  · rfl
  · have hpos : 0 < m.toNat := by
      rw [Nat.pos_iff_ne_zero]
      exact fun h => hm (BitVec.eq_of_toNat_eq h)
    have hlt := Nat.mod_lt (a.toNat * b.toNat) hpos
    have := m.isLt
    rw [lo64_toNat, divMod, BitVec.toNat_umod, multiply64_toNat, widen_toNat, Nat.mod_eq_of_lt]
    omega

end Sys2Proof.Machine
end

