-- ==== Sys2Proof/Laws/Assembler.lean ====
section
/-! SUPPORT. What the reading of assembler text gives on text that the assembler wrote (30_encoding.md R81): pieces between
separators, blanks, numbers, operands, lines. -/

namespace Sys2Proof.Machine

/-! ## Pieces between separators -/

theorem cutAt_of_not_mem {sep : Char} {cs : List Char} (h : sep ∉ cs) : cutAt sep cs = [cs] := by
  induction cs with
  | nil => rfl
  | cons c rest ih =>
    have hc : ¬ c = sep := fun e => h (by simp [e])
    simp [cutAt, hc, ih fun m => h (List.mem_cons_of_mem _ m)]

theorem cutAt_append {sep : Char} {cs : List Char} (rest : List Char) (h : sep ∉ cs) :
    cutAt sep (cs ++ sep :: rest) = cs :: cutAt sep rest := by
  induction cs with
  | nil => simp [cutAt]
  | cons c more ih =>
    have hc : ¬ c = sep := fun e => h (by simp [e])
    simp [cutAt, hc, ih fun m => h (List.mem_cons_of_mem _ m)]

theorem append_intercalate {α : Type} (a s x : List α) (more : List (List α)) :
    a ++ s.intercalate (x :: more) = s.intercalate ((a ++ x) :: more) := by
  cases more <;> simp

/-- Pieces joined by a separator and a gap are cut apart again; all but the first have the gap before them. -/
theorem cutAt_intercalate {sep : Char} {gap : List Char} (hg : sep ∉ gap) (w : List Char) (ws : List (List Char))
    (h : ∀ x ∈ w :: ws, sep ∉ x) :
    cutAt sep ((sep :: gap).intercalate (w :: ws)) = w :: ws.map fun x => gap ++ x := by
  induction ws generalizing w with
  | nil => simpa using cutAt_of_not_mem (h w (by simp))
  | cons x more ih =>
    have h' : ∀ y ∈ (gap ++ x) :: more, sep ∉ y := by
      intro y hy
      rcases List.mem_cons.1 hy with rfl | hy
      · simpa [hg] using h x (by simp)
      · exact h y (by simp [hy])
    have hcut := ih (gap ++ x) h'
    rw [← append_intercalate] at hcut
    rw [List.intercalate_cons_cons, List.append_assoc, List.cons_append, cutAt_append _ (h w (by simp)), hcut]
    rfl

theorem allOf_map {α β γ : Type} {f : β → Option γ} {g : α → β} {k : α → γ} {xs : List α} (h : ∀ x ∈ xs, f (g x) = some (k x)) :
    allOf f (xs.map g) = some (xs.map k) := by
  induction xs with
  | nil => rfl
  | cons x rest ih => simp [allOf, h x (by simp), ih fun y hy => h y (by simp [hy])]

/-! ## Blanks -/

/-- A character of a word: no blank, no line end and no character that R81 gives a meaning between words. -/
def wordChar (c : Char) : Bool := !isBlank c && c != ',' && c != ';' && c != ':' && c != '\n'

/-- A word: not empty, and of such characters only. -/
def PlainWord (w : List Char) : Prop := w ≠ [] ∧ w.all wordChar = true

/-- Text that begins and ends with a character that is no blank. -/
def Trimmed (cs : List Char) : Prop :=
  (∃ c rest, cs = c :: rest ∧ isBlank c = false) ∧ ∃ front d, cs = front ++ [d] ∧ isBlank d = false

theorem isBlank_of_wordChar {c : Char} (h : wordChar c = true) : isBlank c = false := by
  simp only [wordChar, Bool.and_eq_true, Bool.not_eq_true'] at h
  exact h.1.1.1.1

theorem PlainWord.trimmed {w : List Char} (h : PlainWord w) : Trimmed w := by
  obtain ⟨h0, h1⟩ := h
  rw [List.all_eq_true] at h1
  constructor
  · cases w with
    | nil => exact absurd rfl h0
    | cons c rest => exact ⟨c, rest, rfl, isBlank_of_wordChar (h1 c (by simp))⟩
  · obtain ⟨front, d, rfl⟩ := (List.eq_nil_or_concat w).resolve_left h0
    exact ⟨front, d, by simp, isBlank_of_wordChar (h1 d (by simp))⟩

theorem PlainWord.not_mem {w : List Char} (h : PlainWord w) {c : Char} (hc : wordChar c = false) : c ∉ w := fun hm => by
  have := List.all_eq_true.1 h.2 c hm
  simp [hc] at this

theorem Trimmed.append {a b : List Char} (ha : Trimmed a) (m : List Char) (hb : Trimmed b) : Trimmed (a ++ m ++ b) := by
  obtain ⟨⟨c, rest, rfl, hc⟩, -⟩ := ha
  obtain ⟨-, front, d, rfl, hd⟩ := hb
  exact ⟨⟨c, rest ++ m ++ (front ++ [d]), rfl, hc⟩, c :: rest ++ m ++ front, d, by simp, hd⟩

theorem Trimmed.trimChars {cs : List Char} (h : Trimmed cs) : trimChars cs = cs := by
  obtain ⟨⟨c, rest, rfl, hc⟩, front, d, he, hd⟩ := h
  simp only [Machine.trimChars, List.dropWhile_cons, hc, Bool.false_eq_true, if_false]
  rw [he]
  simp [hd]

theorem Trimmed.trimChars_blank {cs : List Char} (h : Trimmed cs) : Machine.trimChars (' ' :: cs) = cs := by
  have : Machine.trimChars (' ' :: cs) = Machine.trimChars cs := by simp [Machine.trimChars, isBlank]
  rw [this, h.trimChars]

theorem trimmed_intercalate {w : List Char} {ws : List (List Char)} (h : ∀ x ∈ w :: ws, PlainWord x) :
    Trimmed ([',', ' '].intercalate (w :: ws)) := by
  induction ws generalizing w with
  | nil => simpa using (h w (by simp)).trimmed
  | cons x more ih =>
    rw [List.intercalate_cons_cons]
    exact (h w (by simp)).trimmed.append _ (ih fun y hy => h y (by simp [hy]))

/-! ## Numbers -/

theorem digitValue_digitChar {d : Nat} (h : d < 10) : digitValue 10 d.digitChar = some d := by
  interval_cases d <;> rfl

theorem digitsValue_append (base acc : Nat) (cs : List Char) (c : Char) :
    digitsValue base acc (cs ++ [c]) =
      (digitsValue base acc cs).bind fun a => (digitValue base c).map fun d => a * base + d := by
  induction cs generalizing acc with
  | nil => cases h : digitValue base c <;> simp [digitsValue, h]
  | cons x rest ih => cases h : digitValue base x <;> simp [digitsValue, h, ih]

/-- Reading the decimal digits of a number gives the number. -/
theorem digitsValue_toDigits (n : Nat) : digitsValue 10 0 (Nat.toDigits 10 n) = some n := by
  induction n using Nat.strong_induction_on with
  | _ n ih =>
    rw [Nat.toDigits_eq_if (by decide)]
    split
    · next h => simp [digitsValue, digitValue_digitChar h]
    · next h =>
      rw [digitsValue_append, ih (n / 10) (by omega)]
      simp [digitValue_digitChar (Nat.mod_lt n (by decide : 10 > 0))]
      omega

theorem isDigit_of_mem_toDigits {n : Nat} {c : Char} (h : c ∈ Nat.toDigits 10 n) : c.isDigit = true := by
  induction n using Nat.strong_induction_on with
  | _ n ih =>
    have hd : ∀ d, d < 10 → d.digitChar.isDigit = true := by intro d hd; interval_cases d <;> rfl
    rw [Nat.toDigits_eq_if (by decide)] at h
    split at h
    · next hn => rw [List.mem_singleton.1 h]; exact hd n hn
    · next hn =>
      rcases List.mem_append.1 h with h | h
      · exact ih (n / 10) (by omega) h
      · rw [List.mem_singleton.1 h]; exact hd _ (Nat.mod_lt n (by decide))

/-- A decimal is not empty and begins with a digit, and all of it is digits. -/
theorem toDigits_cases (n : Nat) : ∃ c rest, Nat.toDigits 10 n = c :: rest ∧ ∀ d ∈ c :: rest, d.isDigit = true := by
  cases h : Nat.toDigits 10 n with
  | nil => exact absurd h Nat.toDigits_ne_nil
  | cons c rest => exact ⟨c, rest, rfl, fun d hd => isDigit_of_mem_toDigits (n := n) (h ▸ hd)⟩

theorem naturalOf_toDigits (n : Nat) : naturalOf (Nat.toDigits 10 n) = some n := by
  have hv := digitsValue_toDigits n
  obtain ⟨c, rest, he, hd⟩ := toDigits_cases n
  rw [he] at hv ⊢
  unfold naturalOf
  split
  · next h => cases h
  · next h => exact absurd (hd 'x' (by simp [h])) (by decide)
  · exact hv

theorem wordChar_of_isDigit {c : Char} (h : c.isDigit = true) : wordChar c = true := by
  have hne : ∀ d : Char, d.isDigit = false → (c == d) = false := fun d hd =>
    beq_false_of_ne fun e => by rw [e, hd] at h; exact Bool.noConfusion h
  simp [wordChar, isBlank, bne, hne ' ' (by decide), hne '\t' (by decide), hne '\r' (by decide), hne ',' (by decide),
    hne ';' (by decide), hne ':' (by decide), hne '\n' (by decide)]

theorem plainWord_toDigits (n : Nat) : PlainWord (Nat.toDigits 10 n) :=
  ⟨Nat.toDigits_ne_nil, List.all_eq_true.2 fun _ hc => wordChar_of_isDigit (isDigit_of_mem_toDigits hc)⟩

/-! ## Operands -/

/-- The operand is a word, and reads as itself. -/
structure Spelled (op : AsmOperand) : Prop where
  reads : operandOf (operandChars op) = some op
  word : PlainWord (operandChars op)

theorem registerOf_registerName : ∀ r : Reg, registerOf (registerName r) = some r := by decide

theorem registerOf_cons {c : Char} (rest : List Char) (h : c ≠ 'q') : registerOf (c :: rest) = none := by
  unfold registerOf
  split
  · next e => simp_all
  · next e => simp_all
  · rfl

theorem spelled_reg (r : Reg) : Spelled (.reg r) where
  reads := by simp [operandChars, operandOf, registerOf_registerName]
  word := by
    refine ⟨by simp [operandChars, registerName], ?_⟩
    revert r; decide

theorem spelled_num (v : Int) : Spelled (.num v) := by
  cases v with
  | ofNat n =>
    refine ⟨?_, plainWord_toDigits n⟩
    show operandOf (Nat.toDigits 10 n) = _
    have hn := naturalOf_toDigits n
    obtain ⟨c, rest, he, hd⟩ := toDigits_cases n
    rw [he] at hn ⊢
    have hc := hd c (by simp)
    have hq : c ≠ 'q' := by rintro rfl; exact absurd hc (by decide)
    unfold operandOf
    rw [registerOf_cons rest hq]
    dsimp only
    split
    · next e => rw [(List.cons.inj e).1] at hc; exact absurd hc (by decide)
    · next e => rw [(List.cons.inj e).1] at hc; exact absurd hc (by decide)
    · simp [hn]
  | negSucc n =>
    refine ⟨?_, ⟨by simp [operandChars, numberChars], ?_⟩⟩
    · show operandOf ('-' :: Nat.toDigits 10 (n + 1)) = _
      simp [operandOf, registerOf_cons _ (by decide : '-' ≠ 'q'), naturalOf_toDigits, Int.negSucc_eq]
    · simpa [operandChars, numberChars, (by decide : wordChar '-' = true)] using (plainWord_toDigits (n + 1)).2

theorem spelled_ldcName (k : LdcConst) : Spelled (.name (ldcName k).toList) := by
  cases k <;> exact ⟨by decide, by decide, by decide⟩

/-! ## Branch targets -/

/-- A number that a branch can hold as its offset is its own target. -/
theorem numberTarget_of_offInRange {v : Int} (h : offInRange v = true) : numberTarget v = v := by
  simp only [offInRange, Bool.and_eq_true, decide_eq_true_eq] at h
  unfold numberTarget sext16
  split_ifs <;> omega

theorem offInRange_labelOffset (label index : Nat) : offInRange (labelOffset label index) = true := by
  simp only [labelOffset, off16Bits, sext16, offInRange, Bool.and_eq_true]
  constructor <;> apply decide_eq_true <;> split_ifs <;> omega

/-- A label that stands at one place is the target of that place. -/
theorem labelTarget_of_mem {labels : List (List Char × Nat)} {name : List Char} {k : Nat} (index : Nat)
    (hn : (labels.map Prod.fst).Nodup) (hm : (name, k) ∈ labels) :
    labelTarget labels index name = some (labelOffset k index) := by
  have hfind : labels.find? (fun l => l.1 == name) = some (name, k) := by
    induction labels with
    | nil => cases hm
    | cons l rest ih =>
      rw [List.map_cons, List.nodup_cons] at hn
      rcases List.mem_cons.1 hm with rfl | hm
      · simp
      · have hne : ¬ l.1 = name := fun e => hn.1 (List.mem_map.2 ⟨(name, k), hm, e.symm⟩)
        simpa [hne] using ih hn.2 hm
  simp [labelTarget, hfind]

/-! ## Lines -/

theorem statementOf_word {m : List Char} (h : PlainWord m) : statementOf m = some (some ⟨m, []⟩) := by
  have ht : m.takeWhile (fun c => !isBlank c) = m := by
    rw [List.takeWhile_eq_self_iff]
    intro c hc; simp [isBlank_of_wordChar (List.all_eq_true.1 h.2 c hc)]
  obtain ⟨c, rest, rfl⟩ := List.exists_cons_of_ne_nil h.1
  simp only [statementOf, h.trimmed.trimChars, ht, List.drop_length]
  rfl

theorem statementOf_operands {m : List Char} {op : AsmOperand} {ops : List AsmOperand} (h : PlainWord m)
    (ho : ∀ o ∈ op :: ops, Spelled o) :
    statementOf (m ++ ' ' :: [',', ' '].intercalate ((op :: ops).map operandChars)) = some (some ⟨m, op :: ops⟩) := by
  have hw : ∀ x ∈ (op :: ops).map operandChars, PlainWord x := by
    intro x hx
    obtain ⟨o, ho', rfl⟩ := List.mem_map.1 hx
    exact (ho o ho').word
  have htr : Trimmed ([',', ' '].intercalate ((op :: ops).map operandChars)) := trimmed_intercalate hw
  have hall : Trimmed (m ++ ' ' :: [',', ' '].intercalate ((op :: ops).map operandChars)) := by
    simpa using h.trimmed.append [' '] htr
  have hm : (m ++ ' ' :: [',', ' '].intercalate ((op :: ops).map operandChars)).takeWhile (fun c => !isBlank c) = m := by
    rw [List.takeWhile_append_of_pos fun c hc => by simp [isBlank_of_wordChar (List.all_eq_true.1 h.2 c hc)]]
    simp [isBlank]
  have hcut : (cutAt ',' ([',', ' '].intercalate ((op :: ops).map operandChars))).map trimChars =
      (op :: ops).map operandChars := by
    rw [List.map_cons, cutAt_intercalate (by decide) _ _ fun x hx => (hw x hx).not_mem (by decide)]
    simp only [List.map_cons, (hw (operandChars op) (by simp)).trimmed.trimChars, List.map_map, List.cons.injEq, true_and]
    refine List.map_congr_left fun o ho' => ?_
    exact (ho o (by simp [ho'])).word.trimmed.trimChars_blank
  have hops := allOf_map (f := operandOf) (k := id) fun o ho' => (ho o ho').reads
  have htrim := hall.trimChars
  have hblank := htr.trimChars_blank
  obtain ⟨⟨c, rest, hc, -⟩, -⟩ := hall
  obtain ⟨⟨c', rest', hc', -⟩, -⟩ := htr
  simp only [statementOf, htrim]
  rw [hc]
  dsimp only
  rw [← hc, hm, List.drop_left, hblank, hc']
  dsimp only
  rw [← hc', hcut, hops]
  simp

theorem not_mem_intercalate {c : Char} (h1 : c ≠ ' ') (h2 : c ≠ ',') {ws : List (List Char)} (h : ∀ w ∈ ws, c ∉ w) :
    c ∉ [',', ' '].intercalate ws := by
  induction ws with
  | nil => simp
  | cons w rest ih =>
    have hw := h w (by simp)
    have ih' := ih fun x hx => h x (by simp [hx])
    cases rest with
    | nil => simpa using hw
    | cons x more => rw [List.intercalate_cons_cons]; simp [hw, ih', h1, h2]

/-- The text of a statement of words and operands that read as themselves is a line with that statement and no label. -/
theorem lineOf_statementChars {st : AsmStatement} (hm : PlainWord st.mnemonic) (ho : ∀ o ∈ st.operands, Spelled o) :
    lineOf (statementChars st) = some ⟨none, some st⟩ ∧ '\n' ∉ statementChars st := by
  have hword : ∀ c, c ≠ ' ' → c ≠ ',' → wordChar c = false → c ∉ statementChars st := by
    intro c h1 h2 h3 hc
    obtain ⟨m, ops⟩ := st
    cases ops with
    | nil => exact hm.not_mem h3 hc
    | cons o more =>
      simp only [statementChars, List.mem_append, List.mem_cons] at hc
      rcases hc with hc | hc | hc
      · exact hm.not_mem h3 hc
      · exact h1 hc
      · refine not_mem_intercalate h1 h2 (fun w hw => ?_) hc
        obtain ⟨o', ho', rfl⟩ := List.mem_map.1 hw
        exact (ho o' ho').word.not_mem h3
  have hcomment : (statementChars st).takeWhile (fun c => c != ';') = statementChars st := by
    rw [List.takeWhile_eq_self_iff]
    intro c hc
    have : c ≠ ';' := by rintro rfl; exact hword ';' (by decide) (by decide) (by decide) hc
    simpa using this
  refine ⟨?_, hword '\n' (by decide) (by decide) (by decide)⟩
  simp only [lineOf, hcomment, cutAt_of_not_mem (hword ':' (by decide) (by decide) (by decide))]
  obtain ⟨m, ops⟩ := st
  cases ops with
  | nil => simp [statementChars, statementOf_word hm]
  | cons o more =>
    have h := statementOf_operands hm ho
    simp only [statementChars]
    simp only [List.map_cons] at h ⊢
    rw [h]
    rfl

/-- The mnemonic of every command is a word, and its operands read as themselves. -/
theorem toStatement_spelled (i : Instr) :
    PlainWord (toStatement i).mnemonic ∧ ∀ o ∈ (toStatement i).operands, Spelled o := by
  cases i <;>
    exact ⟨by dsimp only [toStatement, stmt]; exact ⟨by decide, by decide⟩,
      by simp [toStatement, stmt, spelled_reg, spelled_num, spelled_ldcName]⟩

/-- The text of a command is one line, with the command's statement and no label. -/
theorem lineOf_toStatement (i : Instr) :
    lineOf (statementChars (toStatement i)) = some ⟨none, some (toStatement i)⟩ ∧ '\n' ∉ statementChars (toStatement i) :=
  lineOf_statementChars (toStatement_spelled i).1 (toStatement_spelled i).2

end Sys2Proof.Machine
end

