-- ==== Sys2Proof/Laws/Decode.lean ====
section
/-! SUPPORT. The fields of the words that the encoder writes (30_encoding.md R71 to R75): one lemma for each format says what every
field of the word reads as. -/

namespace Sys2Proof

theorem wordR_toNat (op : Nat) (rd rs1 rs2 rs3 : Reg) (h : op < 256) :
    (wordR op rd rs1 rs2 rs3).toNat =
      op * 2 ^ 24 + rd.val * 2 ^ 20 + rs1.val * 2 ^ 16 + rs2.val * 2 ^ 12 + rs3.val * 2 ^ 8 := by
  rw [wordR, BitVec.toNat_ofNat, Nat.mod_eq_of_lt]
  omega

theorem wordI_toNat (op : Nat) (rd rs1 : Reg) (imm : Nat) (h : op < 256) :
    (wordI op rd rs1 imm).toNat = op * 2 ^ 24 + rd.val * 2 ^ 20 + rs1.val * 2 ^ 16 + imm % 2 ^ 16 := by
  rw [wordI, BitVec.toNat_ofNat, Nat.mod_eq_of_lt]
  omega

/-- Every field of a word in format R (R71). -/
theorem wordR_fields (op : Nat) (rd rs1 rs2 rs3 : Reg) (h : op < 256) :
    opcodeOf (wordR op rd rs1 rs2 rs3) = op ∧ rdOf (wordR op rd rs1 rs2 rs3) = rd ∧
      rs1Of (wordR op rd rs1 rs2 rs3) = rs1 ∧ rs2Of (wordR op rd rs1 rs2 rs3) = rs2 ∧
      rs3Of (wordR op rd rs1 rs2 rs3) = rs3 ∧ bits (wordR op rd rs1 rs2 rs3) 0 8 = 0 := by
  simp only [opcodeOf, rdOf, rs1Of, rs2Of, rs3Of, regField, bits, wordR_toNat _ _ _ _ _ h, Fin.ext_iff, Fin.val_ofNat]
  omega

/-- Every field of a word in format I or B (R72, R73). -/
theorem wordI_fields (op : Nat) (rd rs1 : Reg) (imm : Nat) (h : op < 256) :
    opcodeOf (wordI op rd rs1 imm) = op ∧ rdOf (wordI op rd rs1 imm) = rd ∧ rs1Of (wordI op rd rs1 imm) = rs1 ∧
      imm16Of (wordI op rd rs1 imm) = imm % 2 ^ 16 := by
  simp only [opcodeOf, rdOf, rs1Of, imm16Of, regField, bits, wordI_toNat _ _ _ _ h, Fin.ext_iff, Fin.val_ofNat]
  omega

/-- A signed offset read back from its sixteen bits (R75 e). -/
theorem sext16_off16Bits (off : Int) (h : offInRange off = true) : sext16 (off16Bits off) = off := by
  simp only [offInRange, Bool.and_eq_true, decide_eq_true_eq] at h
  simp only [sext16, off16Bits]
  split_ifs <;> omega

theorem off16Bits_lt (off : Int) : off16Bits off < 65536 := by
  simp only [off16Bits]
  omega

/-- `wrap_16` of a sign-extended value is the value (R7, R75 e). -/
theorem off16Bits_sext16 (n : Nat) (h : n < 65536) : off16Bits (sext16 n) = n := by
  simp only [sext16, off16Bits]
  split_ifs <;> omega

theorem sext16_inRange (n : Nat) (h : n < 65536) : offInRange (sext16 n) = true := by
  have : -32768 ≤ sext16 n ∧ sext16 n ≤ 32767 := by
    simp only [sext16]
    split_ifs <;> omega
  simp [offInRange, this]

@[simp] theorem ldcConstOf_sel (k : LdcConst) : ldcConstOf k.sel = k := by cases k <;> rfl

@[simp] theorem absWidthOf_sel (w : AbsWidth) : absWidthOf w.sel = w := by cases w <;> rfl

theorem LdcConst.sel_lt (k : LdcConst) : k.sel < 4 := by cases k <;> decide

theorem AbsWidth.sel_lt (w : AbsWidth) : w.sel < 4 := by cases w <;> decide

theorem ldcConst_sel_of (n : Nat) (h : n < 4) : (ldcConstOf n).sel = n := by
  interval_cases n <;> rfl

theorem absWidth_sel_of (n : Nat) (h : n < 4) : (absWidthOf n).sel = n := by
  interval_cases n <;> rfl

/-- What `ifZero` answers: the command, and then the bits are zero. -/
theorem ifZero_ok {w : Word32} {lo len : Nat} {i j : Instr} (h : ifZero w lo len i = .ok j) :
    bits w lo len = 0 ∧ i = j := by
  unfold ifZero at h
  split_ifs at h with hz
  exact ⟨hz, by simpa using h⟩

/-- A field of a word is below its size (R8). -/
theorem bits_lt (w : Word32) (lo len : Nat) : bits w lo len < 2 ^ len := Nat.mod_lt _ (by positivity)

end Sys2Proof
end

