-- ==== Sys2Proof/Laws/State.lean ====
section
/-! SUPPORT. What each update of the state does to each field and each register, one lemma per field per update. -/

namespace Sys2Proof.Machine

theorem State.reg_setReg (s : State) (r r' : Reg) (v : Word128) :
    (s.setReg r v).reg r' = if r' = r then v else s.reg r' := by
  simp [State.reg, State.setReg, Vector.getElem_set, Fin.ext_iff, eq_comm]

@[simp] theorem State.reg_setReg_same (s : State) (r : Reg) (v : Word128) : (s.setReg r v).reg r = v := by
  simp [State.reg_setReg]

@[simp] theorem State.reg_setReg_ne (s : State) {r r' : Reg} (v : Word128) (h : r' ≠ r) :
    (s.setReg r v).reg r' = s.reg r' := by
  simp [State.reg_setReg, h]

@[simp] theorem State.setReg_pc (s : State) (r : Reg) (v : Word128) : (s.setReg r v).pc = s.pc := rfl
@[simp] theorem State.setReg_runState (s : State) (r : Reg) (v : Word128) : (s.setReg r v).runState = s.runState := rfl
@[simp] theorem State.setReg_ie (s : State) (r : Reg) (v : Word128) : (s.setReg r v).ie = s.ie := rfl
@[simp] theorem State.setReg_fcause (s : State) (r : Reg) (v : Word128) : (s.setReg r v).fcause = s.fcause := rfl
@[simp] theorem State.setReg_fpc (s : State) (r : Reg) (v : Word128) : (s.setReg r v).fpc = s.fpc := rfl
@[simp] theorem State.setReg_fcmd (s : State) (r : Reg) (v : Word128) : (s.setReg r v).fcmd = s.fcmd := rfl
@[simp] theorem State.setReg_cmdbuf (s : State) (r : Reg) (v : Word128) : (s.setReg r v).cmdbuf = s.cmdbuf := rfl
@[simp] theorem State.setReg_powerOns (s : State) (r : Reg) (v : Word128) : (s.setReg r v).powerOns = s.powerOns := rfl

@[simp] theorem State.setPc_pc (s : State) (t : Word16) : (s.setPc t).pc = t := rfl
@[simp] theorem State.reg_setPc (s : State) (t : Word16) (r : Reg) : (s.setPc t).reg r = s.reg r := rfl
@[simp] theorem State.setPc_runState (s : State) (t : Word16) : (s.setPc t).runState = s.runState := rfl
@[simp] theorem State.setPc_ie (s : State) (t : Word16) : (s.setPc t).ie = s.ie := rfl
@[simp] theorem State.setPc_fcause (s : State) (t : Word16) : (s.setPc t).fcause = s.fcause := rfl
@[simp] theorem State.setPc_fpc (s : State) (t : Word16) : (s.setPc t).fpc = s.fpc := rfl
@[simp] theorem State.setPc_fcmd (s : State) (t : Word16) : (s.setPc t).fcmd = s.fcmd := rfl
@[simp] theorem State.setPc_cmdbuf (s : State) (t : Word16) : (s.setPc t).cmdbuf = s.cmdbuf := rfl
@[simp] theorem State.setPc_powerOns (s : State) (t : Word16) : (s.setPc t).powerOns = s.powerOns := rfl

@[simp] theorem State.setRunState_pc (s : State) (q : RunState) : (s.setRunState q).pc = s.pc := rfl
@[simp] theorem State.reg_setRunState (s : State) (q : RunState) (r : Reg) : (s.setRunState q).reg r = s.reg r := rfl
@[simp] theorem State.setRunState_runState (s : State) (q : RunState) : (s.setRunState q).runState = q := rfl
@[simp] theorem State.setRunState_ie (s : State) (q : RunState) : (s.setRunState q).ie = s.ie := rfl
@[simp] theorem State.setRunState_fcause (s : State) (q : RunState) : (s.setRunState q).fcause = s.fcause := rfl
@[simp] theorem State.setRunState_fpc (s : State) (q : RunState) : (s.setRunState q).fpc = s.fpc := rfl
@[simp] theorem State.setRunState_fcmd (s : State) (q : RunState) : (s.setRunState q).fcmd = s.fcmd := rfl
@[simp] theorem State.setRunState_cmdbuf (s : State) (q : RunState) : (s.setRunState q).cmdbuf = s.cmdbuf := rfl
@[simp] theorem State.setRunState_powerOns (s : State) (q : RunState) : (s.setRunState q).powerOns = s.powerOns := rfl

@[simp] theorem State.setByte_pc (s : State) (o : Nat) (b : Byte) : (s.setByte o b).pc = s.pc := rfl
@[simp] theorem State.reg_setByte (s : State) (o : Nat) (b : Byte) (r : Reg) : (s.setByte o b).reg r = s.reg r := rfl
@[simp] theorem State.setByte_runState (s : State) (o : Nat) (b : Byte) : (s.setByte o b).runState = s.runState := rfl
@[simp] theorem State.setByte_ie (s : State) (o : Nat) (b : Byte) : (s.setByte o b).ie = s.ie := rfl
@[simp] theorem State.setByte_fcause (s : State) (o : Nat) (b : Byte) : (s.setByte o b).fcause = s.fcause := rfl
@[simp] theorem State.setByte_fpc (s : State) (o : Nat) (b : Byte) : (s.setByte o b).fpc = s.fpc := rfl
@[simp] theorem State.setByte_fcmd (s : State) (o : Nat) (b : Byte) : (s.setByte o b).fcmd = s.fcmd := rfl
@[simp] theorem State.setByte_cmdbuf (s : State) (o : Nat) (b : Byte) : (s.setByte o b).cmdbuf = s.cmdbuf.put o b := rfl
@[simp] theorem State.setByte_powerOns (s : State) (o : Nat) (b : Byte) : (s.setByte o b).powerOns = s.powerOns := rfl

@[simp] theorem State.setCmdWord_pc (s : State) (k : Nat) (w : Word32) : (s.setCmdWord k w).pc = s.pc := rfl
@[simp] theorem State.reg_setCmdWord (s : State) (k : Nat) (w : Word32) (r : Reg) : (s.setCmdWord k w).reg r = s.reg r := rfl
@[simp] theorem State.setCmdWord_runState (s : State) (k : Nat) (w : Word32) :
    (s.setCmdWord k w).runState = s.runState := rfl
@[simp] theorem State.setCmdWord_ie (s : State) (k : Nat) (w : Word32) : (s.setCmdWord k w).ie = s.ie := rfl
@[simp] theorem State.setCmdWord_fcause (s : State) (k : Nat) (w : Word32) : (s.setCmdWord k w).fcause = s.fcause := rfl
@[simp] theorem State.setCmdWord_fpc (s : State) (k : Nat) (w : Word32) : (s.setCmdWord k w).fpc = s.fpc := rfl
@[simp] theorem State.setCmdWord_fcmd (s : State) (k : Nat) (w : Word32) : (s.setCmdWord k w).fcmd = s.fcmd := rfl
@[simp] theorem State.setCmdWord_powerOns (s : State) (k : Nat) (w : Word32) :
    (s.setCmdWord k w).powerOns = s.powerOns := rfl

/-- Two states with the same registers, read one by one, hold the same register file. -/
theorem State.x_ext {s t : State} (h : ∀ r, s.reg r = t.reg r) : s.x = t.x := by
  ext i hi : 1
  exact h ⟨i, hi⟩

end Sys2Proof.Machine
end

