-- ==== Sys2Proof/Laws/Memory.lean ====
section
/-! SUPPORT. The command buffer: a read after a write, the canonical form kept by every write (log 2), and the words of CMDBUF
(10_state.md R41, 20_memory.md R52, R55). -/

namespace Sys2Proof.Machine

theorem Memory.get_put (m : Memory) (o o' : Nat) (b : Byte) :
    (m.put o b).get o' = if o' = o then some b else m.get o' := by
  induction m with
  | nil => simp [Memory.put, Memory.get, eq_comm]
  | cons c rest ih =>
    obtain ⟨k, v⟩ := c
    rw [Memory.put]
    by_cases h : o' = o
    · subst h
      rw [if_pos rfl] at ih ⊢
      split_ifs with h1 h2
      · simp [Memory.get]
      · simp [Memory.get]
      · rw [Memory.get, if_neg (Ne.symm h2), ih]
    · rw [if_neg h] at ih ⊢
      split_ifs with h1 h2
      · simp [Memory.get, Ne.symm h]
      · subst h2
        simp [Memory.get, Ne.symm h]
      · simp only [Memory.get, ih]

/-- The offsets after a write: the written one and those there before. -/
theorem Memory.mem_put {m : Memory} {o : Nat} {b : Byte} {c : Host.Cell} (h : c ∈ m.put o b) :
    c.1 = o ∨ c ∈ m := by
  induction m with
  | nil => simp_all [Memory.put]
  | cons d rest ih =>
    obtain ⟨k, v⟩ := d
    rw [Memory.put] at h
    split_ifs at h <;> simp only [List.mem_cons] at h ⊢ <;> rcases h with rfl | h
    · exact .inl rfl
    · exact .inr h
    · exact .inl rfl
    · exact .inr (.inr h)
    · exact .inr (.inl rfl)
    · exact (ih h).imp id .inr

/-- A write inside CMDBUF keeps the canonical form. -/
theorem Memory.wf_put {m : Memory} {o : Nat} (b : Byte) (h : m.wf) (ho : inCmdbuf o) : (m.put o b).wf := by
  refine ⟨?_, fun c hc => (Memory.mem_put hc).elim (fun e => e ▸ ho) (h.2 c)⟩
  have hs := h.1
  clear h ho
  induction m with
  | nil => simp [Memory.put]
  | cons d rest ih =>
    obtain ⟨k, v⟩ := d
    rw [List.pairwise_cons] at hs
    rw [Memory.put]
    split_ifs with h1 h2
    · refine List.pairwise_cons.2 ⟨fun c hc => ?_, List.pairwise_cons.2 hs⟩
      rcases List.mem_cons.1 hc with rfl | hc
      · exact h1
      · exact h1.trans (hs.1 c hc)
    · subst h2
      exact List.pairwise_cons.2 hs
    · refine List.pairwise_cons.2 ⟨fun c hc => ?_, ih hs.2⟩
      rcases Memory.mem_put hc with e | hc
      · simp only [e]; omega
      · exact hs.1 c hc

theorem State.byteAt_setByte (s : State) (o o' : Nat) (b : Byte) :
    (s.setByte o b).byteAt o' = if o' = o then b else s.byteAt o' := by
  simp only [State.byteAt, State.setByte, Memory.get_put]
  split_ifs <;> simp

@[simp] theorem State.byteAt_setReg (s : State) (r : Reg) (v : Word128) (o : Nat) :
    (s.setReg r v).byteAt o = s.byteAt o := rfl
@[simp] theorem State.byteAt_setPc (s : State) (t : Word16) (o : Nat) : (s.setPc t).byteAt o = s.byteAt o := rfl
@[simp] theorem State.byteAt_setRunState (s : State) (q : RunState) (o : Nat) :
    (s.setRunState q).byteAt o = s.byteAt o := rfl
@[simp] theorem State.cmdWord_setReg (s : State) (r : Reg) (v : Word128) (k : Nat) :
    (s.setReg r v).cmdWord k = s.cmdWord k := rfl
@[simp] theorem State.cmdWord_setPc (s : State) (t : Word16) (k : Nat) : (s.setPc t).cmdWord k = s.cmdWord k := rfl

@[simp] theorem State.cmdWord_setRunState (s : State) (q : RunState) (k : Nat) :
    (s.setRunState q).cmdWord k = s.cmdWord k := rfl

/-- Which byte each byte of a written word goes to, and that every other byte is kept. -/
theorem State.byteAt_setCmdWord (s : State) (k o : Nat) (w : Word32) :
    (s.setCmdWord k w).byteAt o =
      if cmdOffset k ≤ o ∧ o < cmdOffset k + 4 then byteOf w (o - cmdOffset k) else s.byteAt o := by
  have h : o = cmdOffset k + 3 ∨ o = cmdOffset k + 2 ∨ o = cmdOffset k + 1 ∨ o = cmdOffset k ∨
      ¬(cmdOffset k ≤ o ∧ o < cmdOffset k + 4) := by omega
  rcases h with rfl | rfl | rfl | rfl | h
  · simp [State.setCmdWord, State.byteAt_setByte]
  · simp [State.setCmdWord, State.byteAt_setByte]
  · simp [State.setCmdWord, State.byteAt_setByte]
  · simp [State.setCmdWord, State.byteAt_setByte]
  · have h0 : o ≠ cmdOffset k := by omega
    have h1 : o ≠ cmdOffset k + 1 := by omega
    have h2 : o ≠ cmdOffset k + 2 := by omega
    have h3 : o ≠ cmdOffset k + 3 := by omega
    simp only [State.setCmdWord, State.byteAt_setByte, if_neg h, if_neg h0, if_neg h1, if_neg h2, if_neg h3]

/-- The four bytes of a word put together again are the word (R53 b). -/
@[simp] theorem wordOfBytes_byteOf (w : Word32) : wordOfBytes (byteOf w 0) (byteOf w 1) (byteOf w 2) (byteOf w 3) = w := by
  apply BitVec.eq_of_toNat_eq
  have := w.isLt
  simp only [wordOfBytes, byteOf, BitVec.toNat_append, BitVec.extractLsb'_toNat, Nat.shiftRight_eq_div_pow]
  rw [← Nat.shiftLeft_add_eq_or_of_lt (by omega), ← Nat.shiftLeft_add_eq_or_of_lt (by omega),
    ← Nat.shiftLeft_add_eq_or_of_lt (by omega)]
  simp only [Nat.shiftLeft_eq]
  omega

theorem State.cmdWord_setCmdWord (s : State) (k k' : Nat) (w : Word32) :
    (s.setCmdWord k w).cmdWord k' = if k' = k then w else s.cmdWord k' := by
  by_cases h : k' = k
  · subst h
    simp [State.cmdWord, State.byteAt_setCmdWord]
  · have hb : ∀ j, j < 4 → ¬(cmdOffset k ≤ cmdOffset k' + j ∧ cmdOffset k' + j < cmdOffset k + 4) := by
      intro j hj
      simp only [cmdOffset]
      omega
    have h0 := hb 0 (by omega)
    rw [Nat.add_zero] at h0
    simp only [State.cmdWord, State.byteAt_setCmdWord, if_neg h0, if_neg (hb 1 (by omega)), if_neg (hb 2 (by omega)),
      if_neg (hb 3 (by omega)), if_neg h]

/-- A word written inside CMDBUF keeps the canonical form. -/
theorem State.wf_setCmdWord {s : State} {k : Nat} (w : Word32) (h : s.cmdbuf.wf) (hk : k < Config.cmdbufWords) :
    (s.setCmdWord k w).cmdbuf.wf := by
  have hb : ∀ j, j < 4 → inCmdbuf (cmdOffset k + j) := by
    intro j hj
    simp only [inCmdbuf, cmdOffset, Config.cmdbufWords] at *
    omega
  exact Memory.wf_put _ (Memory.wf_put _ (Memory.wf_put _ (Memory.wf_put _ h (hb 0 (by omega))) (hb 1 (by omega)))
    (hb 2 (by omega))) (hb 3 (by omega))

/-- Nothing is listed after reset, which is the canonical form of an unwritten buffer (R311). -/
theorem State.wf_reset : State.reset.cmdbuf.wf := by decide

end Sys2Proof.Machine
end

