-- ==== Sys2Proof/Laws/Ops.lean ====
section
/-! SUPPORT. What each shared operation of Machine/Ops.lean can do, said once: the result of a command, the program counter, fault
entry, the host's strobes, the resets. -/

namespace Sys2Proof.Machine

/-! ## The program counter -/

@[simp] theorem State.advance_pc (s : State) : s.advance.pc = s.pc + 1 := rfl
@[simp] theorem State.reg_advance (s : State) (r : Reg) : s.advance.reg r = s.reg r := rfl
@[simp] theorem State.advance_runState (s : State) : s.advance.runState = s.runState := rfl
@[simp] theorem State.advance_ie (s : State) : s.advance.ie = s.ie := rfl
@[simp] theorem State.advance_fcause (s : State) : s.advance.fcause = s.fcause := rfl
@[simp] theorem State.advance_fpc (s : State) : s.advance.fpc = s.fpc := rfl
@[simp] theorem State.advance_fcmd (s : State) : s.advance.fcmd = s.fcmd := rfl
@[simp] theorem State.advance_cmdbuf (s : State) : s.advance.cmdbuf = s.cmdbuf := rfl
@[simp] theorem State.advance_powerOns (s : State) : s.advance.powerOns = s.powerOns := rfl

@[simp] theorem State.branch_pc (s : State) (off : Int) : (s.branch off).pc = branchTarget s.pc off := rfl
@[simp] theorem State.reg_branch (s : State) (off : Int) (r : Reg) : (s.branch off).reg r = s.reg r := rfl
@[simp] theorem State.branch_runState (s : State) (off : Int) : (s.branch off).runState = s.runState := rfl
@[simp] theorem State.branch_ie (s : State) (off : Int) : (s.branch off).ie = s.ie := rfl
@[simp] theorem State.branch_fcause (s : State) (off : Int) : (s.branch off).fcause = s.fcause := rfl
@[simp] theorem State.branch_fpc (s : State) (off : Int) : (s.branch off).fpc = s.fpc := rfl
@[simp] theorem State.branch_fcmd (s : State) (off : Int) : (s.branch off).fcmd = s.fcmd := rfl
@[simp] theorem State.branch_cmdbuf (s : State) (off : Int) : (s.branch off).cmdbuf = s.cmdbuf := rfl
@[simp] theorem State.branch_powerOns (s : State) (off : Int) : (s.branch off).powerOns = s.powerOns := rfl

/-- The branch target as a number: `wrap_16(pc + off)` (R241). -/
theorem branchTarget_toNat (pc : Word16) (off : Int) :
    ((branchTarget pc off).toNat : Int) = ((pc.toNat : Int) + off) % 65536 := by
  simp only [branchTarget, BitVec.toNat_ofInt]
  omega

/-- The next index as a number: `wrap_16(pc + 1)` (R27). -/
theorem advance_pc_toNat (s : State) : s.advance.pc.toNat = (s.pc.toNat + 1) % 65536 := by
  simp [BitVec.toNat_add]

/-! ## A command's result -/

theorem State.reg_writeResult (s : State) (rd r : Reg) (v : Word128) :
    (s.writeResult rd v).reg r = if r = rd then v else s.reg r := State.reg_setReg s rd r v

@[simp] theorem State.writeResult_pc (s : State) (rd : Reg) (v : Word128) : (s.writeResult rd v).pc = s.pc + 1 := rfl
@[simp] theorem State.writeResult_runState (s : State) (rd : Reg) (v : Word128) :
    (s.writeResult rd v).runState = s.runState := rfl
@[simp] theorem State.writeResult_ie (s : State) (rd : Reg) (v : Word128) : (s.writeResult rd v).ie = s.ie := rfl
@[simp] theorem State.writeResult_fcause (s : State) (rd : Reg) (v : Word128) :
    (s.writeResult rd v).fcause = s.fcause := rfl
@[simp] theorem State.writeResult_fpc (s : State) (rd : Reg) (v : Word128) : (s.writeResult rd v).fpc = s.fpc := rfl
@[simp] theorem State.writeResult_fcmd (s : State) (rd : Reg) (v : Word128) : (s.writeResult rd v).fcmd = s.fcmd := rfl
@[simp] theorem State.writeResult_cmdbuf (s : State) (rd : Reg) (v : Word128) :
    (s.writeResult rd v).cmdbuf = s.cmdbuf := rfl
@[simp] theorem State.writeResult_powerOns (s : State) (rd : Reg) (v : Word128) :
    (s.writeResult rd v).powerOns = s.powerOns := rfl
@[simp] theorem State.byteAt_writeResult (s : State) (rd : Reg) (v : Word128) (o : Nat) :
    (s.writeResult rd v).byteAt o = s.byteAt o := rfl

/-! ## Fault entry (R283) -/

@[simp] theorem takeFault_fcause (c : FaultCause) (w : Word32) (s : State) : (takeFault c w s).fcause = c := rfl
@[simp] theorem takeFault_fpc (c : FaultCause) (w : Word32) (s : State) : (takeFault c w s).fpc = s.pc := rfl
@[simp] theorem takeFault_fcmd (c : FaultCause) (w : Word32) (s : State) : (takeFault c w s).fcmd = w := rfl
@[simp] theorem takeFault_runState (c : FaultCause) (w : Word32) (s : State) : (takeFault c w s).runState = .fault := rfl
@[simp] theorem takeFault_pc (c : FaultCause) (w : Word32) (s : State) : (takeFault c w s).pc = s.pc := rfl
@[simp] theorem reg_takeFault (c : FaultCause) (w : Word32) (s : State) (r : Reg) : (takeFault c w s).reg r = s.reg r := rfl
@[simp] theorem takeFault_ie (c : FaultCause) (w : Word32) (s : State) : (takeFault c w s).ie = s.ie := rfl
@[simp] theorem takeFault_cmdbuf (c : FaultCause) (w : Word32) (s : State) : (takeFault c w s).cmdbuf = s.cmdbuf := rfl
@[simp] theorem takeFault_powerOns (c : FaultCause) (w : Word32) (s : State) :
    (takeFault c w s).powerOns = s.powerOns := rfl
@[simp] theorem byteAt_takeFault (c : FaultCause) (w : Word32) (s : State) (o : Nat) :
    (takeFault c w s).byteAt o = s.byteAt o := rfl

/-- The zero test of a divide command: DIVZERO, or the command's effect on the pair of R165 (R169). -/
theorem divideOrFault_cases {i : Instr} {a b : Word128} {f : Word128 × Word128 → State} {s t : State}
    (h : divideOrFault i a b f s = .next t) :
    (b = 0 ∧ t = takeFault .divzero (encode i) s) ∨ (b ≠ 0 ∧ t = f (divMod a b)) := by
  unfold divideOrFault at h
  split_ifs at h with hb
  · exact .inl ⟨hb, by simpa using h.symm⟩
  · exact .inr ⟨hb, by simpa using h.symm⟩

/-! ## The host's strobes (R32) -/

/-- CLEAR in DONE or FAULT leads to IDLE with the fault registers 0 (R32, R287). -/
theorem clearRun_of_stopped {s : State} (h : s.runState = .done ∨ s.runState = .fault) :
    clearRun s = { s with runState := .idle, fcause := .noFault, fpc := 0, fcmd := 0 } := by
  rcases h with h | h <;> simp [clearRun, h]

/-- CLEAR is ignored in IDLE and RUN (R32). -/
theorem clearRun_of_active {s : State} (h : s.runState = .idle ∨ s.runState = .run) : clearRun s = s := by
  rcases h with h | h <;> simp [clearRun, h]

/-- START in IDLE leads to RUN (R32). -/
theorem startRun_of_idle {s : State} (h : s.runState = .idle) : startRun s = s.setRunState .run := by
  simp [startRun, h]

/-- START is ignored outside IDLE (R32). -/
theorem startRun_of_not_idle {s : State} (h : s.runState ≠ .idle) : startRun s = s := by
  unfold startRun
  split
  · contradiction
  · rfl
  · rfl
  · rfl

/-! ## Resets (R311, R312) -/

@[simp] theorem State.reg_reset (r : Reg) : State.reset.reg r = 0 := by
  simp [State.reg, State.reset]

/-- Every byte of CMDBUF is a fresh free value after a hardware reset (R311; log 1). -/
theorem byteAt_hardwareReset (s : State) (o : Nat) :
    (hardwareReset s).byteAt o = Config.powerOnByte (s.powerOns + 1) o := rfl

/-- A soft reset keeps CMDBUF (R312). -/
theorem byteAt_softReset (s : State) (o : Nat) : (softReset s).byteAt o = s.byteAt o := rfl

end Sys2Proof.Machine
end

