-- ==== Sys2Proof/Laws/Host.lean ====
section
/-! SUPPORT. The host window (20_memory.md R51 to R56, 70_reset_and_hazards.md R320): where an address leads, what a taken access
is, and what each write can do. -/

namespace Sys2Proof.Machine

/-! ## Addresses -/

@[simp] theorem hostRead_windowAddr (off size : Nat) (s : State) :
    hostRead (windowAddr off) size s = windowRead off size s := by
  simp [hostRead, windowAddr]

@[simp] theorem hostWrite_windowAddr (off size : Nat) (w : Word32) (s : State) :
    hostWrite (windowAddr off) size w s = windowWrite off size w s := by
  simp [hostWrite, windowAddr]

theorem windowRead_aligned {off : Nat} (s : State) (ha : off % 4 = 0) (hl : off < 2048) :
    windowRead off 4 s = .next (readLoc (locationAt off) s) := by
  simp [windowRead, locate, ha, hl, Config.windowBytes]

theorem windowWrite_aligned {off : Nat} (w : Word32) (s : State) (ha : off % 4 = 0) (hl : off < 2048) :
    windowWrite off 4 w s = .next (writeLoc (locationAt off) w s) := by
  simp [windowWrite, locate, ha, hl, Config.windowBytes]

theorem locationAt_reg (r : Reg) (j : Fin 4) : locationAt (0x100 + 16 * r.val + 4 * j.val) = .regWord r j := by
  have h1 : ¬ 0x100 + 16 * r.val + 4 * j.val < 0x100 := by omega
  have h2 : 0x100 + 16 * r.val + 4 * j.val < 0x200 := by omega
  rw [locationAt, if_neg h1, if_pos h2]
  congr 1
  · simp only [Fin.ext_iff, Fin.val_ofNat]
    omega
  · simp only [Fin.ext_iff, Fin.val_ofNat]
    omega

theorem locationAt_cmd (k : Fin 256) : locationAt (0x400 + 4 * k.val) = .cmdWord k.val := by
  have h1 : ¬ 0x400 + 4 * k.val < 0x100 := by omega
  have h2 : ¬ 0x400 + 4 * k.val < 0x200 := by omega
  have h3 : ¬ 0x400 + 4 * k.val < 0x400 := by omega
  rw [locationAt, if_neg h1, if_neg h2, if_neg h3]
  congr 1
  omega

theorem hostWrite_regAddr (r : Reg) (j : Fin 4) (w : Word32) (s : State) :
    hostWrite (regAddr r j) 4 w s = .next (writeLoc (.regWord r j) w s) := by
  rw [regAddr, hostWrite_windowAddr, windowWrite_aligned w s (by omega) (by omega), locationAt_reg]

theorem hostRead_regAddr (r : Reg) (j : Fin 4) (s : State) :
    hostRead (regAddr r j) 4 s = .next (wordOf (s.reg r) j.val) := by
  rw [regAddr, hostRead_windowAddr, windowRead_aligned s (by omega) (by omega), locationAt_reg]
  rfl

theorem hostWrite_cmdAddr (k : Fin 256) (w : Word32) (s : State) :
    hostWrite (cmdAddr k) 4 w s = .next (writeLoc (.cmdWord k.val) w s) := by
  rw [cmdAddr, hostWrite_windowAddr, windowWrite_aligned w s (by omega) (by omega), locationAt_cmd]

theorem hostRead_cmdAddr (k : Fin 256) (s : State) : hostRead (cmdAddr k) 4 s = .next (s.cmdWord k.val) := by
  rw [cmdAddr, hostRead_windowAddr, windowRead_aligned s (by omega) (by omega), locationAt_cmd]
  rfl

theorem hostWrite_ctrlAddr (w : Word32) (s : State) : hostWrite ctrlAddr 4 w s = .next (ctrlWrite w s) := by
  rw [ctrlAddr, hostWrite_windowAddr, windowWrite_aligned w s (by omega) (by omega)]
  rfl

/-- A taken write is an aligned four-byte write at an offset of the window (R55, R56). -/
theorem hostWrite_next {addr size : Nat} {w : Word32} {s t : State} (h : hostWrite addr size w s = .next t) :
    ∃ off, addr = windowAddr off ∧ size = 4 ∧ off % 4 = 0 ∧ off < 2048 ∧ t = writeLoc (locationAt off) w s := by
  unfold hostWrite at h
  split_ifs at h with hb
  unfold windowWrite locate at h
  split_ifs at h with hl
  refine ⟨addr - Config.base, ?_, hl.1, hl.2.1, hl.2.2, by simpa using h.symm⟩
  simp only [windowAddr]
  omega

/-! ## Words of a register (R53 a, R55) -/

theorem wordOf_toNat (v : Word128) (j : Nat) : (wordOf v j).toNat = wordAt v j := by
  simp [wordOf, wordAt, BitVec.extractLsb'_toNat, Nat.shiftRight_eq_div_pow]

theorem getLsbD_wordOf (v : Word128) (j i : Nat) : (wordOf v j).getLsbD i = (decide (i < 32) && v.getLsbD (32 * j + i)) := by
  simp [wordOf, BitVec.getLsbD_extractLsb']

theorem getLsbD_low_ones (i : Nat) : (0xFFFFFFFF#128).getLsbD i = decide (i < 32) := by
  have h : (0xFFFFFFFF#128) = (BitVec.allOnes 32).setWidth 128 := by decide
  rw [h, BitVec.getLsbD_setWidth, BitVec.getLsbD_allOnes]
  by_cases hi : i < 32
  · simp [hi]
    omega
  · simp [hi]

/-- A replaced word is the new one, the other three are kept (R55). -/
theorem wordOf_replaceWord (v : Word128) (w : Word32) {j k : Nat} (hj : j < 4) (hk : k < 4) :
    wordOf (replaceWord v j w) k = if k = j then w else wordOf v k := by
  apply BitVec.eq_of_getLsbD_eq
  intro i hi
  rw [getLsbD_wordOf]
  simp only [replaceWord, BitVec.getLsbD_or, BitVec.getLsbD_and, BitVec.getLsbD_not, BitVec.getLsbD_shiftLeft,
    BitVec.getLsbD_setWidth, getLsbD_low_ones]
  have h2 : 32 * k + i < 128 := by omega
  rcases Nat.lt_trichotomy k j with h | rfl | h
  · have h1 : 32 * k + i < 32 * j := by omega
    rw [if_neg h.ne, getLsbD_wordOf]
    simp [h1, h2, hi, -BitVec.getLsbD_eq_getElem]
  · have h3 : i < 128 := by omega
    simp [h2, h3, hi, -BitVec.getLsbD_eq_getElem]
  · have h1 : ¬ 32 * k + i < 32 * j := by omega
    have h3 : ¬ 32 * k + i - 32 * j < 32 := by omega
    have h4 : w.getLsbD (32 * k + i - 32 * j) = false := BitVec.getLsbD_of_ge _ _ (by omega)
    rw [if_neg h.ne', getLsbD_wordOf]
    simp [h1, h2, h3, h4, hi, -BitVec.getLsbD_eq_getElem]

/-- A value is determined by its four words (R53 a). -/
theorem eq_of_words {v v' : Word128} (h : ∀ j, j < 4 → wordOf v j = wordOf v' j) : v = v' := by
  apply BitVec.eq_of_getLsbD_eq
  intro i hi
  have hb := congrArg (fun w => w.getLsbD (i % 32)) (h (i / 32) (by omega))
  simp only [getLsbD_wordOf, show i % 32 < 32 by omega, show 32 * (i / 32) + i % 32 = i by omega, decide_true,
    Bool.true_and] at hb
  exact hb

/-! ## Writes -/

/-- While RUN, a write of a register word, a command word or PC is ignored (R55). -/
theorem unlessRunning_run {f : State → State} {s : State} (h : s.runState = .run) : unlessRunning f s = s := by
  simp [unlessRunning, h]

/-- Outside RUN such a write is taken (R55). -/
theorem unlessRunning_of_not_run {f : State → State} {s : State} (h : s.runState ≠ .run) : unlessRunning f s = f s := by
  unfold unlessRunning
  split
  · contradiction
  · rfl
  · rfl
  · rfl

/-- What a write of CTRL can do (R32). -/
theorem ctrlWrite_cases (w : Word32) (s : State) :
    (w.getLsbD 2 = true ∧ ctrlWrite w s = softReset s) ∨
    (w.getLsbD 2 = false ∧ w.getLsbD 1 = false ∧ w.getLsbD 0 = false ∧ ctrlWrite w s = s) ∨
    (w.getLsbD 2 = false ∧ w.getLsbD 1 = true ∧ w.getLsbD 0 = false ∧ ctrlWrite w s = clearRun s) ∨
    (w.getLsbD 2 = false ∧ w.getLsbD 1 = false ∧ w.getLsbD 0 = true ∧ ctrlWrite w s = startRun s) ∨
    (w.getLsbD 2 = false ∧ w.getLsbD 1 = true ∧ w.getLsbD 0 = true ∧ ctrlWrite w s = startRun (clearRun s)) := by
  cases h2 : w.getLsbD 2 <;> cases h1 : w.getLsbD 1 <;> cases h0 : w.getLsbD 0 <;>
    simp [ctrlWrite, h2, h1, h0, -BitVec.getLsbD_eq_getElem]

/-- The command words that a write can reach lie inside CMDBUF (R51). -/
theorem locationAt_cmdWord_lt {off k : Nat} (hl : off < 2048) (h : locationAt off = .cmdWord k) : k < 256 := by
  unfold locationAt at h
  split_ifs at h
  · split at h <;> cases h
  · cases h
    omega

/-- CTRL stands at one aligned offset (R30, R51). -/
theorem locationAt_ctrl {off : Nat} (ha : off % 4 = 0) (h : locationAt off = .control .ctrl) : off = 4 := by
  unfold locationAt at h
  split_ifs at h
  split at h
  · next c hc =>
    cases h
    unfold ctlRegAt at hc
    split at hc <;> first
      | omega
      | cases hc
  · cases h

/-- The things a taken host write can do: a write of CTRL, at CTRL's address, of PC outside RUN, of IE, of a register word or a
command word outside RUN, or nothing (R320). -/
inductive WriteEffect (addr : Nat) (w : Word32) (s : State) : State → Prop where
  | ctrl : addr = ctrlAddr → WriteEffect addr w s (ctrlWrite w s)
  | pc : s.runState ≠ .run → WriteEffect addr w s (s.setPc (w.setWidth 16))
  | ie : WriteEffect addr w s { s with ie := w.setWidth 2 }
  | regWord (r : Reg) (j : Fin 4) : s.runState ≠ .run → WriteEffect addr w s (s.setReg r (replaceWord (s.reg r) j.val w))
  | cmdWord (k : Nat) : k < 256 → s.runState ≠ .run → WriteEffect addr w s (s.setCmdWord k w)
  | nothing : WriteEffect addr w s s

theorem writeEffect_unlessRunning {f : State → State} {addr : Nat} {w : Word32} {s : State}
    (hf : s.runState ≠ .run → WriteEffect addr w s (f s)) : WriteEffect addr w s (unlessRunning f s) := by
  by_cases h : s.runState = .run
  · rw [unlessRunning_run h]
    exact .nothing
  · rw [unlessRunning_of_not_run h]
    exact hf h

/-- What a taken write can do; it is four bytes wide. -/
theorem hostWrite_cases {addr size : Nat} {w : Word32} {s t : State} (h : hostWrite addr size w s = .next t) :
    size = 4 ∧ WriteEffect addr w s t := by
  obtain ⟨off, rfl, rfl, ha, hl, rfl⟩ := hostWrite_next h
  refine ⟨rfl, ?_⟩
  rcases hloc : locationAt off with c | _ | ⟨r, j⟩ | k
  · cases c with
    | ctrl => exact .ctrl (by rw [locationAt_ctrl ha hloc]; rfl)
    | pc => exact writeEffect_unlessRunning (f := fun t => t.setPc (w.setWidth 16)) .pc
    | ie => exact .ie
    | _ => exact .nothing
  · exact .nothing
  · exact writeEffect_unlessRunning (f := fun t => t.setReg r (replaceWord (t.reg r) j.val w)) (.regWord r j)
  · exact writeEffect_unlessRunning (f := fun t => t.setCmdWord k w) (.cmdWord k (locationAt_cmdWord_lt hl hloc))

end Sys2Proof.Machine
end

