-- ==== Sys2Proof/Laws/PerInstr.lean ====
section
/-! SUPPORT. A family of statements made per command: the opcode field of the word that `encode` writes is the opcode of the
command's row of R77 (30_encoding.md R70, R77). -/

namespace Sys2Proof.Laws.OpcodeField

/-- The opcode column of R77. -/
def opcodeNumber : Instr → Nat
  | .nop => 0x01
  | .halt => 0x02
  | .jmp _ => 0x03
  | .bz _ _ => 0x04
  | .bnz _ _ => 0x05
  | .mov _ _ => 0x08
  | .ldi _ _ => 0x09
  | .ldis _ _ => 0x0A
  | .ldc _ _ => 0x0B
  | .make _ _ _ => 0x0C
  | .lo _ _ => 0x0D
  | .hi _ _ => 0x0E
  | .isnarrow _ _ => 0x0F
  | .ceq _ _ _ => 0x10
  | .cne _ _ _ => 0x11
  | .clt _ _ _ => 0x12
  | .cle _ _ _ => 0x13
  | .cgt _ _ _ => 0x14
  | .cge _ _ _ => 0x15
  | .and _ _ _ => 0x18
  | .or _ _ _ => 0x19
  | .shl _ _ _ => 0x1C
  | .shr _ _ _ => 0x1D
  | .shli _ _ _ => 0x1E
  | .shri _ _ _ => 0x1F
  | .add _ _ _ => 0x20
  | .sub _ _ _ => 0x21
  | .mul64 _ _ _ => 0x28
  | .sqr64 _ _ => 0x29
  | .mul _ _ _ => 0x2A
  | .div _ _ _ => 0x30
  | .mod _ _ _ => 0x31
  | .divrem _ _ _ _ => 0x32
  | .absu _ _ _ => 0x38
  | .mulmod _ _ _ _ => 0x39
  | .modpow _ _ _ _ => 0x3A
  | .gcd _ _ _ => 0x40
  | .iscoprime _ _ _ => 0x41
  | .isprime _ _ => 0x42

/-- The opcode field of the encoded word is the opcode of R77. -/
def Statement (i : Instr) : Prop := opcodeOf (encode i) = opcodeNumber i

theorem nop : Statement .nop := (wordR_fields _ _ _ _ _ (by decide)).1
theorem halt : Statement .halt := (wordR_fields _ _ _ _ _ (by decide)).1
theorem jmp (off : Int) : Statement (.jmp off) := (wordI_fields _ _ _ _ (by decide)).1
theorem bz (rs1 : Reg) (off : Int) : Statement (.bz rs1 off) := (wordI_fields _ _ _ _ (by decide)).1
theorem bnz (rs1 : Reg) (off : Int) : Statement (.bnz rs1 off) := (wordI_fields _ _ _ _ (by decide)).1
theorem mov (rd : Reg) (rs1 : Reg) : Statement (.mov rd rs1) := (wordR_fields _ _ _ _ _ (by decide)).1
theorem ldi (rd : Reg) (imm : Nat) : Statement (.ldi rd imm) := (wordI_fields _ _ _ _ (by decide)).1
theorem ldis (rd : Reg) (imm : Nat) : Statement (.ldis rd imm) := (wordI_fields _ _ _ _ (by decide)).1
theorem ldc (rd : Reg) (k : LdcConst) : Statement (.ldc rd k) := (wordI_fields _ _ _ _ (by decide)).1
theorem make (rd : Reg) (rs1 : Reg) (rs2 : Reg) : Statement (.make rd rs1 rs2) := (wordR_fields _ _ _ _ _ (by decide)).1
theorem lo (rd : Reg) (rs1 : Reg) : Statement (.lo rd rs1) := (wordR_fields _ _ _ _ _ (by decide)).1
theorem hi (rd : Reg) (rs1 : Reg) : Statement (.hi rd rs1) := (wordR_fields _ _ _ _ _ (by decide)).1
theorem isnarrow (rd : Reg) (rs1 : Reg) : Statement (.isnarrow rd rs1) := (wordR_fields _ _ _ _ _ (by decide)).1
theorem ceq (rd : Reg) (rs1 : Reg) (rs2 : Reg) : Statement (.ceq rd rs1 rs2) := (wordR_fields _ _ _ _ _ (by decide)).1
theorem cne (rd : Reg) (rs1 : Reg) (rs2 : Reg) : Statement (.cne rd rs1 rs2) := (wordR_fields _ _ _ _ _ (by decide)).1
theorem clt (rd : Reg) (rs1 : Reg) (rs2 : Reg) : Statement (.clt rd rs1 rs2) := (wordR_fields _ _ _ _ _ (by decide)).1
theorem cle (rd : Reg) (rs1 : Reg) (rs2 : Reg) : Statement (.cle rd rs1 rs2) := (wordR_fields _ _ _ _ _ (by decide)).1
theorem cgt (rd : Reg) (rs1 : Reg) (rs2 : Reg) : Statement (.cgt rd rs1 rs2) := (wordR_fields _ _ _ _ _ (by decide)).1
theorem cge (rd : Reg) (rs1 : Reg) (rs2 : Reg) : Statement (.cge rd rs1 rs2) := (wordR_fields _ _ _ _ _ (by decide)).1
theorem and (rd : Reg) (rs1 : Reg) (rs2 : Reg) : Statement (.and rd rs1 rs2) := (wordR_fields _ _ _ _ _ (by decide)).1
theorem or (rd : Reg) (rs1 : Reg) (rs2 : Reg) : Statement (.or rd rs1 rs2) := (wordR_fields _ _ _ _ _ (by decide)).1
theorem shl (rd : Reg) (rs1 : Reg) (rs2 : Reg) : Statement (.shl rd rs1 rs2) := (wordR_fields _ _ _ _ _ (by decide)).1
theorem shr (rd : Reg) (rs1 : Reg) (rs2 : Reg) : Statement (.shr rd rs1 rs2) := (wordR_fields _ _ _ _ _ (by decide)).1
theorem shli (rd : Reg) (rs1 : Reg) (amount : Nat) : Statement (.shli rd rs1 amount) := (wordI_fields _ _ _ _ (by decide)).1
theorem shri (rd : Reg) (rs1 : Reg) (amount : Nat) : Statement (.shri rd rs1 amount) := (wordI_fields _ _ _ _ (by decide)).1
theorem add (rd : Reg) (rs1 : Reg) (rs2 : Reg) : Statement (.add rd rs1 rs2) := (wordR_fields _ _ _ _ _ (by decide)).1
theorem sub (rd : Reg) (rs1 : Reg) (rs2 : Reg) : Statement (.sub rd rs1 rs2) := (wordR_fields _ _ _ _ _ (by decide)).1
theorem mul64 (rd : Reg) (rs1 : Reg) (rs2 : Reg) : Statement (.mul64 rd rs1 rs2) := (wordR_fields _ _ _ _ _ (by decide)).1
theorem sqr64 (rd : Reg) (rs1 : Reg) : Statement (.sqr64 rd rs1) := (wordR_fields _ _ _ _ _ (by decide)).1
theorem mul (rd : Reg) (rs1 : Reg) (rs2 : Reg) : Statement (.mul rd rs1 rs2) := (wordR_fields _ _ _ _ _ (by decide)).1
theorem div (rd : Reg) (rs1 : Reg) (rs2 : Reg) : Statement (.div rd rs1 rs2) := (wordR_fields _ _ _ _ _ (by decide)).1
theorem mod (rd : Reg) (rs1 : Reg) (rs2 : Reg) : Statement (.mod rd rs1 rs2) := (wordR_fields _ _ _ _ _ (by decide)).1
theorem divrem (rd : Reg) (rd2 : Reg) (rs1 : Reg) (rs2 : Reg) : Statement (.divrem rd rd2 rs1 rs2) := (wordR_fields _ _ _ _ _ (by decide)).1
theorem absu (rd : Reg) (rs1 : Reg) (w : AbsWidth) : Statement (.absu rd rs1 w) := (wordI_fields _ _ _ _ (by decide)).1
theorem mulmod (rd : Reg) (rs1 : Reg) (rs2 : Reg) (rs3 : Reg) : Statement (.mulmod rd rs1 rs2 rs3) := (wordR_fields _ _ _ _ _ (by decide)).1
theorem modpow (rd : Reg) (rs1 : Reg) (rs2 : Reg) (rs3 : Reg) : Statement (.modpow rd rs1 rs2 rs3) := (wordR_fields _ _ _ _ _ (by decide)).1
theorem gcd (rd : Reg) (rs1 : Reg) (rs2 : Reg) : Statement (.gcd rd rs1 rs2) := (wordR_fields _ _ _ _ _ (by decide)).1
theorem iscoprime (rd : Reg) (rs1 : Reg) (rs2 : Reg) : Statement (.iscoprime rd rs1 rs2) := (wordR_fields _ _ _ _ _ (by decide)).1
theorem isprime (rd : Reg) (rs1 : Reg) : Statement (.isprime rd rs1) := (wordR_fields _ _ _ _ _ (by decide)).1

end Sys2Proof.Laws.OpcodeField
end

