-- ==== Sys2Proof/Laws/Prime.lean ====
section
/-! SUPPORT. Facts of the modular and prime units (45_modular.md, 46_prime.md): a common factor of base and modulus divides every
power, the trailing-zero count finds a set bit, and with them a witness table that has the property of R222 by elementary means:
every prime below `2^32` as a witness. It shows that R222 can be met; the engine's own table is R223's. -/

namespace Sys2Proof.Machine

theorem mulMod64_dvd {p : Nat} {a b m : Word64} (hm : p ∣ m.toNat) (h : p ∣ a.toNat ∨ p ∣ b.toNat) :
    p ∣ (mulMod64 a b m).toNat := by
  rw [mulMod64_toNat]
  split_ifs
  · exact dvd_zero p
  · exact (Nat.dvd_mod_iff hm).2 (h.elim (fun h => h.mul_right _) (fun h => h.mul_left _))

/-- A common factor of base and modulus divides the result of the loop of R195 once a factor of the base has entered it. -/
theorem modPowLoop_dvd {p : Nat} {m : Word64} (hm : p ∣ m.toNat) (turns : Nat) : ∀ acc base e : Word64,
    p ∣ base.toNat → (p ∣ acc.toNat ∨ (e ≠ 0 ∧ e.toNat < 2 ^ turns)) → p ∣ (modPowLoop turns acc base e m).toNat := by
  induction turns with
  | zero =>
    intro acc base e _ h
    rcases h with h | ⟨h0, h1⟩
    · exact h
    · exact absurd (BitVec.eq_of_toNat_eq (by simpa using h1)) h0
  | succ n ih =>
    intro acc base e hb h
    rw [modPowLoop]
    split_ifs with he hbit
    · exact h.elim id fun h => absurd he h.1
    · exact ih _ _ _ (mulMod64_dvd hm (.inl hb)) (.inl (mulMod64_dvd hm (.inr hb)))
    · refine ih _ _ _ (mulMod64_dvd hm (.inl hb)) (h.imp id fun h => ?_)
      have hodd : e.toNat % 2 = 0 := by
        have := Nat.testBit_zero e.toNat
        rw [← BitVec.getLsbD, Bool.eq_false_iff.2 hbit] at this
        simpa using this.symm
      have hne : e.toNat ≠ 0 := fun h0 => h.1 (BitVec.eq_of_toNat_eq h0)
      have hs : (e >>> 1).toNat = e.toNat / 2 := by simp [Nat.shiftRight_eq_div_pow]
      refine ⟨fun h0 => ?_, ?_⟩
      · rw [h0] at hs
        simp only [BitVec.ofNat_eq_ofNat, BitVec.toNat_ofNat, Nat.zero_mod] at hs
        omega
      · rw [hs]
        have := h.2
        rw [pow_succ] at this
        omega

theorem modPow64_dvd {p : Nat} {b e m : Word64} (hm : p ∣ m.toNat) (hb : p ∣ b.toNat) (he : e ≠ 0) :
    p ∣ (modPow64 b e m).toNat := by
  rw [modPow64]
  split_ifs
  · exact dvd_zero p
  · refine modPowLoop_dvd hm 64 _ _ _ ?_ (.inr ⟨he, e.isLt⟩)
    rw [BitVec.toNat_umod]
    exact (Nat.dvd_mod_iff hm).2 hb

theorem trailingZerosFrom_spec (turns : Nat) : ∀ (k : Nat) (v : Word64),
    (∃ j, k ≤ j ∧ j < k + turns ∧ v.getLsbD j = true) → v.getLsbD (trailingZerosFrom turns k v) = true := by
  induction turns with
  | zero =>
    rintro k v ⟨j, h1, h2, -⟩
    omega
  | succ n ih =>
    rintro k v ⟨j, h1, h2, h3⟩
    rw [trailingZerosFrom]
    split_ifs with hb
    · exact hb
    · refine ih _ _ ⟨j, ?_, by omega, h3⟩
      rcases Nat.eq_or_lt_of_le h1 with rfl | h
      · exact absurd h3 hb
      · exact h

/-- The bit that `TrailingZeros_64` finds is set (R15). -/
theorem getLsbD_trailingZeros64 {v : Word64} (h : v ≠ 0) : v.getLsbD (trailingZeros64 v) = true := by
  refine trailingZerosFrom_spec 64 0 v ?_
  by_contra hn
  refine h (BitVec.eq_of_getLsbD_eq fun i hi => ?_)
  by_contra hb
  exact hn ⟨i, by omega, by omega, by simpa using hb⟩

/-- The odd part `d` of R225 is not zero. -/
theorem shiftRight_trailingZeros64_ne_zero {v : Word64} (h : v ≠ 0) : v >>> trailingZeros64 v ≠ 0 := by
  intro h0
  have hb := getLsbD_trailingZeros64 h
  have := congrArg (fun w => w.getLsbD 0) h0
  simp [-BitVec.getLsbD_eq_getElem] at this
  rw [this] at hb
  cases hb

theorem squaresReach_of_factor {p : Nat} {v : Word64} (hv : p ∣ v.toNat) (hn : ¬ p ∣ (v - 1).toNat) (turns : Nat) :
    ∀ x : Word64, p ∣ x.toNat → squaresReach turns x v = false := by
  induction turns with
  | zero => exact fun _ _ => rfl
  | succ n ih =>
    intro x hx
    have hsq := mulMod64_dvd hv (.inl hx) (b := x)
    have hne : mulMod64 x x v ≠ v - 1 := fun h => hn (h ▸ hsq)
    rw [squaresReach, if_neg hne]
    exact ih _ hsq

/-- A proper factor of `v`, taken as a witness, rejects `v`. -/
theorem witnessPasses_of_factor {v a d : Word64} {s : Nat} (ha : a.toNat ∣ v.toNat) (h1 : 1 < a.toNat)
    (hlt : a.toNat < v.toNat) (hd : d ≠ 0) : witnessPasses v d s a = false := by
  have hv1 : (v - 1).toNat = v.toNat - 1 := by
    rw [BitVec.toNat_sub_of_le (by rw [BitVec.le_def]; simp; omega)]
    rfl
  have hn : ¬ a.toNat ∣ (v - 1).toNat := by
    rw [hv1]
    intro h
    have := (Nat.dvd_sub_iff_right (by omega) ha).1 h
    rw [Nat.dvd_one] at this
    omega
  have hx := modPow64_dvd ha (dvd_refl a.toNat) hd
  have e1 : ¬ v ≤ a := by
    rw [BitVec.le_def]
    omega
  have e2 : ¬ a < 2 := by
    rw [BitVec.lt_def]
    simp
    omega
  have e3 : modPow64 a d v ≠ 1 := by
    intro h
    rw [h] at hx
    have := Nat.dvd_one.1 hx
    omega
  have e4 : modPow64 a d v ≠ v - 1 := fun h => hn (h ▸ hx)
  have b3 : (modPow64 a d v == 1) = false := beq_eq_false_iff_ne.2 e3
  have b4 : (modPow64 a d v == v - 1) = false := beq_eq_false_iff_ne.2 e4
  simp only [witnessPasses, if_neg e1, if_neg e2, b3, b4, squaresReach_of_factor ha hn _ _ hx, Bool.or_self]

/-- The numbers below `n`, as witnesses. -/
def witnessesBelow (n : Nat) : List Word64 := (List.range n).map (BitVec.ofNat 64)

theorem mem_witnessesBelow {n p : Nat} (h : p < n) : BitVec.ofNat 64 p ∈ witnessesBelow n :=
  List.mem_map.2 ⟨p, List.mem_range.2 h, rfl⟩

/-- One row: every number below `n` is a witness for every 64-bit value. -/
def exhaustiveTable (n : Nat) : WitnessTable := [(2 ^ 64, witnessesBelow n)]

/-- Witnesses that include every number below `2^32` certify every 64-bit value: a composite has a factor among them. -/
theorem certifiesBelow_of_factors {ws : List Word64} (h : ∀ p, p < 2 ^ 32 → BitVec.ofNat 64 p ∈ ws) :
    CertifiesBelow (2 ^ 64) ws := by
  intro v _ hnp hlow _ _
  simp only [Config.trialLimit] at hlow
  have hlt := v.isLt
  have hp := Nat.minFac_prime (n := v.toNat) (by omega)
  have hsq : v.toNat.minFac ^ 2 ≤ v.toNat := Nat.minFac_sq_le_self (by omega) hnp
  have hsmall : v.toNat.minFac < 2 ^ 32 := by
    by_contra h
    have := Nat.pow_le_pow_left (Nat.not_lt.1 h) 2
    omega
  have hone := hp.one_lt
  have htoNat : (BitVec.ofNat 64 v.toNat.minFac).toNat = v.toNat.minFac := by
    rw [BitVec.toNat_ofNat, Nat.mod_eq_of_lt (by omega)]
  have hv0 : v - 1 ≠ 0 := by
    intro h
    have h1 : v = 1 := by
      have := congrArg (· + 1) h
      simpa using this
    rw [h1] at hlow
    exact absurd hlow (by decide)
  rw [millerRabin, List.all_eq_false]
  refine ⟨BitVec.ofNat 64 v.toNat.minFac, h _ hsmall, ?_⟩
  rw [witnessPasses_of_factor (by rw [htoNat]; exact Nat.minFac_dvd _) (by rw [htoNat]; exact hone) ?_
    (shiftRight_trailingZeros64_ne_zero hv0)]
  · simp
  · rw [htoNat]
    nlinarith

/-- R222 can be met: trying every number below `2^32` as a witness rejects every odd composite. -/
theorem exhaustiveTable_suffices {n : Nat} (hn : 2 ^ 32 ≤ n) : WitnessTableSuffices (exhaustiveTable n) where
  rising := List.pairwise_singleton _ _
  covers := ⟨_, List.mem_singleton_self _, Nat.le_refl _⟩
  certifies := by
    intro row hrow
    rw [exhaustiveTable, List.mem_singleton] at hrow
    rw [hrow]
    exact certifiesBelow_of_factors fun p hp => mem_witnessesBelow (Nat.lt_of_lt_of_le hp hn)

end Sys2Proof.Machine
end

