-- ==== Sys2Proof/Laws/Step.lean ====
section
/-! SUPPORT. What a command and a step can do, said once. Every command answers a next state of one of six forms (`exec_cases`);
invariants and frames of all commands follow from these forms. -/

namespace Sys2Proof.Machine

/-- The six forms of a command's effect: a plain advance, HALT, a taken branch, one register written, two registers written, or
DIVZERO. -/
inductive CommandEffect (i : Instr) (s : State) : State → Prop where
  | advance : CommandEffect i s s.advance
  | halt : i = .halt → CommandEffect i s (s.advance.setRunState .done)
  | branch (off : Int) : CommandEffect i s (s.branch off)
  | write (rd : Reg) (v : Word128) : CommandEffect i s (s.writeResult rd v)
  | writeTwo (rd rd2 : Reg) (v w : Word128) : CommandEffect i s ((s.setReg rd v).writeResult rd2 w)
  | divzero (r : Reg) : divisorOf i = some r → s.reg r = 0 → CommandEffect i s (takeFault .divzero (encode i) s)

/-- Every command answers a next state, and it is of one of the six forms (R318: each command is a total function). -/
theorem exec_cases (i : Instr) (s : State) : ∃ t, exec i s = .next t ∧ CommandEffect i s t := by
  cases i with
  | nop => exact ⟨_, rfl, .advance⟩
  | halt => exact ⟨_, rfl, .halt rfl⟩
  | jmp off => exact ⟨_, rfl, .branch off⟩
  | bz rs1 off =>
    refine ⟨_, rfl, ?_⟩
    unfold branchIf
    split_ifs
    · exact .branch off
    · exact .advance
  | bnz rs1 off =>
    refine ⟨_, rfl, ?_⟩
    unfold branchIf
    split_ifs
    · exact .branch off
    · exact .advance
  | div rd rs1 rs2 =>
    simp only [exec, execDiv, divideOrFault]
    split_ifs with h
    · exact ⟨_, rfl, .divzero rs2 rfl h⟩
    · exact ⟨_, rfl, .write _ _⟩
  | mod rd rs1 rs2 =>
    simp only [exec, execMod, divideOrFault]
    split_ifs with h
    · exact ⟨_, rfl, .divzero rs2 rfl h⟩
    · exact ⟨_, rfl, .write _ _⟩
  | divrem rd rd2 rs1 rs2 =>
    simp only [exec, execDivrem, divideOrFault]
    split_ifs with h
    · exact ⟨_, rfl, .divzero rs2 rfl h⟩
    · exact ⟨_, rfl, .writeTwo _ _ _ _⟩
  | _ => exact ⟨_, rfl, .write _ _⟩

/-- The form of the state a command answers. -/
theorem exec_next_cases {i : Instr} {s t : State} (h : exec i s = .next t) : CommandEffect i s t := by
  obtain ⟨u, hu, he⟩ := exec_cases i s
  rw [hu] at h
  cases h
  exact he

/-- A step in RUN: a fetch fault, a decode fault, or the command at `pc` (R80). -/
theorem step_run_cases {s t : State} (hr : s.runState = .run) (h : step s = .next t) :
    (Config.cmdbufWords ≤ s.pc.toNat ∧ t = takeFault .fetchrange 0 s) ∨
      (s.pc.toNat < Config.cmdbufWords ∧ (∃ e, decodeWord (s.cmdWord s.pc.toNat) = .error e) ∧
        t = takeFault .illegal (s.cmdWord s.pc.toNat) s) ∨
      (s.pc.toNat < Config.cmdbufWords ∧ ∃ i, decodeWord (s.cmdWord s.pc.toNat) = .ok i ∧ CommandEffect i s t) := by
  simp only [step, hr, fetchNext] at h
  split_ifs at h with hp
  · exact .inl ⟨hp, by simpa using h.symm⟩
  · rcases hd : decodeWord (s.cmdWord s.pc.toNat) with e | i
    · simp only [hd] at h
      exact .inr (.inl ⟨by omega, ⟨e, rfl⟩, by simpa using h.symm⟩)
    · simp only [hd] at h
      exact .inr (.inr ⟨by omega, i, rfl, exec_next_cases h⟩)

/-- Outside RUN a step keeps the state (R297). -/
theorem step_of_not_run {s : State} (h : s.runState ≠ .run) : step s = .next s := by
  unfold step
  split
  · contradiction
  · rfl
  · rfl
  · rfl

end Sys2Proof.Machine
end

