-- ==== Sys2Proof/Laws/Words.lean ====
section
/-! SUPPORT. The words written field by field in Sys2Proof/Safety.lean are those that the encoder writes (30_encoding.md R71 to
R73). -/

namespace Sys2Proof.Machine

theorem regBits_toNat (r : Reg) : (regBits r).toNat = r.val := by
  have := r.isLt
  simp only [regBits, BitVec.toNat_ofNat]
  omega

/-- An appended field, as a number: the bits above it and the field. -/
theorem toNat_append_field {m n : Nat} (a : BitVec m) (b : BitVec n) : (a ++ b).toNat = a.toNat * 2 ^ n + b.toNat := by
  rw [BitVec.toNat_append, ← Nat.shiftLeft_add_eq_or_of_lt b.isLt, Nat.shiftLeft_eq]

theorem fmtR_eq (op : BitVec 8) (rd rs1 rs2 rs3 : Reg) : fmtR op rd rs1 rs2 rs3 = wordR op.toNat rd rs1 rs2 rs3 := by
  apply BitVec.eq_of_toNat_eq
  have := op.isLt
  rw [wordR_toNat _ _ _ _ _ this]
  simp only [fmtR, toNat_append_field, regBits_toNat, BitVec.toNat_ofNat]
  omega

theorem fmtI_eq (op : BitVec 8) (rd rs1 : Reg) (imm : BitVec 16) : fmtI op rd rs1 imm = wordI op.toNat rd rs1 imm.toNat := by
  apply BitVec.eq_of_toNat_eq
  have := op.isLt
  have := imm.isLt
  rw [wordI_toNat _ _ _ _ ‹_›]
  simp only [fmtI, toNat_append_field, regBits_toNat]
  omega

theorem fmtB_eq (op : BitVec 8) (rs1 : Reg) (off : BitVec 16) : fmtB op rs1 off = wordI op.toNat 0 rs1 off.toNat := by
  rw [← fmtI_eq]
  rfl

/-- A signed offset as the sixteen bits that the encoder takes (R75 e). -/
theorem off16Bits_toInt (o : BitVec 16) : off16Bits o.toInt = o.toNat := by
  have := o.isLt
  rw [BitVec.toInt_eq_toNat_cond, off16Bits]
  split_ifs <;> omega

theorem sext16_toNat (o : BitVec 16) : sext16 o.toNat = o.toInt := by
  rw [BitVec.toInt_eq_toNat_cond, sext16]
  split_ifs <;> omega

end Sys2Proof.Machine
end

