-- ==== Sys2Proof/Tests/Slice0.lean ====
section
/-! SUPPORT. The model's own tests. Expected values are the spec's examples and corner cases (the rule of each test is named), or
worked out by hand from its encodings. The theorems `witness_<Name>` show states and operands that meet the hypotheses of the
statement of that name, at boundary values. -/

namespace Sys2Proof.Tests

open Sys2Proof Sys2Proof.Machine

/-! ## Helpers -/

/-- The machine right after reset, running at `p`. -/
def runningAt (p : Word16) : State := (State.reset.setPc p).setRunState .run

/-- The word `w` at index `p`, the machine running there. -/
def placed (p : Word16) (w : Word32) : State := (runningAt p).setCmdWord p.toNat w

/-- Registers set from a list. -/
def withRegs (s : State) : List (Reg × Word128) → State
  | [] => s
  | (r, v) :: rest => withRegs (s.setReg r v) rest

/-- What a register holds after one step that runs the word `w` on the given registers. -/
def after (w : Word32) (regs : List (Reg × Word128)) (r : Reg) : Option Word128 :=
  match step (withRegs (placed 0 w) regs) with
  | .next t => some (t.reg r)
  | .fault _ | .refused _ => none

/-- `pc` and STATE after one step that runs the word `w` at index `p`. -/
def flow (p : Word16) (w : Word32) (regs : List (Reg × Word128)) : Option (Word16 × RunState) :=
  match step (withRegs (placed p w) regs) with
  | .next t => some (t.pc, t.runState)
  | .fault _ | .refused _ => none

/-- FCAUSE, FPC, FCMD, `pc` and STATE after one step. -/
def faultOf (s : State) : Option (FaultCause × Word16 × Word32 × Word16 × RunState) :=
  match step s with
  | .next t => some (t.fcause, t.fpc, t.fcmd, t.pc, t.runState)
  | .fault _ | .refused _ => none

/-! ## WellFormed: an ill-formed command for each check -/

theorem test_wf_ldi_too_large : (Instr.ldi 1 65536).wellFormed = false := by decide
theorem test_wf_ldis_too_large : (Instr.ldis 1 65536).wellFormed = false := by decide
theorem test_wf_shli_128 : (Instr.shli 1 2 128).wellFormed = false := by decide
theorem test_wf_shri_128 : (Instr.shri 1 2 128).wellFormed = false := by decide
theorem test_wf_jmp_too_far : (Instr.jmp 32768).wellFormed = false := by decide
theorem test_wf_bz_too_far_back : (Instr.bz 1 (-32769)).wellFormed = false := by decide
theorem test_wf_bnz_too_far : (Instr.bnz 1 32768).wellFormed = false := by decide
theorem test_wf_bounds : ((Instr.ldi 1 65535).wellFormed && (Instr.shli 1 2 127).wellFormed &&
    (Instr.jmp (-32768)).wellFormed && (Instr.bz 1 32767).wellFormed) = true := by decide

/-! ## Decoding: one word of every command, written out field by field as R71 to R73 and R77 give it -/

theorem test_decode_control :
    decodeWord (0x01#8 ++ 0#24) = .ok .nop ∧ decodeWord (0x02#8 ++ 0#24) = .ok .halt ∧
    decodeWord (0x03#8 ++ 0#4 ++ 0#4 ++ 0xFFFB#16) = .ok (.jmp (-5)) ∧
    decodeWord (0x04#8 ++ 0#4 ++ 5#4 ++ 0x7FFF#16) = .ok (.bz 5 32767) ∧
    decodeWord (0x05#8 ++ 0#4 ++ 7#4 ++ 0x8000#16) = .ok (.bnz 7 (-32768)) := by decide

theorem test_decode_move :
    decodeWord (0x08#8 ++ 2#4 ++ 1#4 ++ 0#16) = .ok (.mov 2 1) ∧
    decodeWord (0x09#8 ++ 1#4 ++ 0#4 ++ 0xFFFF#16) = .ok (.ldi 1 65535) ∧
    decodeWord (0x0A#8 ++ 1#4 ++ 0#4 ++ 0xABCD#16) = .ok (.ldis 1 0xABCD) ∧
    decodeWord (0x0B#8 ++ 5#4 ++ 0#4 ++ 0#14 ++ 2#2) = .ok (.ldc 5 .max) ∧
    decodeWord (0x0C#8 ++ 3#4 ++ 1#4 ++ 2#4 ++ 0#12) = .ok (.make 3 1 2) ∧
    decodeWord (0x0D#8 ++ 2#4 ++ 1#4 ++ 0#16) = .ok (.lo 2 1) ∧
    decodeWord (0x0E#8 ++ 2#4 ++ 1#4 ++ 0#16) = .ok (.hi 2 1) ∧
    decodeWord (0x0F#8 ++ 2#4 ++ 1#4 ++ 0#16) = .ok (.isnarrow 2 1) := by decide

theorem test_decode_compare :
    decodeWord (0x10#8 ++ 3#4 ++ 1#4 ++ 2#4 ++ 0#12) = .ok (.ceq 3 1 2) ∧
    decodeWord (0x11#8 ++ 3#4 ++ 1#4 ++ 2#4 ++ 0#12) = .ok (.cne 3 1 2) ∧
    decodeWord (0x12#8 ++ 3#4 ++ 1#4 ++ 2#4 ++ 0#12) = .ok (.clt 3 1 2) ∧
    decodeWord (0x13#8 ++ 3#4 ++ 1#4 ++ 2#4 ++ 0#12) = .ok (.cle 3 1 2) ∧
    decodeWord (0x14#8 ++ 3#4 ++ 1#4 ++ 2#4 ++ 0#12) = .ok (.cgt 3 1 2) ∧
    decodeWord (0x15#8 ++ 15#4 ++ 14#4 ++ 13#4 ++ 0#12) = .ok (.cge 15 14 13) := by decide

theorem test_decode_logic_shift :
    decodeWord (0x18#8 ++ 3#4 ++ 1#4 ++ 2#4 ++ 0#12) = .ok (.and 3 1 2) ∧
    decodeWord (0x19#8 ++ 3#4 ++ 1#4 ++ 2#4 ++ 0#12) = .ok (.or 3 1 2) ∧
    decodeWord (0x1C#8 ++ 3#4 ++ 1#4 ++ 2#4 ++ 0#12) = .ok (.shl 3 1 2) ∧
    decodeWord (0x1D#8 ++ 3#4 ++ 1#4 ++ 2#4 ++ 0#12) = .ok (.shr 3 1 2) ∧
    decodeWord (0x1E#8 ++ 2#4 ++ 1#4 ++ 0#9 ++ 127#7) = .ok (.shli 2 1 127) ∧
    decodeWord (0x1F#8 ++ 2#4 ++ 1#4 ++ 0#9 ++ 65#7) = .ok (.shri 2 1 65) := by decide

theorem test_decode_arithmetic :
    decodeWord (0x20#8 ++ 3#4 ++ 1#4 ++ 2#4 ++ 0#12) = .ok (.add 3 1 2) ∧
    decodeWord (0x21#8 ++ 3#4 ++ 1#4 ++ 2#4 ++ 0#12) = .ok (.sub 3 1 2) ∧
    decodeWord (0x28#8 ++ 3#4 ++ 1#4 ++ 2#4 ++ 0#12) = .ok (.mul64 3 1 2) ∧
    decodeWord (0x29#8 ++ 2#4 ++ 1#4 ++ 0#16) = .ok (.sqr64 2 1) ∧
    decodeWord (0x2A#8 ++ 3#4 ++ 1#4 ++ 2#4 ++ 0#12) = .ok (.mul 3 1 2) ∧
    decodeWord (0x30#8 ++ 3#4 ++ 1#4 ++ 2#4 ++ 0#12) = .ok (.div 3 1 2) ∧
    decodeWord (0x31#8 ++ 3#4 ++ 1#4 ++ 2#4 ++ 0#12) = .ok (.mod 3 1 2) ∧
    decodeWord (0x32#8 ++ 3#4 ++ 1#4 ++ 2#4 ++ 4#4 ++ 0#8) = .ok (.divrem 3 4 1 2) := by decide

theorem test_decode_modular_prime :
    decodeWord (0x38#8 ++ 2#4 ++ 1#4 ++ 0#14 ++ 1#2) = .ok (.absu 2 1 .w16) ∧
    decodeWord (0x39#8 ++ 4#4 ++ 1#4 ++ 2#4 ++ 3#4 ++ 0#8) = .ok (.mulmod 4 1 2 3) ∧
    decodeWord (0x3A#8 ++ 4#4 ++ 1#4 ++ 2#4 ++ 3#4 ++ 0#8) = .ok (.modpow 4 1 2 3) ∧
    decodeWord (0x40#8 ++ 3#4 ++ 1#4 ++ 2#4 ++ 0#12) = .ok (.gcd 3 1 2) ∧
    decodeWord (0x41#8 ++ 3#4 ++ 1#4 ++ 2#4 ++ 0#12) = .ok (.iscoprime 3 1 2) ∧
    decodeWord (0x42#8 ++ 2#4 ++ 1#4 ++ 0#16) = .ok (.isprime 2 1) := by decide

/-- R76: unassigned opcodes, the neighbours of the assigned ones among them, and must-be-zero bits. -/
theorem test_decode_illegal :
    decodeWord 0x00000000 = .error .unassignedOpcode ∧ decodeWord 0x06000000 = .error .unassignedOpcode ∧
    decodeWord 0x16312000 = .error .unassignedOpcode ∧ decodeWord 0x43210000 = .error .unassignedOpcode ∧
    decodeWord 0x01000001 = .error .mustBeZero ∧ decodeWord 0x0B500004 = .error .mustBeZero ∧
    decodeWord 0x1E210080 = .error .mustBeZero ∧ decodeWord 0x32312401 = .error .mustBeZero ∧
    decodeWord 0x03010000 = .error .mustBeZero ∧ decodeWord 0x09120000 = .error .mustBeZero := by decide

/-- One word is four bytes, lowest address first (R53 b, R70). -/
theorem test_decode_bytes :
    decodeBytes [0x00, 0x20, 0x31, 0x20] = .ok (.add 3 1 2) ∧ decodeBytes [0x20, 0x31, 0x20] = .error .notOneWord := by
  decide

theorem test_encode_examples :
    encode (.add 3 1 2) = 0x20312000 ∧ encode (.divrem 4 5 1 2) = 0x32412500 ∧ encode (.jmp (-5)) = 0x0300FFFB ∧
    encode (.bnz 7 (-4)) = 0x0507FFFC ∧ encode (.absu 2 1 .w32) = 0x38210002 ∧ encode (.ldc 5 .max) = 0x0B500002 := by
  decide

/-! ## Control (R236 to R241) -/

theorem test_nop : flow 4 0x01000000 [] = some (5, .run) := by decide
theorem test_halt : flow 9 0x02000000 [] = some (10, .done) := by decide
theorem test_jmp : flow 7 0x0300FFFB [] = some (2, .run) := by decide
theorem test_jmp_wraps : flow 2 0x0300FFFC [] = some (65534, .run) := by decide
theorem test_bz_taken : flow 3 0x04050004 [] = some (7, .run) := by decide
theorem test_bz_high_limb : flow 3 0x04050004 [(5, 0x10000000000000000)] = some (4, .run) := by decide
theorem test_bnz_taken : flow 6 0x0507FFFC [(7, 1)] = some (2, .run) := by decide
theorem test_bnz_not_taken : flow 6 0x0507FFFC [] = some (7, .run) := by decide

/-! ## Move (R100 to R107) -/

theorem test_mov : after 0x08210000 [(1, 0x10000000000000002)] 2 = some 0x10000000000000002 := by decide
theorem test_ldi : after 0x0910000A [(1, 0x50000000000000000)] 1 = some 10 := by decide
theorem test_ldi_unsigned : after 0x0910FFFF [] 1 = some 65535 := by decide
theorem test_ldis : after 0x0A10ABCD [(1, 0x1234)] 1 = some 0x1234ABCD := by decide
theorem test_ldis_drops_top : after 0x0A100001 [(1, 0xFFFF0000000000000000000000000002)] 1 = some 0x20001 := by decide
theorem test_ldc_max : after 0x0B500002 [] 5 = some 0xFFFFFFFFFFFFFFFFFFFFFFFFFFFFFFFF := by decide
theorem test_ldc_min : after 0x0B500003 [(5, 7)] 5 = some 0 := by decide
theorem test_make : after 0x0C312000 [(1, 0xF0000000000000007), (2, 0xE0000000000000009)] 3 =
    some 0x70000000000000009 := by decide
theorem test_lo : after 0x0D210000 [(1, 0x500000000000000AA)] 2 = some 0xAA := by decide
theorem test_hi : after 0x0E210000 [(1, 0x500000000000000AA)] 2 = some 5 := by decide
theorem test_isnarrow_no : after 0x0F210000 [(1, 0x10000000000000000)] 2 = some 0 := by decide
theorem test_isnarrow_yes : after 0x0F210000 [(1, 0xFFFFFFFFFFFFFFFF)] 2 = some 1 := by decide

/-! ## Compare, logic, shift (R120 to R134) -/

theorem test_ceq : after 0x10312000 [(1, 5), (2, 0x10000000000000005)] 3 = some 0 := by decide
theorem test_ceq_same : after 0x10311000 [(1, 5)] 3 = some 1 := by decide
theorem test_cne : after 0x11312000 [(1, 5), (2, 0x10000000000000005)] 3 = some 1 := by decide
theorem test_clt : after 0x12312000 [(1, 0xFFFFFFFFFFFFFFFF), (2, 0x10000000000000000)] 3 = some 1 := by decide
theorem test_clt_equal : after 0x12312000 [(1, 7), (2, 7)] 3 = some 0 := by decide
theorem test_cle : after 0x13312000 [(1, 7), (2, 7)] 3 = some 1 := by decide
theorem test_cgt : after 0x14312000 [(1, 0x10000000000000000), (2, 0xFFFFFFFFFFFFFFFF)] 3 = some 1 := by decide
theorem test_cgt_equal : after 0x14312000 [(1, 7), (2, 7)] 3 = some 0 := by decide
theorem test_cge : after 0x15312000 [(1, 0), (2, 1)] 3 = some 0 := by decide
theorem test_cge_equal : after 0x15312000 [(1, 7), (2, 7)] 3 = some 1 := by decide
theorem test_and : after 0x18312000 [(1, 0xFF00), (2, 0x0FF0)] 3 = some 0x0F00 := by decide
theorem test_or : after 0x19312000 [(1, 0xFF00), (2, 0x0FF0)] 3 = some 0xFFF0 := by decide
theorem test_shl : after 0x1C312000 [(1, 0x8000000000000001), (2, 1)] 3 = some 0x10000000000000002 := by decide
theorem test_shl_whole_amount : after 0x1C312000 [(1, 1), (2, 0x10000000000000000)] 3 = some 0 := by decide
theorem test_shr : after 0x1D312000 [(1, 0x10000000000000002), (2, 1)] 3 = some 0x8000000000000001 := by decide
theorem test_shr_127 : after 0x1D312000 [(1, 0x80000000000000000000000000000000), (2, 127)] 3 = some 1 := by decide
theorem test_shli : after 0x1E210040 [(1, 3)] 2 = some 0x30000000000000000 := by decide
theorem test_shri : after 0x1F210041 [(1, 0x30000000000000000)] 2 = some 1 := by decide

/-! ## Arithmetic (R141 to R168) -/

theorem test_add_carry : after 0x20312000 [(1, 0xFFFFFFFFFFFFFFFF), (2, 1)] 3 = some 0x10000000000000000 := by decide
theorem test_add_doubles : after 0x20111000 [(1, 0x80000000000000000000000000000003)] 1 = some 6 := by decide
theorem test_sub_borrow : after 0x21312000 [(1, 0x10000000000000000), (2, 1)] 3 = some 0xFFFFFFFFFFFFFFFF := by decide
theorem test_sub_wraps : after 0x21312000 [(2, 1)] 3 = some 0xFFFFFFFFFFFFFFFFFFFFFFFFFFFFFFFF := by decide
theorem test_mul64 : after 0x28312000 [(1, 0x7FFFFFFFFFFFFFFFF), (2, 0xFFFFFFFFFFFFFFFF)] 3 =
    some 0xFFFFFFFFFFFFFFFE0000000000000001 := by decide
theorem test_mul64_mid_carry : after 0x28312000 [(1, 0xFFFFFFFF80000000), (2, 0x80000000FFFFFFFF)] 3 =
    some 0x80000000BFFFFFFE8000000080000000 := by decide
theorem test_sqr64 : after 0x29210000 [(1, 0x100000000)] 2 = some 0x10000000000000000 := by decide
theorem test_mul : after 0x2A312000 [(1, 0xFFFFFFFFFFFFFFFFFFFFFFFFFFFFFFFF),
    (2, 0xFFFFFFFFFFFFFFFFFFFFFFFFFFFFFFFF)] 3 = some 1 := by decide
theorem test_div : after 0x30312000 [(1, 0xFFFFFFFFFFFFFFFFFFFFFFFFFFFFFFFF), (2, 0xFFFFFFFFFFFFFFFF)] 3 =
    some 0x10000000000000001 := by decide
theorem test_mod : after 0x31312000 [(1, 0xFFFFFFFFFFFFFFFFFFFFFFFFFFFFFFFF), (2, 10)] 3 = some 5 := by decide
theorem test_divrem_quotient : after 0x32312400 [(1, 100), (2, 7)] 3 = some 14 := by decide
theorem test_divrem_remainder_wins : after 0x32312300 [(1, 100), (2, 7)] 3 = some 2 := by decide

/-! ## Modular and prime (R191 to R226) -/

theorem test_absu_min8 : after 0x38210000 [(1, 0x80)] 2 = some 128 := by decide
theorem test_absu_32 : after 0x38210002 [(1, 0xFFFFFF9C)] 2 = some 100 := by decide
theorem test_mulmod : after 0x39412300 [(1, 0xFFFFFFFFFFFFFFFF), (2, 0xFFFFFFFFFFFFFFFF), (3, 1000000007)] 4 =
    some 114944269 := by decide
theorem test_mulmod_zero_modulus : after 0x39412300 [(1, 5), (2, 6), (4, 9)] 4 = some 0 := by decide
theorem test_modpow : after 0x3A412300 [(1, 2), (2, 560), (3, 561)] 4 = some 1 := by decide +kernel
theorem test_modpow_one_modulus : after 0x3A412300 [(1, 5), (3, 1)] 4 = some 1 := by decide
theorem test_gcd : after 0x40312000 [(1, 100), (2, 80)] 3 = some 20 := by decide +kernel
theorem test_gcd_zero : after 0x40312000 [(2, 9)] 3 = some 9 := by decide +kernel
theorem test_iscoprime : after 0x41312000 [(1, 8), (2, 15)] 3 = some 1 := by decide +kernel
theorem test_iscoprime_zero : after 0x41312000 [] 3 = some 0 := by decide +kernel
theorem test_isprime : after 0x42210000 [(1, 1000003)] 2 = some 1 := by decide +kernel
theorem test_isprime_square : after 0x42210000 [(1, 1018081)] 2 = some 0 := by decide +kernel

/-! ## Faults (R280 to R284) -/

theorem test_divzero : faultOf (placed 5 0x30312000) = some (.divzero, 5, 0x30312000, 5, .fault) := by decide
theorem test_illegal : faultOf (placed 255 0) = some (.illegal, 255, 0, 255, .fault) := by decide
theorem test_fetchrange : faultOf (runningAt 256) = some (.fetchrange, 256, 0, 256, .fault) := by decide

/-! ## The host window (R30 to R37, R51 to R56) and the fetch of a placed word -/

/-- A write of word 3 of `x[2]` reaches its bits 127..96 and reads back (R53 a). -/
theorem test_window_register :
    (match windowWrite 0x12C 4 0xDEADBEEF State.reset with
    | .next t => some (t.reg 2)
    | .fault _ | .refused _ => none) = some 0xDEADBEEF000000000000000000000000 := by decide

/-- Reads of ID, a reserved offset and FCMD after a fault. -/
theorem test_window_reads :
    (match windowRead 0 4 State.reset, windowRead 0x3FC 4 State.reset, windowRead 0x20 4 (takeFault .illegal 7 State.reset) with
    | .next a, .next b, .next c => some (a, b, c)
    | _, _, _ => none) = some (0x55313238, 0, 7) := by decide

/-- A byte access, a misaligned one and one past the window are refused (R56). -/
theorem test_window_refused : locate 0x100 1 = none ∧ locate 0x102 4 = none ∧ locate 0x800 4 = none ∧
    locate 0x7FC 4 = some (.cmdWord 255) := by decide

/-- CTRL with CLEAR and START restarts a faulted engine (R32). -/
theorem test_ctrl_clear_start :
    (ctrlWrite 3 (takeFault .divzero 7 (runningAt 9))) = runningAt 9 := by decide

theorem test_table_word : decodeTableWord 32 0x32412500 = some (.divrem 4 5 1 2) ∧ decodeTableWord 40 0 = none := by decide

theorem test_with_fetch_word :
    (match step (State.reset.withFetchWord 32 0x0910000A) with
    | .next t => some (t.reg 1, t.pc, t.runState)
    | .fault _ | .refused _ => none) = some (10, 1, .run) := by decide

/-- The lengths of the ROM tables (R14, R224, R223). -/
theorem test_roms : msbPos256Rom.length = 256 ∧ smallPrimes.length = 34 ∧ witnessTable.length = 9 := by
  decide +kernel

/-- R81: the assembler's spelling. -/
theorem test_asm : toAsm (.divrem 4 5 1 2) = "DIVREM q4, q5, q1, q2" := by decide

/-- R81 and R82: comment, label, backward branch, pseudo-instruction, names and numbers. -/
theorem test_assemble :
    assemble "loop: ADD q3, q1, q15 ; sum\n BNZ q7, loop\nLDC q5, MAX\n LI64 q1, 0x10002\nABSU q2, q1, 32\n" =
      some [.add 3 1 15, .bnz 7 (-1), .ldc 5 .max, .ldi 1 0, .ldis 1 0, .ldis 1 1, .ldis 1 2, .absu 2 1 .w32] := by
  decide +kernel

/-- The words of 95_test_vectors.md for offsets written as the 16 bits of the field, and with a sign. -/
theorem test_assemble_offsets :
    (assemble "JMP 0x8000\nBNZ q15, 0x8000\nBNZ q15, -32768\nBZ q5, +4").map (List.map encode) =
      some [0x03008000, 0x050F8000, 0x050F8000, 0x04050004] := by decide +kernel

/-- Log 20: a branch to a label spelled like a register reaches the label. -/
theorem test_register_label :
    assemble "q3: BZ q3, q3\nJMP q3" = some [.bz 3 0, .jmp (-1)] ∧ assemble "JMP q3" = none := by decide +kernel

/-- R82's aliases as text. -/
theorem test_aliases :
    assemble "top: CLR q4\nWIDEN q1, q2\nSQR q1, q2\nBR top" =
      some [.ldc 4 .zero, .lo 1 2, .sqr64 1 2, .jmp (-3)] := by decide +kernel

/-- Log 21: the helpers at 0. -/
theorem test_helpers_at_zero : leadingZeros64 0 = 64 ∧ trailingZeros64 0 = 64 ∧ isPow2 0 = false := by decide

theorem test_assemble_refuses :
    assemble "LDI q1, 65536" = none ∧ assemble "LDI q1, 1_000" = none ∧ assemble "MOV q16, q1" = none ∧
    assemble "JMP nowhere" = none := by decide +kernel

/-! ## Witnesses: states and operands that meet the hypotheses of the statements -/

/-- A divide by zero at index 255, the machine running. -/
def divideByZero : State := placed 255 0x32312400

/-- The state after that divide's fault. -/
def faulted : State := takeFault .divzero 0x32312400 divideByZero

/-- A running machine with 1 in the divisor register `q2`, the smallest divisor. -/
def divisorOne : State := (runningAt 0).setReg 2 1

theorem witness_DecodeEncodeRoundTrip :
    (Instr.jmp (-32768)).wellFormed = true ∧ (Instr.bz 15 32767).wellFormed = true ∧
    (Instr.ldi 0 65535).wellFormed = true ∧ (Instr.shri 1 2 127).wellFormed = true := by decide

theorem witness_EncodeDecodeRoundTrip :
    decodeWord 0x1E21007F = .ok (.shli 2 1 127) ∧ decodeWord 0x0300FFFF = .ok (.jmp (-1)) := by decide

theorem witness_LegalExactlyWhenARowMatches :
    (placed 255 0).runState = .run ∧ (placed 255 0).pc.toNat < 256 ∧ (placed 255 0).cmdWord 255 = 0 ∧
    (0x20312000#32) &&& 0xFF000FFF = 0x20000000 := by decide

theorem witness_LabelBranchReachesLabel : 65535 < 65536 ∧ 0 < 65536 := by decide

theorem witness_StatementsBecomeTheirCommands :
    (Instr.jmp (-32768)).wellFormed = true ∧ (Instr.shli 1 2 127).wellFormed = true ∧
    (Instr.ldis 1 65535).wellFormed = true := by decide

theorem witness_StepRunsTheDecodedCommand :
    (placed 255 0x0910FFFF).runState = .run ∧ (placed 255 0x0910FFFF).pc.toNat < 256 ∧
    (Instr.ldi 1 65535).wellFormed = true ∧
    decodeBytes [(placed 255 0x0910FFFF).byteAt 0x7FC, (placed 255 0x0910FFFF).byteAt 0x7FD,
      (placed 255 0x0910FFFF).byteAt 0x7FE, (placed 255 0x0910FFFF).byteAt 0x7FF] = .ok (.ldi 1 65535) := by decide

theorem witness_FetchRangeFault :
    (runningAt 256).runState = .run ∧ 256 ≤ (runningAt 256).pc.toNat ∧
    ∃ t, step (runningAt 256) = .next t ∧ t.runState = .fault ∧ t.fcause = .fetchrange :=
  ⟨rfl, by decide, takeFault .fetchrange 0 (runningAt 256), rfl, rfl, rfl⟩

theorem witness_DivideByZeroFault :
    divideByZero.runState = .run ∧ divideByZero.pc.toNat < 256 ∧
    decodeWord (divideByZero.cmdWord 255) = .ok (.divrem 3 4 1 2) ∧ divisorOf (.divrem 3 4 1 2) = some 2 ∧
    divideByZero.reg 2 = 0 := by decide

theorem witness_DivideByZeroFault_converse :
    ∃ t, exec (.divrem 3 4 1 2) divideByZero = .next t ∧ divideByZero.runState ≠ .fault ∧ t.runState = .fault :=
  ⟨faulted, rfl, by decide, rfl⟩

theorem witness_FaultEntryIsPrecise :
    divideByZero.runState = .run ∧ step divideByZero = .next faulted ∧ faulted.runState = .fault :=
  ⟨rfl, rfl, rfl⟩

theorem witness_FaultEntryIsPrecise_fetch :
    step (runningAt 256) = .next (takeFault .fetchrange 0 (runningAt 256)) ∧
    step (placed 255 0) = .next (takeFault .illegal 0 (placed 255 0)) := ⟨rfl, rfl⟩

theorem witness_FaultCauseOfAStep :
    divideByZero.runState = .run ∧ (∃ r, divisorOf (.divrem 3 4 1 2) = some r ∧ divideByZero.reg r = 0) ∧
    ∀ r, divisorOf (.add 3 1 2) = some r → divideByZero.reg r ≠ 0 :=
  ⟨rfl, ⟨2, rfl, by decide⟩, by decide⟩

/-- Two states that differ in the interrupt enables and the fault registers only. -/
theorem witness_FaultsAreDeterministic :
    let s' := { divideByZero with ie := 3, fcause := .illegal, fpc := 9, fcmd := 7 }
    divideByZero.runState = .run ∧ s'.runState = .run ∧ divideByZero.pc = s'.pc ∧
    (∀ r, divideByZero.reg r = s'.reg r) ∧ (∀ k, k < 256 → divideByZero.cmdWord k = s'.cmdWord k) ∧
    divideByZero ≠ s' :=
  ⟨rfl, rfl, rfl, fun _ => rfl, fun _ _ => rfl, by decide⟩

theorem witness_ClearStartRetriesTheFault :
    faulted.runState = .fault ∧ divideByZero.runState = .run ∧ step divideByZero = .next faulted ∧
    ∃ u, hostWrite ctrlAddr 4 3 faulted = .next u :=
  ⟨rfl, rfl, rfl, ctrlWrite 3 faulted, by simp [hostWrite, ctrlAddr, windowAddr, windowWrite, locate, Config.windowBytes]; rfl⟩

theorem witness_EveryStepCompletes : State.reset.runState ≠ .run ∧ faulted.runState ≠ .run := by decide

theorem witness_ProgramCounterRule :
    (runningAt 65535).runState = .run ∧ 256 ≤ (runningAt 65535).pc.toNat ∧ 256 ≤ (runningAt 256).pc.toNat := by decide

theorem witness_CommandsWriteOnlyTheirDestinations :
    divideByZero.runState = .run ∧ (0 : Reg) ∉ destinations (.divrem 3 4 1 2) := by decide

/-- Two states that agree on the sources `q1`, `q2` of an ADD and differ elsewhere. -/
theorem witness_ResultsDependOnSourcesOnly :
    let s' := (divideByZero.setReg 5 9).setPc 3
    divideByZero.runState = .run ∧ s'.runState = .run ∧ (∀ r ∈ sources (.add 3 1 2), divideByZero.reg r = s'.reg r) ∧
    divideByZero ≠ s' := by decide

/-- Sources that differ in their high limbs only. -/
theorem witness_HighLimbsAreIgnored :
    let s := State.reset.setReg 1 0xFFFFFFFFFFFFFFFF
    let s' := State.reset.setReg 1 0xFFFFFFFFFFFFFFFFFFFFFFFFFFFFFFFF
    narrowOperands (.mul64 3 1 2) = some (3, [1, 2]) ∧
    (∀ r ∈ [(1 : Reg), 2], (s.reg r).toNat % 2 ^ 64 = (s'.reg r).toNat % 2 ^ 64) ∧ s ≠ s' := by decide

theorem witness_NopAndHalt : (runningAt 256).runState = .run ∧ (runningAt 256).pc = 256 := by decide

theorem witness_BranchCommands :
    (runningAt 65534).runState = .run ∧ 256 ≤ (runningAt 65534).pc.toNat ∧ 256 ≤ (runningAt 256).pc.toNat := by decide

theorem witness_ImmediateCommands : 3 < (4#16).toNat ∧ 3 < (0xFFFF#16).toNat := by decide

/-- Two labels, one spelled like a register, each at one place; the largest values of LI64 and LI128. -/
theorem witness_PseudoInstructionsMeanWhatTheySay :
    let labels := [("loop".toList, 0), ("q3".toList, 65535)]
    (labels.map Prod.fst).Nodup ∧ ("loop".toList, 0) ∈ labels ∧ ("q3".toList, 65535) ∈ labels ∧
    2 ^ 64 - 1 < 2 ^ 64 ∧ 2 ^ 128 - 1 < 2 ^ 128 := by decide

theorem witness_ShiftCommands : 127 < (128#16).toNat ∧ 127 < (0xFFFF#16).toNat := by decide

theorem witness_DivideCommands : (divisorOne.reg 2).toNat ≠ 0 ∧ (divideByZero.reg 2).toNat = 0 := by decide

theorem witness_DivisionIdentityInCommands :
    [(1 : Reg), 2, 3, 4, 5].Nodup ∧ divisorOne.reg 2 ≠ 0 ∧ (divisorOne.reg 2).toNat < 2 ^ 64 ∧
    2 ^ 64 ≤ ((divisorOne.setReg 2 0x10000000000000000).reg 2).toNat := by decide

theorem witness_AbsuCommand : 3 < (4#16).toNat ∧ 3 < (0xFFFF#16).toNat := by decide

/-- A prime, a composite below TRIAL_LIMIT, and a composite above it with a small factor. -/
theorem witness_IsprimeCommand :
    Nat.Prime (((State.reset.setReg 1 0x50000000000000095).reg 1).toNat % 2 ^ 64) ∧
    ¬ Nat.Prime (((State.reset.setReg 1 22801).reg 1).toNat % 2 ^ 64) ∧ 22801 < 1000000 ∧
    ¬ Nat.Prime (((State.reset.setReg 1 1000002).reg 1).toNat % 2 ^ 64) ∧ Nat.Prime 3 ∧ 3 ∣ 1000002 := by
  have h1 : ((State.reset.setReg 1 0x50000000000000095).reg 1).toNat % 2 ^ 64 = 149 := by decide
  have h2 : ((State.reset.setReg 1 22801).reg 1).toNat % 2 ^ 64 = 22801 := by decide
  have h3 : ((State.reset.setReg 1 1000002).reg 1).toNat % 2 ^ 64 = 1000002 := by decide
  rw [h1, h2, h3]
  norm_num

theorem witness_IsPrimeMeetsItsContract : WitnessTableSuffices (exhaustiveTable (2 ^ 32)) :=
  exhaustiveTable_suffices (Nat.le_refl _)

/-- An event for every transition of R29. -/
theorem witness_RunStateTransitions :
    (ctrlWrite 1 State.reset).runState = .run ∧ State.reset.runState = .idle ∧
    (stateAfter (step (placed 0 0x02000000)) State.reset).runState = .done ∧ (placed 0 0x02000000).runState = .run ∧
    (stateAfter (step divideByZero) State.reset).runState = .fault ∧
    (ctrlWrite 2 faulted).runState = .idle ∧ (ctrlWrite 3 faulted).runState = .run ∧
    (ctrlWrite 4 divideByZero).runState = .idle ∧ (hardwareReset divideByZero).runState = .idle := by decide

theorem resetInvariant : StateInv State.reset := ⟨by decide, by decide, rfl, rfl⟩

/-- A running state with the invariant. -/
theorem witness_StepKeepsInvariant :
    StateInv divideByZero ∧ step divideByZero = .next faulted :=
  ⟨⟨by decide, by decide, rfl, rfl⟩, rfl⟩

theorem witness_ExecutionsKeepInvariant : StateInv State.reset := resetInvariant

theorem witness_EndOfARun :
    StateInv divideByZero ∧ divideByZero.runState = .run ∧ step divideByZero = .next faulted ∧ faulted.runState ≠ .run ∧
    ∃ t, step (placed 255 0x02000000) = .next t ∧ t.runState = .done :=
  ⟨⟨by decide, by decide, rfl, rfl⟩, rfl, rfl, by decide,
    ((placed 255 0x02000000).advance.setRunState .done), rfl, rfl⟩

theorem witness_HardwareResetState : ∃ s, hardwareReset faulted = hardwareReset s := ⟨faulted, rfl⟩

theorem witness_SoftResetKeepsTheCommands :
    (4#32).getLsbD 2 = true ∧ (0xFFFFFFFF#32).getLsbD 2 = true := by decide

theorem witness_RegisterWords : State.reset.runState ≠ .run ∧ divideByZero.runState = .run := by decide

theorem witness_FourWordWritesBuildAValue :
    State.reset.runState ≠ .run ∧ [(3 : Fin 4), 1, 0, 2].Perm [0, 1, 2, 3] := by decide

theorem witness_CommandBufferWords :
    State.reset.runState ≠ .run ∧ divideByZero.runState = .run ∧ divideByZero.pc.toNat = (255 : Fin 256).val ∧
    256 ≤ (runningAt 256).pc.toNat := by decide

theorem witness_HostProtocolTable :
    ((1#32).getLsbD 0 = true ∧ (1#32).getLsbD 1 = false ∧ (1#32).getLsbD 2 = false) ∧
    ((2#32).getLsbD 0 = false ∧ (2#32).getLsbD 1 = true ∧ (2#32).getLsbD 2 = false) ∧
    ((3#32).getLsbD 0 = true ∧ (3#32).getLsbD 1 = true ∧ (3#32).getLsbD 2 = false) ∧ (7#32).getLsbD 2 = true ∧
    (0x0FC % 4 = 0 ∧ 0x024 ≤ 0x0FC ∧ 0x0FC < 0x100) ∧ (0x3FC % 4 = 0 ∧ 0x200 ≤ 0x3FC ∧ 0x3FC < 0x400) ∧
    (0x7FC % 4 = 0 ∧ 0x7FC < 0x800) ∧ (0x024 % 4 = 0 ∧ 0x200 % 4 = 0) := by decide

theorem witness_ReadOnlyRegisters : 0x014 ∈ [0x000, 0x008, 0x014] := by decide

theorem witness_PcAndIeRegisters :
    State.reset.runState ≠ .run ∧ State.reset.runState = .idle ∧ divideByZero.runState = .run ∧
    256 ≤ (256#32).toNat % 65536 ∧ 256 ≤ (0xFFFFFFFF#32).toNat % 65536 := by decide

theorem witness_FaultRegisters : 0x020 ∈ [0x018, 0x01C, 0x020] := by decide

theorem witness_BitPositionHelpers :
    (1 : Byte) ≠ 0 ∧ (1 : Word64) ≠ 0 ∧ (0x8000000000000000 : Word64) ≠ 0 ∧ (1 : Word128) ≠ 0 ∧
    0 < trailingZeros64 0x8000000000000000 := by decide

theorem witness_DivUncheckedIsExact :
    ((1 : Word64) ≠ 0 ∧ (0 : Word64) < 1) ∧
    (0xFFFFFFFFFFFFFFFF : Word64) ≠ 0 ∧ (0xFFFFFFFFFFFFFFFE : Word64) < 0xFFFFFFFFFFFFFFFF := by decide

theorem witness_KnuthDivideIsExact : 2 ^ 128 - 1 < 2 ^ 128 ∧ 0 < 1 ∧ 1 < 2 ^ 128 := by decide

theorem witness_DividerRoutesAgree : (1 : Word128) ≠ 0 := by decide

theorem witness_RussianPeasantIsMulMod : (1 : Word64) ≠ 0 ∧ (0xFFFFFFFFFFFFFFFF : Word64) ≠ 0 := by decide

/-- A program with an operand of every kind, at the ends of the fields. -/
theorem witness_AssemblerReadsProgramText :
    let is : List Instr := [.jmp (-32768), .bz 15 32767, .ldi 0 65535, .ldc 1 .max, .shri 1 2 127, .absu 3 4 .w64, .halt]
    (∀ i ∈ is, i.wellFormed = true) ∧ programText [.jmp (-32768), .ldc 1 .max] = "JMP -32768\nLDC q1, MAX" := by decide

end Sys2Proof.Tests
end

section
/-! What one command answers in two states that agree on its sources (10_state.md R11): the shapes of a command's effect keep the
run state and the destinations equal. -/

namespace Sys2Proof.Machine

/-- Two next states of a command show the same result: the same run state, and without a fault the same destinations (R11). -/
structure SameResult (i : Instr) (t t' : State) : Prop where
  runState : t.runState = t'.runState
  registers : t.runState ≠ .fault → ∀ r ∈ destinations i, t.reg r = t'.reg r

/-- Two runs of a command answer next states that show the same result. -/
def AnswersAgree (i : Instr) (o o' : StepResult) : Prop :=
  ∃ t t', o = .next t ∧ o' = .next t' ∧ SameResult i t t'

/-- A command without a destination shows its run state only. -/
theorem AnswersAgree.of_no_destination {i : Instr} {t t' : State} (hd : destinations i = []) (hr : t.runState = t'.runState) :
    AnswersAgree i (.next t) (.next t') :=
  ⟨t, t', rfl, rfl, hr, by simp [hd]⟩

/-- A command with one destination that writes the same value shows the same result. -/
theorem AnswersAgree.of_writeResult {i : Instr} {rd : Reg} {v v' : Word128} {s s' : State} (hd : destinations i = [rd])
    (hr : s.runState = s'.runState) (hv : v = v') :
    AnswersAgree i (.next (s.writeResult rd v)) (.next (s'.writeResult rd v')) :=
  ⟨_, _, rfl, rfl, hr, by simp [hd, State.reg_writeResult, hv]⟩

/-- DIVREM's two writes of the same values show the same result, whether or not the destinations differ (R168). -/
theorem SameResult.of_writeTwo {i : Instr} {rd rd2 : Reg} {v w : Word128} {s s' : State} (hd : destinations i = [rd, rd2])
    (hr : s.runState = s'.runState) :
    SameResult i ((s.setReg rd v).writeResult rd2 w) ((s'.setReg rd v).writeResult rd2 w) where
  runState := hr
  registers := by simp [hd, State.reg_writeResult]

/-- The zero test of the divide commands goes the same way for the same operands: both fault, or both go on with the same
quotient and remainder (R169). -/
theorem AnswersAgree.of_divideOrFault {i : Instr} {a b : Word128} {f f' : Word128 × Word128 → State} {s s' : State}
    (hf : ∀ qr, AnswersAgree i (.next (f qr)) (.next (f' qr))) :
    AnswersAgree i (divideOrFault i a b f s) (divideOrFault i a b f' s') := by
  unfold divideOrFault
  split_ifs
  · exact ⟨_, _, rfl, rfl, rfl, fun h => absurd rfl h⟩
  · exact hf _

/-- A conditional branch keeps the run state, taken or not (R27). -/
@[simp] theorem branchIf_runState (taken : Bool) (off : Int) (s : State) : (branchIf taken off s).runState = s.runState := by
  cases taken <;> rfl

/-- A command answers alike in two states of one run state that agree on its sources: it shows no register, or writes one value
that is the same function of equal operands, or is a divide command. -/
theorem exec_answersAgree (i : Instr) {s s' : State} (hr : s.runState = s'.runState)
    (hsrc : ∀ r ∈ sources i, s.reg r = s'.reg r) : AnswersAgree i (exec i s) (exec i s') := by
  cases i with
  | nop | jmp off => exact .of_no_destination rfl hr
  | halt => exact .of_no_destination rfl rfl
  | bz rs1 off | bnz rs1 off => exact .of_no_destination rfl (by simpa using hr)
  | div rd rs1 rs2 | mod rd rs1 rs2 =>
    simp only [exec, execDiv, execMod, hsrc rs1 (by simp [sources]), hsrc rs2 (by simp [sources])]
    exact .of_divideOrFault fun qr => .of_writeResult rfl hr rfl
  | divrem rd rd2 rs1 rs2 =>
    simp only [exec, execDivrem, hsrc rs1 (by simp [sources]), hsrc rs2 (by simp [sources])]
    exact .of_divideOrFault fun qr => ⟨_, _, rfl, rfl, .of_writeTwo rfl hr⟩
  | _ =>
    simp only [sources, List.forall_mem_cons] at hsrc
    exact .of_writeResult rfl hr (by simp [hsrc, State.narrow])

/-- Settles O17, by the shapes of a command's answer. -/
theorem resultsDependOnSourcesOnly : Obligations.ResultsDependOnSourcesOnly := by
  intro i s s' hs hs' hsrc
  obtain ⟨t, t', ht, ht', hres⟩ := exec_answersAgree i (hs.trans hs'.symm) hsrc
  exact ⟨t, t', ht, ht', hres.runState, hres.registers⟩

end Sys2Proof.Machine
end

section
/-! The bit-position helpers as numbers (00_scope.md R14, R15): the scan of the bytes finds `Nat.log2`, and the divider's shifts are
counted from it. -/

namespace Sys2Proof.Machine

theorem msbPos256_zero : msbPos256 0 = 8 := by decide

/-- The ROM, read at every byte (R14). -/
theorem msbPos256_eq_log2 : ∀ b : Byte, b ≠ 0 → msbPos256 b = Nat.log2 b.toNat := by decide

/-- The top set bit of a number that is not zero from bit `k` on is `k` above the top set bit of those bits. -/
theorem log2_eq_add_log2_div {v k : Nat} (h : v / 2 ^ k ≠ 0) : Nat.log2 v = k + Nat.log2 (v / 2 ^ k) := by
  have hle : 2 ^ k ≤ v := Nat.le_of_not_lt fun hlt => h (Nat.div_eq_of_lt hlt)
  have hk : k ≤ Nat.log2 v := (Nat.le_log2 (Nat.ne_of_gt (Nat.lt_of_lt_of_le (Nat.two_pow_pos k) hle))).2 hle
  have hdiv : Nat.log2 (v / 2 ^ k) = Nat.log2 v - k := by
    simp only [Nat.log2_eq_log_two, Nat.log_div_base_pow]
  omega

/-- The scan finds nothing in zero bytes (R15). -/
theorem highBitFrom_zero (k dflt : Nat) : highBitFrom k 0 dflt = dflt := by
  induction k with
  | zero => rfl
  | succ j ih => simp [highBitFrom, ih]

/-- The scan of the low `k` bytes of a number that fits in them finds its top set bit: either the top byte is zero and the number
fits in the bytes below it, or the ROM gives the bit's place in that byte (R15). -/
theorem highBitFrom_eq_log2 {v : Nat} (hv : v ≠ 0) (dflt : Nat) :
    ∀ k, v < 2 ^ (8 * k) → highBitFrom k v dflt = Nat.log2 v := by
  intro k
  induction k with
  | zero =>
    intro hlt
    simp at hlt
    contradiction
  | succ j ih =>
    intro hlt
    have htop : v / 2 ^ (8 * j) < 256 := Nat.div_lt_of_lt_mul (by rwa [← show 2 ^ (8 * (j + 1)) = 2 ^ (8 * j) * 256 by ring])
    rw [highBitFrom, Nat.mod_eq_of_lt htop]
    split_ifs with h0
    · exact ih ((Nat.div_eq_zero_iff_lt (by positivity)).1 h0)
    · have hb : (BitVec.ofNat 8 (v / 2 ^ (8 * j))).toNat = v / 2 ^ (8 * j) := by
        rw [BitVec.toNat_ofNat, Nat.mod_eq_of_lt htop]
      rw [msbPos256_eq_log2 _ (fun h => h0 (by rw [← hb, h]; rfl)), hb, log2_eq_add_log2_div h0]

theorem highBitPosition64_zero : highBitPosition64 0 = 64 := highBitFrom_zero 8 64

theorem highBitPosition128_zero : highBitPosition128 0 = 128 := highBitFrom_zero 16 128

theorem highBitPosition64_eq_log2 {v : Word64} (h : v ≠ 0) : highBitPosition64 v = Nat.log2 v.toNat :=
  highBitFrom_eq_log2 (fun h0 => h (BitVec.eq_of_toNat_eq h0)) 64 8 v.isLt

theorem highBitPosition128_eq_log2 {v : Word128} (h : v ≠ 0) : highBitPosition128 v = Nat.log2 v.toNat :=
  highBitFrom_eq_log2 (fun h0 => h (BitVec.eq_of_toNat_eq h0)) 128 16 v.isLt

theorem leadingZeros64_eq_log2 {v : Word64} (h : v ≠ 0) : leadingZeros64 v = 63 - Nat.log2 v.toNat := by
  rw [leadingZeros64, if_neg h, highBitPosition64_eq_log2 h]

/-- The scan for the lowest set bit passes over clear bits only (R15). -/
theorem getLsbD_of_lt_trailingZerosFrom (v : Word64) (turns : Nat) : ∀ k j : Nat,
    k ≤ j → j < trailingZerosFrom turns k v → v.getLsbD j = false := by
  induction turns with
  | zero =>
    intro k j hkj hj
    simp only [trailingZerosFrom] at hj
    omega
  | succ n ih =>
    intro k j hkj hj
    rw [trailingZerosFrom] at hj
    split_ifs at hj with hb
    · omega
    · rcases Nat.eq_or_lt_of_le hkj with rfl | hlt
      · simpa using hb
      · exact ih (k + 1) j hlt hj

/-- The bits below the one that `TrailingZeros_64` finds are clear (R15). -/
theorem getLsbD_of_lt_trailingZeros64 {v : Word64} {j : Nat} (h : j < trailingZeros64 v) : v.getLsbD j = false :=
  getLsbD_of_lt_trailingZerosFrom v 64 0 j (Nat.zero_le j) h

/-- `IsPow2` is the power-of-two test, at 0 as well, where both sides are false (R15; log 21). -/
theorem isPow2_iff (v : Word128) : isPow2 v = true ↔ ∃ k, v.toNat = 2 ^ k := by
  by_cases h : v = 0
  · subst h
    simp [isPow2, (Nat.two_pow_pos _).ne]
  · have hpos : v.toNat ≠ 0 := fun h0 => h (BitVec.eq_of_toNat_eq h0)
    have hpred : (v - 1).toNat = v.toNat - 1 := by bv_omega
    have hand : v &&& (v - 1) = 0 ↔ v.toNat &&& (v.toNat - 1) = 0 := by
      rw [← BitVec.toNat_inj, BitVec.toNat_and, hpred]
      rfl
    simp only [isPow2, Bool.and_eq_true, bne_iff_ne, ne_eq, h, not_false_eq_true, true_and, beq_iff_eq, hand]
    exact Nat.and_sub_one_eq_zero_iff_isPowerOfTwo hpos

/-- Settles O55: each helper by its own law, the two high-bit positions by induction on the bytes scanned. -/
theorem bitPositionHelpers : Obligations.BitPositionHelpers := by
  refine ⟨⟨msbPos256_zero, msbPos256_eq_log2⟩, ⟨highBitPosition64_zero, fun v hv => ?_⟩,
    ⟨highBitPosition128_zero, fun v hv => highBitPosition128_eq_log2 hv⟩, fun v hv => ?_, fun v _ => isPow2_iff v⟩
  · exact ⟨highBitPosition64_eq_log2 hv, leadingZeros64_eq_log2 hv⟩
  · exact ⟨getLsbD_trailingZeros64 hv, fun k hk => getLsbD_of_lt_trailingZeros64 hk⟩

end Sys2Proof.Machine
end

section
/-! How `pc` moves (10_state.md R27): a fault leaves it, and every other command is a branch by its offset, which is 1 for a command
that goes on to the next index. -/

namespace Sys2Proof.Machine

/-- `takeFault` is fault entry as the relation of R283. -/
theorem faultEntered_takeFault (c : FaultCause) (w : Word32) (s : State) : FaultEntered c w s (takeFault c w s) :=
  ⟨rfl, rfl, rfl, rfl, rfl, fun _ => rfl, rfl, fun _ => rfl⟩

/-- A step in RUN with `pc` outside CMDBUF is the fault FETCHRANGE (R27, R284). -/
theorem step_of_pc_outside {s : State} (hr : s.runState = .run) (hp : 256 ≤ s.pc.toNat) :
    step s = .next (takeFault .fetchrange 0 s) := by
  simp [step, hr, fetchNext, Config.cmdbufWords, hp]

/-- The next index is the target of a branch by 1 (R27, R241). -/
theorem branchTarget_one (pc : Word16) : branchTarget pc 1 = pc + 1 := by
  apply BitVec.eq_of_toNat_eq
  have htarget := branchTarget_toNat pc 1
  have hnext : (pc + 1).toNat = (pc.toNat + 1) % 65536 := by simp [BitVec.toNat_add]
  omega

/-- A conditional branch goes by its offset if taken and by 1 if not (R239, R240). -/
theorem branchIf_pc (taken : Bool) (off : Int) (s : State) :
    (branchIf taken off s).pc = branchTarget s.pc (if taken then off else 1) := by
  cases taken
  · exact (branchTarget_one s.pc).symm
  · rfl

/-- What R27 asks of a command's answer: `pc` stays in a fault and moves by the command's offset otherwise. -/
def MovesPcByOffset (i : Instr) (s : State) (o : StepResult) : Prop :=
  ∃ t, o = .next t ∧ (t.runState = .fault → t.pc = s.pc) ∧
    (t.runState ≠ .fault → (t.pc.toNat : Int) = (s.pc.toNat + pcOffset i s) % 65536)

theorem MovesPcByOffset.of_branch {i : Instr} {s t : State} (hr : t.runState ≠ .fault)
    (hpc : t.pc = branchTarget s.pc (pcOffset i s)) : MovesPcByOffset i s (.next t) :=
  ⟨t, rfl, fun h => absurd h hr, fun _ => hpc ▸ branchTarget_toNat _ _⟩

/-- A command that goes on to the next index. -/
theorem MovesPcByOffset.of_next {i : Instr} {s t : State} (hr : t.runState ≠ .fault) (hoff : pcOffset i s = 1)
    (hpc : t.pc = s.pc + 1) : MovesPcByOffset i s (.next t) :=
  .of_branch hr (by rw [hpc, hoff, branchTarget_one])

/-- A divide command: DIVZERO leaves `pc`, and the other end is the command's own (R169). -/
theorem MovesPcByOffset.of_divideOrFault {i : Instr} {a b : Word128} {f : Word128 × Word128 → State} {s : State}
    (hf : ∀ qr, MovesPcByOffset i s (.next (f qr))) : MovesPcByOffset i s (divideOrFault i a b f s) := by
  unfold divideOrFault
  split_ifs
  · exact ⟨_, rfl, fun _ => rfl, fun h => absurd rfl h⟩
  · exact hf _

/-- Every command moves `pc` as R27 says: JMP and the branches by their offset, the divide commands unless they fault, and all
others, HALT too, by 1. -/
theorem exec_movesPcByOffset (i : Instr) {s : State} (hs : s.runState ≠ .fault) : MovesPcByOffset i s (exec i s) := by
  cases i with
  | halt => exact .of_next (by simp) rfl rfl
  | jmp off => exact .of_branch hs rfl
  | bz rs1 off | bnz rs1 off => exact .of_branch (by simpa using hs) (by simp [branchIf_pc, pcOffset, BitVec.toNat_eq])
  | div rd rs1 rs2 | mod rd rs1 rs2 | divrem rd rd2 rs1 rs2 =>
    simp only [exec, execDiv, execMod, execDivrem]
    refine .of_divideOrFault fun qr => ?_
    exact .of_next hs rfl rfl
  | _ => exact .of_next hs rfl rfl

/-- Settles O15, by the commands' answers and the step at an index outside CMDBUF. -/
theorem programCounterRule : Obligations.ProgramCounterRule :=
  ⟨fun i s hs => exec_movesPcByOffset i (by simp [hs]),
    fun s hs hp => ⟨_, step_of_pc_outside hs hp, faultEntered_takeFault _ _ s⟩⟩

end Sys2Proof.Machine
end

section
/-! The commands on 64-bit operands (10_state.md R25): what they write is a function of the low limbs of their sources, and four of
them write a 64-bit value widened. -/

namespace Sys2Proof.Machine

/-- Equal low 64 bits are equal narrow operands (R25). -/
theorem narrow_eq_of_low_eq {s s' : State} {r : Reg} (h : (s.reg r).toNat % 2 ^ 64 = (s'.reg r).toNat % 2 ^ 64) :
    s.narrow r = s'.narrow r :=
  BitVec.eq_of_toNat_eq (by simpa only [State.narrow, lo64_toNat] using h)

/-- The lowest bits of a value are those of its low limb (R9). -/
theorem extractLsb'_lo64 (v : Word128) {k : Nat} (hk : k ≤ 64) : (lo64 v).extractLsb' 0 k = v.extractLsb' 0 k := by
  apply BitVec.eq_of_toNat_eq
  simp [lo64_toNat, Nat.mod_mod_of_dvd _ (Nat.pow_dvd_pow 2 hk)]

/-- ABSU at every width sees the low limb only (R25, R194). -/
theorem absUWord_congr_lo64 (w : AbsWidth) {a b : Word128} (h : lo64 a = lo64 b) : absUWord w a = absUWord w b := by
  have low (k : Nat) (hk : k ≤ 64) : a.extractLsb' 0 k = b.extractLsb' 0 k := by
    rw [← extractLsb'_lo64 a hk, ← extractLsb'_lo64 b hk, h]
  cases w <;> simp [absUWord, low]

/-- ABSU's result is a value of at most 64 bits, widened (R194). -/
theorem absUWord_lt (w : AbsWidth) (v : Word128) : (absUWord w v).toNat < 2 ^ 64 := by
  have widened {k : Nat} (hk : k ≤ 64) (p : BitVec k) : (p.setWidth 128).toNat < 2 ^ 64 := by
    rw [BitVec.toNat_setWidth]
    exact (Nat.mod_le _ _).trans_lt (p.isLt.trans_le (Nat.pow_le_pow_right (by decide) hk))
  cases w <;> exact widened (by decide) _

theorem widen_lt (v : Word64) : (widen v).toNat < 2 ^ 64 := widen_toNat v ▸ v.isLt

theorem boolWord_lt (p : Bool) : (boolWord p).toNat < 2 ^ 64 := by cases p <;> decide

/-- In two states with the same narrow operands, a command on 64-bit operands writes the same value to its destination (R25). -/
theorem exec_writes_same_of_narrow_eq {i : Instr} {rd : Reg} {rs : List Reg} {s s' : State}
    (hi : narrowOperands i = some (rd, rs)) (hn : ∀ r ∈ rs, s.narrow r = s'.narrow r) :
    ∃ v, exec i s = .next (s.writeResult rd v) ∧ exec i s' = .next (s'.writeResult rd v) := by
  cases i with
  | absu d rs1 w =>
    obtain ⟨rfl, rfl⟩ := Prod.mk.inj (Option.some.inj hi)
    exact ⟨_, rfl, by rw [absUWord_congr_lo64 w (hn rs1 (by simp))]; rfl⟩
  | make d rs1 rs2 | mul64 d rs1 rs2 | sqr64 d rs1 | isprime d rs1 | mulmod d rs1 rs2 rs3 | modpow d rs1 rs2 rs3 =>
    obtain ⟨rfl, rfl⟩ := Prod.mk.inj (Option.some.inj hi)
    simp only [List.forall_mem_cons] at hn
    exact ⟨_, rfl, by simp only [hn]; rfl⟩
  | _ => cases hi

/-- Settles O18: equal narrow operands give one value to write, and each of the four widened results fits a limb. -/
theorem highLimbsAreIgnored : Obligations.HighLimbsAreIgnored := by
  refine ⟨fun i rd rs s s' hi hlow => ?_, fun rd rs1 rs2 rs3 w s => ?_⟩
  · obtain ⟨v, hv, hv'⟩ := exec_writes_same_of_narrow_eq hi fun r hr => narrow_eq_of_low_eq (hlow r hr)
    exact ⟨_, _, hv, hv', by simp only [State.reg_writeResult, if_true]⟩
  · simp only [List.forall_mem_cons]
    have fits {v : Word128} (hv : v.toNat < 2 ^ 64) : ((s.writeResult rd v).reg rd).toNat < 2 ^ 64 := by
      rwa [State.reg_writeResult, if_pos rfl]
    exact ⟨⟨_, rfl, fits (widen_lt _)⟩, ⟨_, rfl, fits (widen_lt _)⟩, ⟨_, rfl, fits (absUWord_lt w _)⟩,
      ⟨_, rfl, fits (boolWord_lt _)⟩, by simp⟩

end Sys2Proof.Machine
end

section
/-! The registers of the control block through the host window (10_state.md R30 to R36; 20_memory.md R51, R54, R55): each access
leads to the register of its offset, the read-only ones ignore a write, and PC and IE take theirs. -/

namespace Sys2Proof.Machine

/-- A read at the offset of a control register is a read of that register (R51, R54). -/
theorem hostRead_control {off : Nat} {c : CtlReg} (h : locate off 4 = some (.control c)) (s : State) :
    hostRead (windowAddr off) 4 s = .next (controlRead c s) := by
  rw [hostRead_windowAddr, windowRead, h]
  rfl

/-- A write at the offset of a control register is a write of that register (R51, R55). -/
theorem hostWrite_control {off : Nat} {c : CtlReg} (h : locate off 4 = some (.control c)) (w : Word32) (s : State) :
    hostWrite (windowAddr off) 4 w s = .next (controlWrite c w s) := by
  rw [hostWrite_windowAddr, windowWrite, h]
  rfl

/-- What the host reads of IP, by STATE (R36). -/
theorem controlRead_ip (s : State) :
    controlRead .ip s = match s.runState with
      | .done => 1
      | .fault => 2
      | .idle | .run => 0 := by
  simp only [controlRead, State.ip]
  cases s.runState <;> rfl

/-- DONE_IP is pending exactly in DONE (R36). -/
theorem ip_getLsbD_zero (s : State) : s.ip.getLsbD 0 = true ↔ s.runState = .done := by
  unfold State.ip
  cases s.runState <;> decide

/-- FAULT_IP is pending exactly in FAULT (R36). -/
theorem ip_getLsbD_one (s : State) : s.ip.getLsbD 1 = true ↔ s.runState = .fault := by
  unfold State.ip
  cases s.runState <;> decide

/-- Two pairs of bits have a common bit in one of the two places. -/
theorem and_ne_zero_iff_common_bit : ∀ e p : BitVec 2,
    e &&& p ≠ 0 ↔ e.getLsbD 0 = true ∧ p.getLsbD 0 = true ∨ e.getLsbD 1 = true ∧ p.getLsbD 1 = true := by decide

theorem irq_iff (s : State) : s.irq = true ↔ s.ie &&& s.ip ≠ 0 := by simp [State.irq]

/-- `irq` by its two sources: DONE with its enable, FAULT with its enable (R36, R289). -/
theorem irq_iff_enabled_source (s : State) :
    s.irq = true ↔ s.ie.getLsbD 0 = true ∧ s.runState = .done ∨ s.ie.getLsbD 1 = true ∧ s.runState = .fault := by
  rw [irq_iff, and_ne_zero_iff_common_bit, ip_getLsbD_zero, ip_getLsbD_one]

/-- Settles O51: the reads by the window's map, the ignored writes by the three read-only arms. -/
theorem readOnlyRegisters : Obligations.ReadOnlyRegisters := by
  intro s w
  refine ⟨hostRead_control (c := .id) rfl s, hostRead_control (c := .status) rfl s, ?_, ?_, irq_iff s⟩
  · exact (hostRead_control (c := .ip) rfl s).trans (congrArg Host.Outcome.next (controlRead_ip s))
  · intro off hoff
    simp only [List.mem_cons, List.not_mem_nil, or_false] at hoff
    rcases hoff with rfl | rfl | rfl
    · exact hostWrite_control (c := .id) rfl w s
    · exact hostWrite_control (c := .status) rfl w s
    · exact hostWrite_control (c := .ip) rfl w s

/-- Outside RUN a write of PC sets `pc` to the low 16 bits (R34). -/
theorem hostWrite_pc_of_not_run {s : State} (h : s.runState ≠ .run) (w : Word32) :
    hostWrite (windowAddr 0x00C) 4 w s = .next (s.setPc (w.setWidth 16)) := by
  rw [hostWrite_control (c := .pc) rfl, controlWrite, unlessRunning_of_not_run h]

/-- While RUN a write of PC is ignored (R34, R55). -/
theorem hostWrite_pc_of_run {s : State} (h : s.runState = .run) (w : Word32) :
    hostWrite (windowAddr 0x00C) 4 w s = .next s := by
  rw [hostWrite_control (c := .pc) rfl, controlWrite, unlessRunning_run h]

/-- Only `pc` differs after `pc <- t`. -/
theorem keepsControl_setPc (s : State) (t : Word16) : KeepsControl s (s.setPc t) := ⟨rfl, rfl, rfl, rfl, rfl, fun _ => rfl⟩

/-- The host's writes of PC and then of START, in IDLE: the machine runs at the value written (R32, R34). -/
theorem applyEvents_pc_start {s : State} (h : s.runState = .idle) (w : Word32) :
    applyEvents [.write (windowAddr 0x00C) 4 w, .write ctrlAddr 4 1] s = (s.setPc (w.setWidth 16)).setRunState .run := by
  have hne : s.runState ≠ .run := by simp [h]
  have hstart : ctrlWrite 1 (s.setPc (w.setWidth 16)) = startRun (s.setPc (w.setWidth 16)) := rfl
  simp only [applyEvents, applyEvent, hostWrite_pc_of_not_run hne, stateAfter, hostWrite_ctrlAddr, hstart]
  exact startRun_of_idle h

/-- Settles O52: the two registers' reads and writes, then the run that START begins at the value written. -/
theorem pcAndIeRegisters : Obligations.PcAndIeRegisters := by
  refine ⟨fun s => ⟨⟨_, hostRead_control (c := .pc) rfl s, ?_⟩, _, hostRead_control (c := .ie) rfl s, ?_⟩, ?_, ?_, ?_, ?_⟩
  · simp only [controlRead, BitVec.toNat_setWidth]
    omega
  · simp only [controlRead, BitVec.toNat_setWidth]
    omega
  · intro s w h
    exact ⟨_, hostWrite_pc_of_not_run h w, by simp, fun _ => rfl, keepsControl_setPc s _⟩
  · exact fun s w h => hostWrite_pc_of_run h w
  · intro s w h hw
    refine ⟨_, _, applyEvents_pc_start h w, step_of_pc_outside rfl (by simpa using hw), faultEntered_takeFault _ _ _, ?_⟩
    simp
  · intro s w
    exact ⟨_, hostWrite_control (c := .ie) rfl w s, by simp [controlWrite], rfl, fun _ => rfl, rfl, rfl, rfl, rfl, fun _ => rfl,
      irq_iff_enabled_source _⟩

end Sys2Proof.Machine
end

section
/-! How STATE changes (10_state.md R29): what a step, a write of CTRL and any other host write can do to it. -/

namespace Sys2Proof.Machine

/-- A command keeps STATE, or is HALT, or enters the fault DIVZERO (R29). -/
theorem CommandEffect.runState_cases {i : Instr} {s t : State} (h : CommandEffect i s t) :
    t.runState = s.runState ∨ (i = .halt ∧ t.runState = .done) ∨ FaultEntered .divzero (encode i) s t := by
  cases h with
  | advance | branch off | write rd v | writeTwo rd rd2 v w => exact .inl rfl
  | halt hi => exact .inr (.inl ⟨hi, rfl⟩)
  | divzero r hr h0 => exact .inr (.inr (faultEntered_takeFault _ _ _))

/-- Every step answers a next state (R318). -/
theorem exists_step_eq_next (s : State) : ∃ t, step s = .next t := by
  by_cases hr : s.runState = .run
  · simp only [step, hr]
    cases fetchNext s with
    | outOfRange | illegal w => exact ⟨_, rfl⟩
    | command i =>
      obtain ⟨t, ht, -⟩ := exec_cases i s
      exact ⟨t, ht⟩
  · exact ⟨s, step_of_not_run hr⟩

/-- A word of CMDBUF that decodes is fetched as its command (R80). -/
theorem fetchNext_of_decodeWord {s : State} {i : Instr} (hp : s.pc.toNat < Config.cmdbufWords)
    (hd : decodeWord (s.cmdWord s.pc.toNat) = .ok i) : fetchNext s = .command i := by
  simp [fetchNext, hp.not_ge, hd]

/-- A step changes STATE in RUN only, by a fetched HALT or by entering a fault (R29). -/
theorem command_runState_cases (s : State) :
    (applyEvent .command s).runState = s.runState ∨
      s.runState = .run ∧ (applyEvent .command s).runState = .done ∧ fetchNext s = .command .halt ∨
      s.runState = .run ∧ ∃ c w, FaultEntered c w s (applyEvent .command s) := by
  obtain ⟨t, ht⟩ := exists_step_eq_next s
  have happ : applyEvent .command s = t := by rw [applyEvent, ht]; rfl
  rw [happ]
  by_cases hr : s.runState = .run
  · rcases step_run_cases hr ht with ⟨-, rfl⟩ | ⟨-, -, rfl⟩ | ⟨hp, i, hd, heff⟩
    · exact .inr (.inr ⟨hr, _, _, faultEntered_takeFault _ _ s⟩)
    · exact .inr (.inr ⟨hr, _, _, faultEntered_takeFault _ _ s⟩)
    · rcases heff.runState_cases with hkeep | ⟨rfl, hdone⟩ | hfault
      · exact .inl hkeep
      · exact .inr (.inl ⟨hr, hdone, fetchNext_of_decodeWord hp hd⟩)
      · exact .inr (.inr ⟨hr, _, _, hfault⟩)
  · rw [step_of_not_run hr] at ht
    cases ht
    exact .inl rfl

/-- CLEAR leads from DONE and FAULT to IDLE, and keeps the state in IDLE and RUN (R29, R32). -/
theorem clearRun_cases (s : State) :
    (s.runState = .done ∨ s.runState = .fault) ∧ (clearRun s).runState = .idle ∨ clearRun s = s := by
  cases h : s.runState with
  | done | fault => exact .inl ⟨by simp, by rw [clearRun_of_stopped (by simp [h])]⟩
  | idle | run => exact .inr (clearRun_of_active (by simp [h]))

/-- START leads from IDLE to RUN, and keeps the state elsewhere (R29, R32). -/
theorem startRun_cases (s : State) : s.runState = .idle ∧ (startRun s).runState = .run ∨ startRun s = s := by
  by_cases h : s.runState = .idle
  · exact .inl ⟨h, by rw [startRun_of_idle h]; rfl⟩
  · exact .inr (startRun_of_not_idle h)

/-- A write of CTRL changes STATE by SRST, by START from IDLE, by CLEAR from DONE or FAULT, or by CLEAR and START from there
(R29, R32). -/
theorem ctrlWrite_runState_cases (w : Word32) (s : State) :
    (ctrlWrite w s).runState = s.runState ∨
      w.getLsbD 2 = true ∧ (ctrlWrite w s).runState = .idle ∨
      w.getLsbD 2 = false ∧ w.getLsbD 0 = true ∧ s.runState = .idle ∧ (ctrlWrite w s).runState = .run ∨
      w.getLsbD 2 = false ∧ w.getLsbD 1 = true ∧ (s.runState = .done ∨ s.runState = .fault) ∧
        ((ctrlWrite w s).runState = .idle ∨ w.getLsbD 0 = true ∧ (ctrlWrite w s).runState = .run) := by
  rcases ctrlWrite_cases w s with ⟨h2, ht⟩ | ⟨-, -, -, ht⟩ | ⟨h2, h1, -, ht⟩ | ⟨h2, -, h0, ht⟩ | ⟨h2, h1, h0, ht⟩ <;> rw [ht]
  · exact .inr (.inl ⟨h2, rfl⟩)
  · exact .inl rfl
  · rcases clearRun_cases s with ⟨hs, hidle⟩ | hkeep
    · exact .inr (.inr (.inr ⟨h2, h1, hs, .inl hidle⟩))
    · exact .inl (by rw [hkeep])
  · rcases startRun_cases s with ⟨hs, hrun⟩ | hkeep
    · exact .inr (.inr (.inl ⟨h2, h0, hs, hrun⟩))
    · exact .inl (by rw [hkeep])
  · rcases clearRun_cases s with ⟨hs, hidle⟩ | hclear
    · exact .inr (.inr (.inr ⟨h2, h1, hs, .inr ⟨h0, by rw [startRun_of_idle hidle]; rfl⟩⟩))
    · rw [hclear]
      rcases startRun_cases s with ⟨hs, hrun⟩ | hkeep
      · exact .inr (.inr (.inl ⟨h2, h0, hs, hrun⟩))
      · exact .inl (by rw [hkeep])

/-- A host write changes STATE by a write of CTRL only (R29, R30). -/
theorem write_runState_cases (addr size : Nat) (w : Word32) (s : State) :
    (applyEvent (.write addr size w) s).runState = s.runState ∨
      addr = ctrlAddr ∧ size = 4 ∧ applyEvent (.write addr size w) s = ctrlWrite w s := by
  rcases h : hostWrite addr size w s with t | e | e
  · obtain ⟨hsize, heff⟩ := hostWrite_cases h
    have happ : applyEvent (.write addr size w) s = t := by rw [applyEvent, h]; rfl
    rw [happ]
    cases heff with
    | ctrl haddr => exact .inr ⟨haddr, hsize, rfl⟩
    | pc | ie | regWord r j | cmdWord k | nothing => exact .inl rfl
  · exact .inl (by rw [applyEvent, h]; rfl)
  · exact .inl (by rw [applyEvent, h]; rfl)

/-- Settles O39: each event by the ways it can change STATE. -/
theorem runStateTransitions : Obligations.RunStateTransitions := by
  intro s e hne
  cases e with
  | command =>
    rcases command_runState_cases s with hkeep | ⟨hs, ht, hhalt⟩ | ⟨hs, c, w, hfault⟩
    · exact absurd hkeep hne
    · rw [hs, ht]
      exact ⟨rfl, hhalt⟩
    · rw [hs, hfault.runState]
      exact ⟨rfl, c, w, hfault⟩
  | read addr size => exact absurd rfl hne
  | reset =>
    cases hs : s.runState with
    | idle => exact absurd hs.symm hne
    | run | done | fault => exact .inl rfl
  | write addr size w =>
    rcases write_runState_cases addr size w s with hkeep | ⟨rfl, rfl, happ⟩
    · exact absurd hkeep hne
    · rw [happ] at hne ⊢
      rcases ctrlWrite_runState_cases w s with hkeep | ⟨h2, ht⟩ | ⟨h2, h0, hs, ht⟩ | ⟨h2, h1, hs, ht | ⟨h0, ht⟩⟩
      · exact absurd hkeep hne
      · rw [ht] at hne ⊢
        cases hs : s.runState with
        | idle => exact absurd hs.symm hne
        | run => exact .inr ⟨w, rfl, h2⟩
        | done | fault => exact .inr ⟨w, rfl, .inr h2⟩
      · rw [hs, ht]
        exact ⟨w, rfl, h0, h2⟩
      · rcases hs with hs | hs <;> rw [hs, ht] <;> exact .inr ⟨w, rfl, .inl h1⟩
      · rcases hs with hs | hs <;> rw [hs, ht] <;> exact ⟨w, rfl, h0, h1, h2⟩

end Sys2Proof.Machine
end

section
/-! The command words through the host window (20_memory.md R52, R58): a write outside RUN replaces one word, a write while RUN is
ignored, and the fetch finds the word that the host reads. -/

namespace Sys2Proof.Machine

/-- Outside RUN a write of a command word replaces that word (R55, R58). -/
theorem hostWrite_cmdAddr_of_not_run {s : State} (h : s.runState ≠ .run) (k : Fin 256) (w : Word32) :
    hostWrite (cmdAddr k) 4 w s = .next (s.setCmdWord k.val w) := by
  rw [hostWrite_cmdAddr, writeLoc, unlessRunning_of_not_run h]

/-- While RUN a write of a command word is ignored (R55, R58). -/
theorem hostWrite_cmdAddr_of_run {s : State} (h : s.runState = .run) (k : Fin 256) (w : Word32) :
    hostWrite (cmdAddr k) 4 w s = .next s := by
  rw [hostWrite_cmdAddr, writeLoc, unlessRunning_run h]

/-- A replaced command word reads back (R58). -/
theorem hostRead_setCmdWord_same (s : State) (k : Fin 256) (w : Word32) :
    hostRead (cmdAddr k) 4 (s.setCmdWord k.val w) = .next w := by
  rw [hostRead_cmdAddr, State.cmdWord_setCmdWord, if_pos rfl]

/-- Every other command word reads as before (R55). -/
theorem hostRead_setCmdWord_other (s : State) {k k' : Fin 256} (h : k' ≠ k) (w : Word32) :
    hostRead (cmdAddr k') 4 (s.setCmdWord k.val w) = hostRead (cmdAddr k') 4 s := by
  simp only [hostRead_cmdAddr, State.cmdWord_setCmdWord, if_neg (Fin.val_ne_of_ne h)]

/-- A word of CMDBUF that does not decode is fetched as no command (R80, R282). -/
theorem fetchNext_of_decodeWord_error {s : State} {e : DecodeReject} (hp : s.pc.toNat < Config.cmdbufWords)
    (hd : decodeWord (s.cmdWord s.pc.toNat) = .error e) : fetchNext s = .illegal (s.cmdWord s.pc.toNat) := by
  simp [fetchNext, hp.not_ge, hd]

/-- From index 256 on the fetch finds no word (R52, R284). -/
theorem fetchNext_of_pc_outside {s : State} (hp : 256 ≤ s.pc.toNat) : fetchNext s = .outOfRange := if_pos hp

/-- Settles O48: the write by whether the machine runs, and the fetch by whether the word that the host reads decodes. -/
theorem commandBufferWords : Obligations.CommandBufferWords := by
  refine ⟨fun s k w h => ?_, fun s k w h => hostWrite_cmdAddr_of_run h k w, fun s k => hostRead_cmdAddr k s,
    fun s k hk => ⟨_, hostRead_cmdAddr k s, ?_⟩, fun s hp => fetchNext_of_pc_outside hp⟩
  · exact ⟨_, hostWrite_cmdAddr_of_not_run h k w, hostRead_setCmdWord_same s k w,
      fun k' hk' => hostRead_setCmdWord_other s hk' w, fun _ => rfl, rfl, rfl, rfl, rfl, rfl, rfl⟩
  · have hp : s.pc.toNat < Config.cmdbufWords := hk ▸ k.isLt
    rw [← hk]
    rcases hd : decodeWord (s.cmdWord s.pc.toNat) with e | i
    · exact fetchNext_of_decodeWord_error hp hd
    · exact fetchNext_of_decodeWord hp hd

end Sys2Proof.Machine
end

section
/-! Legal words (30_encoding.md R76, R77): where each opcode has its must-be-zero bits, that the decoder's test of them and the row's
mask are one test, and so that a word decodes exactly when a row accepts it. -/

namespace Sys2Proof.Machine

/-! ## Fields as bits -/

/-- Two words hold the same number in a field exactly when they agree on its bits (R8). -/
theorem bits_eq_bits_iff (w v : Word32) (lo len : Nat) :
    bits w lo len = bits v lo len ↔ ∀ i < len, w.getLsbD (lo + i) = v.getLsbD (lo + i) := by
  have testBit_bits (u : Word32) (i : Nat) : (bits u lo len).testBit i = (decide (i < len) && u.getLsbD (lo + i)) := by
    rw [bits, Nat.testBit_mod_two_pow, Nat.testBit_div_two_pow, BitVec.testBit_toNat, Nat.add_comm]
  constructor
  · intro h i hi
    simpa [testBit_bits, hi] using congrArg (Nat.testBit · i) h
  · intro h
    refine Nat.eq_of_testBit_eq fun i => ?_
    rw [testBit_bits, testBit_bits]
    by_cases hi : i < len
    · rw [h i hi]
    · simp [hi]

/-- A field is zero exactly when all its bits are. -/
theorem bits_eq_zero_iff (w : Word32) (lo len : Nat) : bits w lo len = 0 ↔ ∀ i < len, w.getLsbD (lo + i) = false := by
  have hzero : bits 0 lo len = 0 := by simp [bits]
  rw [← hzero, bits_eq_bits_iff]
  simp

/-- The mask of a row whose bits `[lo+len-1:lo]` must be zero: a 1 in each of them and in each bit of the opcode (R77). -/
def fixedMask (field : Nat × Nat) : Word32 :=
  0xFF#32 <<< 24 ||| (BitVec.allOnes field.2).setWidth 32 <<< field.1

theorem getLsbD_fixedMask {lo len : Nat} (h : lo + len ≤ 24) (i : Nat) :
    (fixedMask (lo, len)).getLsbD i = (decide (24 ≤ i ∧ i < 32) || decide (lo ≤ i ∧ i < lo + len)) := by
  have hopcode : (0xFF#32) = (BitVec.allOnes 8).setWidth 32 := by decide
  rw [fixedMask, hopcode, Bool.eq_iff_iff]
  simp only [BitVec.getLsbD_or, BitVec.getLsbD_shiftLeft, BitVec.getLsbD_setWidth, BitVec.getLsbD_allOnes, Bool.or_eq_true,
    Bool.and_eq_true, decide_eq_true_eq, Bool.not_eq_true', decide_eq_false_iff_not]
  omega

/-- Masking out the fields of a row tests the opcode and the must-be-zero bits (R76). -/
theorem and_fixedMask_eq_iff (w : Word32) {m : Word32} {lo len : Nat} (h : lo + len ≤ 24) (hm : bits m 0 24 = 0) :
    w &&& fixedMask (lo, len) = m ↔ opcodeOf w = opcodeOf m ∧ bits w lo len = 0 := by
  rw [bits_eq_zero_iff] at hm ⊢
  rw [opcodeOf, opcodeOf, bits_eq_bits_iff]
  constructor
  · rintro rfl
    refine ⟨fun i hi => ?_, fun i hi => ?_⟩
    · have hin : 24 ≤ 24 + i ∧ 24 + i < 32 := by omega
      simp [getLsbD_fixedMask h, hin, -BitVec.getLsbD_eq_getElem]
    · have hlow := hm (lo + i) (by omega)
      have hin : lo ≤ lo + i ∧ lo + i < lo + len := by omega
      simpa [getLsbD_fixedMask h, hin, -BitVec.getLsbD_eq_getElem] using hlow
  · rintro ⟨hop, hzero⟩
    refine BitVec.eq_of_getLsbD_eq fun i hi => ?_
    rw [BitVec.getLsbD_and, getLsbD_fixedMask h]
    by_cases htop : 24 ≤ i
    · have := hop (i - 24) (by omega)
      rw [Nat.add_sub_cancel' htop] at this
      simp [htop, hi, this, -BitVec.getLsbD_eq_getElem]
    · have hmi := hm i (by omega)
      rw [Nat.zero_add] at hmi
      rw [hmi]
      by_cases hin : lo ≤ i ∧ i < lo + len
      · have := hzero (i - lo) (by omega)
        rw [Nat.add_sub_cancel' hin.1] at this
        rw [this, Bool.false_and]
      · simp [htop, hin]

/-! ## The must-be-zero bits of each opcode -/

/-- The must-be-zero bits of an opcode of R77, as lowest bit and length. -/
def mustBeZero : Nat → Option (Nat × Nat)
  | 0x01 | 0x02 => some (0, 24)
  | 0x03 => some (16, 8)
  | 0x04 | 0x05 => some (20, 4)
  | 0x09 | 0x0A => some (16, 4)
  | 0x0B => some (2, 18)
  | 0x38 => some (2, 14)
  | 0x1E | 0x1F => some (7, 9)
  | 0x32 | 0x39 | 0x3A => some (0, 8)
  | 0x08 | 0x0D | 0x0E | 0x0F | 0x29 | 0x42 => some (0, 16)
  | 0x0C | 0x10 | 0x11 | 0x12 | 0x13 | 0x14 | 0x15 | 0x18 | 0x19 | 0x1C | 0x1D => some (0, 12)
  | 0x20 | 0x21 | 0x28 | 0x2A | 0x30 | 0x31 | 0x40 | 0x41 => some (0, 12)
  | _ => none

/-- The test of the must-be-zero bits answers a command exactly when they are zero (R76). -/
theorem exists_ifZero_eq_ok_iff (w : Word32) (lo len : Nat) (i : Instr) :
    (∃ j, ifZero w lo len i = .ok j) ↔ bits w lo len = 0 := by
  unfold ifZero
  split_ifs with h <;> simp [h]

/-- The decoder answers a command exactly when the opcode is assigned and its must-be-zero bits are zero (R76). -/
theorem exists_decodeWord_eq_ok_iff (w : Word32) :
    (∃ i, decodeWord w = .ok i) ↔ ∃ field, mustBeZero (opcodeOf w) = some field ∧ bits w field.1 field.2 = 0 := by
  unfold decodeWord
  split <;> simp [mustBeZero, exists_ifZero_eq_ok_iff, *]

/-! ## The rows of the opcode map -/

/-- The opcode of a row: that of its word with all fields zero (R77). -/
def rowOpcode (row : OpRow) : Nat := opcodeOf row.matchBits

/-- Every row fixes its opcode and that opcode's must-be-zero bits, all of them zero and below the opcode, and nothing else (R77). -/
theorem row_of_mem_opcodeTable : ∀ row ∈ opcodeTable,
    (mustBeZero (rowOpcode row)).map fixedMask = some row.mask ∧
      (∀ field ∈ mustBeZero (rowOpcode row), field.1 + field.2 ≤ 24) ∧ bits row.matchBits 0 24 = 0 := by decide

/-- No two rows have one opcode (R77). -/
theorem opcodes_nodup : (opcodeTable.map rowOpcode).Nodup := by decide

/-- Every opcode with must-be-zero bits has a row (R77). -/
theorem mem_opcodes_of_mustBeZero {op : Nat} : (mustBeZero op).isSome → op ∈ opcodeTable.map rowOpcode := by
  unfold mustBeZero
  split
  rotate_right
  · exact nofun
  all_goals decide

/-- A row accepts the words of its opcode whose must-be-zero bits are zero (R76). -/
theorem and_mask_eq_iff {row : OpRow} (hrow : row ∈ opcodeTable) (w : Word32) :
    w &&& row.mask = row.matchBits ↔
      opcodeOf w = rowOpcode row ∧ ∃ field, mustBeZero (rowOpcode row) = some field ∧ bits w field.1 field.2 = 0 := by
  obtain ⟨hmask, hle, hlow⟩ := row_of_mem_opcodeTable row hrow
  obtain ⟨field, hfield, hm⟩ := Option.map_eq_some_iff.1 hmask
  rw [← hm, and_fixedMask_eq_iff w (hle field hfield) hlow, hfield]
  simp [rowOpcode]

/-- A word is legal exactly when a row accepts it (R76). -/
theorem exists_decodeWord_eq_ok_iff_row (w : Word32) :
    (∃ i, decodeWord w = .ok i) ↔ ∃ row ∈ opcodeTable, w &&& row.mask = row.matchBits := by
  rw [exists_decodeWord_eq_ok_iff]
  constructor
  · rintro ⟨field, hfield, hzero⟩
    have hmem := mem_opcodes_of_mustBeZero (op := opcodeOf w) (by simp [hfield])
    obtain ⟨row, hrow, hop⟩ := List.mem_map.1 hmem
    exact ⟨row, hrow, (and_mask_eq_iff hrow w).2 ⟨hop.symm, field, hop ▸ hfield, hzero⟩⟩
  · rintro ⟨row, hrow, haccepts⟩
    obtain ⟨hop, hfields⟩ := (and_mask_eq_iff hrow w).1 haccepts
    exact hop ▸ hfields

/-- Two rows that accept one word are one row: the word has one opcode (R76, R77). -/
theorem eq_of_rows_accept {w : Word32} {row row' : OpRow} (hrow : row ∈ opcodeTable) (hrow' : row' ∈ opcodeTable)
    (h : w &&& row.mask = row.matchBits) (h' : w &&& row'.mask = row'.matchBits) : row = row' := by
  obtain ⟨hop, -⟩ := (and_mask_eq_iff hrow w).1 h
  obtain ⟨hop', -⟩ := (and_mask_eq_iff hrow' w).1 h'
  exact List.inj_on_of_nodup_map opcodes_nodup hrow hrow' (hop.symm.trans hop')

/-! ## The ILLEGAL fault -/

/-- No command raises ILLEGAL: from a state in RUN it faults with DIVZERO or not at all (R280 to R282). -/
theorem CommandEffect.not_illegal {i : Instr} {s t : State} {w : Word32} (heff : CommandEffect i s t) (hr : s.runState = .run) :
    ¬ FaultEntered .illegal w s t := by
  intro hill
  have hfault := hill.runState
  rcases heff.runState_cases with hkeep | ⟨-, hdone⟩ | hdiv
  · simp [hkeep, hr] at hfault
  · simp [hdone] at hfault
  · exact absurd (hdiv.fcause.symm.trans hill.fcause) (by decide)

/-- A fetched word raises ILLEGAL exactly when it is no command (R76, R282). -/
theorem step_illegal_iff {s : State} (hr : s.runState = .run) (hp : s.pc.toNat < 256) :
    (∃ t, step s = .next t ∧ FaultEntered .illegal (s.cmdWord s.pc.toNat) s t) ↔
      ¬ ∃ i, decodeWord (s.cmdWord s.pc.toNat) = .ok i := by
  cases hd : decodeWord (s.cmdWord s.pc.toNat) with
  | error e =>
    have hstep : step s = .next (takeFault .illegal (s.cmdWord s.pc.toNat) s) := by
      simp [step, hr, fetchNext_of_decodeWord_error hp hd]
    exact iff_of_true ⟨_, hstep, faultEntered_takeFault _ _ s⟩ (by simp)
  | ok i =>
    refine iff_of_false ?_ (by simp)
    rintro ⟨t, ht, hill⟩
    have hexec : exec i s = .next t := by simpa [step, hr, fetchNext_of_decodeWord hp hd] using ht
    exact (exec_next_cases hexec).not_illegal hr hill

/-- Settles O3: a row's mask and the decoder's test are one test, and the fault is raised exactly for what the decoder rejects. -/
theorem legalExactlyWhenARowMatches : Obligations.LegalExactlyWhenARowMatches := by
  refine ⟨exists_decodeWord_eq_ok_iff_row, fun w row hrow row' hrow' => eq_of_rows_accept hrow hrow', fun s hr hp => ?_⟩
  rw [step_illegal_iff hr hp, exists_decodeWord_eq_ok_iff_row]
  simp

end Sys2Proof.Machine
end

section
/-! The pseudo-instructions (30_encoding.md R82): what the assembler makes of their statements, and what the expansions do, the loads of
constants by induction on the 16-bit pieces. -/

namespace Sys2Proof.Machine

/-! ## Runs that leave a value in one register -/

theorem KeepsControl.refl (s : State) : KeepsControl s s := ⟨rfl, rfl, rfl, rfl, rfl, fun _ => rfl⟩

theorem KeepsControl.trans {s t u : State} (h : KeepsControl s t) (h' : KeepsControl t u) : KeepsControl s u where
  runState := h'.runState.trans h.runState
  ie := h'.ie.trans h.ie
  fcause := h'.fcause.trans h.fcause
  fpc := h'.fpc.trans h.fpc
  fcmd := h'.fcmd.trans h.fcmd
  bytes off := (h'.bytes off).trans (h.bytes off)

/-- A command's result as the relation of R27 and R28. -/
theorem writesRegister_writeResult (s : State) (rd : Reg) (v : Word128) :
    WritesRegister s (s.writeResult rd v) rd v.toNat where
  result := by simp [State.reg_writeResult]
  others r hr := by simp [State.reg_writeResult, hr]
  next := advance_pc_toNat (s.setReg rd v)
  control := ⟨rfl, rfl, rfl, rfl, rfl, fun _ => rfl⟩

/-- No commands leave what the register holds. -/
theorem LoadsValue.nil {s : State} {rd : Reg} {v : Nat} (h : (s.reg rd).toNat = v) : LoadsValue [] s rd v :=
  ⟨by simp, s, rfl, h, fun _ _ => rfl, (Nat.mod_eq_of_lt s.pc.isLt).symm, .refl s⟩

/-- A command that writes the register, before commands that go on from there (R235). -/
theorem LoadsValue.cons {i : Instr} {is : List Instr} {s : State} {rd : Reg} {u : Word128} {v : Nat}
    (hwf : i.wellFormed = true) (hexec : exec i s = .next (s.writeResult rd u))
    (h : LoadsValue is (s.writeResult rd u) rd v) : LoadsValue (i :: is) s rd v := by
  obtain ⟨hwfs, t, ht, hv, hothers, hpc, hcontrol⟩ := h
  have hw := writesRegister_writeResult s rd u
  refine ⟨List.forall_mem_cons.2 ⟨hwf, hwfs⟩, t, ?_, hv, fun r hr => (hothers r hr).trans (hw.others r hr), ?_,
    hw.control.trans hcontrol⟩
  · simpa [execAll, hexec] using ht
  · rw [hpc, hw.next, List.length_cons]
    omega

/-- One command that writes the value. -/
theorem LoadsValue.single {i : Instr} {s : State} {rd : Reg} {u : Word128} {v : Nat} (hwf : i.wellFormed = true)
    (hexec : exec i s = .next (s.writeResult rd u)) (hu : u.toNat = v) : LoadsValue [i] s rd v :=
  .cons hwf hexec (.nil ((writesRegister_writeResult s rd u).result.trans hu))

/-! ## LI64 and LI128 -/

/-- The value from bit `16 * k` up is the value above the next piece, and that piece (R82). -/
theorem div_eq_piece (v k : Nat) : v / 2 ^ (16 * k) = v / 2 ^ (16 * (k + 1)) * 2 ^ 16 + half16 v k := by
  rw [half16, Nat.mul_succ, pow_add, ← Nat.div_div_eq_div_mul, Nat.div_add_mod']

theorem immInRange_half16 (v k : Nat) : immInRange (half16 v k) = true :=
  decide_eq_true (Nat.mod_lt _ (by decide))

theorem zextImm_half16_toNat (v k : Nat) : (zextImm (half16 v k)).toNat = half16 v k := by
  have : half16 v k < 2 ^ 16 := Nat.mod_lt _ (by decide)
  rw [zextImm, BitVec.toNat_ofNat, Nat.mod_eq_of_lt (by omega)]

/-- LDIS of a piece appends it to the pieces above it that the register holds (R82, R102). -/
theorem shiftLeft_or_piece {x : Word128} {v k : Nat} (hv : v < 2 ^ 128) (hx : x.toNat = v / 2 ^ (16 * (k + 1))) :
    (x <<< 16 ||| zextImm (half16 v k)).toNat = v / 2 ^ (16 * k) := by
  have hpiece : half16 v k < 2 ^ 16 := Nat.mod_lt _ (by decide)
  have hdiv := div_eq_piece v k
  have hle : v / 2 ^ (16 * k) ≤ v := Nat.div_le_self _ _
  rw [BitVec.toNat_or, zextImm_half16_toNat, BitVec.toNat_shiftLeft, hx, Nat.shiftLeft_eq, Nat.mod_eq_of_lt (by omega),
    ← Nat.shiftLeft_eq, ← Nat.shiftLeft_add_eq_or_of_lt hpiece, Nat.shiftLeft_eq, hdiv]

/-- The LDIS of the `k` lowest pieces complete the value whose upper pieces the register holds (R82). -/
theorem loadsValue_ldisPieces {rd : Reg} {v : Nat} (hv : v < 2 ^ 128) (k : Nat) : ∀ s : State,
    (s.reg rd).toNat = v / 2 ^ (16 * k) → LoadsValue (ldisPieces rd v k) s rd v := by
  induction k with
  | zero => exact fun s hs => .nil (by simpa using hs)
  | succ k ih =>
    intro s hs
    refine .cons (immInRange_half16 v k) rfl (ih _ ?_)
    rw [State.reg_writeResult, if_pos rfl, shiftLeft_or_piece hv hs]

/-- LDI of the highest piece of a value of `k + 1` pieces, then LDIS of the others, load the value (R82). -/
theorem loadsValue_ldi_ldisPieces (rd : Reg) {v k : Nat} (s : State) (hv : v < 2 ^ (16 * (k + 1))) (hk : k < 8) :
    LoadsValue (.ldi rd (half16 v k) :: ldisPieces rd v k) s rd v := by
  have hv128 : v < 2 ^ 128 := hv.trans_le (Nat.pow_le_pow_right (by decide) (by omega))
  refine .cons (immInRange_half16 v k) rfl (loadsValue_ldisPieces hv128 k _ ?_)
  rw [State.reg_writeResult, if_pos rfl, zextImm_half16_toNat, div_eq_piece, Nat.div_eq_of_lt hv, Nat.zero_mul, Nat.zero_add]

/-! ## The statements -/

/-- A natural number is taken as itself. -/
theorem withNumber_natCast (v : Nat) (f : Nat → Option (List Instr)) : withNumber v f = f v := by
  rw [withNumber, if_pos (Int.natCast_nonneg v), Int.toNat_natCast]

theorem commandsOf_li64 (labels : List (List Char × Nat)) (index : Nat) (rd : Reg) {v : Nat} (hv : v < 2 ^ 64) :
    commandsOf labels index (stmt "LI64" [.reg rd, .num v]) = some (pseudoLi64 rd v) := by
  have hcase : commandsOf labels index (stmt "LI64" [.reg rd, .num v]) =
      withNumber v fun n => if n < 2 ^ 64 then some (pseudoLi64 rd n) else none := rfl
  rw [hcase, withNumber_natCast, if_pos hv]

theorem commandsOf_li128 (labels : List (List Char × Nat)) (index : Nat) (rd : Reg) {v : Nat} (hv : v < 2 ^ 128) :
    commandsOf labels index (stmt "LI128" [.reg rd, .num v]) = some (pseudoLi128 rd v) := by
  have hcase : commandsOf labels index (stmt "LI128" [.reg rd, .num v]) =
      withNumber v fun n => if n < 2 ^ 128 then some (pseudoLi128 rd n) else none := rfl
  rw [hcase, withNumber_natCast, if_pos hv]

/-- BR of a label that stands at one place is JMP with its offset (R81, R82). -/
theorem commandsOf_br_label {labels : List (List Char × Nat)} {name : List Char} {k : Nat} (index : Nat)
    (hn : (labels.map Prod.fst).Nodup) (hm : (name, k) ∈ labels) :
    commandsOf labels index (stmt "BR" [.name name]) = some [.jmp (labelOffset k index)] := by
  have hbr : commandsOf labels index (stmt "BR" [.name name]) =
      (labelTarget labels index name).bind fun off => oneCommand (.jmp off) := rfl
  rw [hbr, labelTarget_of_mem index hn hm, Option.bind_some, oneCommand]
  exact if_pos (offInRange_labelOffset k index)

/-- Settles O23: the statements through the assembler's cases, the loads by induction on their pieces. -/
theorem pseudoInstructionsMeanWhatTheySay : Obligations.PseudoInstructionsMeanWhatTheySay := by
  intro labels index
  refine ⟨fun rd rs s => ⟨rfl, .single rfl rfl rfl, rfl, .single rfl rfl ?_, rfl⟩, fun _ => rfl,
    fun name k hn hm => commandsOf_br_label index hn hm, fun rd v s hv => ?_, fun rd v s hv => ?_⟩
  · rw [widen_toNat, lo64_toNat]
  · have his := loadsValue_ldi_ldisPieces rd (k := 3) s hv (by decide)
    have hcommands := commandsOf_li64 labels index rd hv
    simp only [pseudoLi64, ldisPieces, half16, Nat.mul_zero, pow_zero, Nat.div_one] at his hcommands
    exact ⟨hcommands, rfl, his⟩
  · have his := loadsValue_ldi_ldisPieces rd (k := 7) s hv (by decide)
    have hcommands := commandsOf_li128 labels index rd hv
    simp only [pseudoLi128, ldisPieces, half16, Nat.mul_zero, pow_zero, Nat.div_one] at his hcommands
    exact ⟨hcommands, rfl, his⟩

end Sys2Proof.Machine
end

section
/-! Commands from their words (30_encoding.md R71 to R77): the decoder takes the word of every command back to the command, and a
command that writes one register does so from its word. -/

namespace Sys2Proof.Machine

/-! ## The bits of a word that R77 fixes at zero, and the fields inside the immediate -/

section
variable {op : Nat} (hop : op < 256) (rd rs1 rs2 : Reg)
include hop

theorem bits_wordR_without_rs2 : bits (wordR op rd rs1 0 0) 0 16 = 0 := by
  simp only [bits, wordR_toNat _ _ _ _ _ hop, Fin.val_zero]
  omega

theorem bits_wordR_without_rs3 : bits (wordR op rd rs1 rs2 0) 0 12 = 0 := by
  simp only [bits, wordR_toNat _ _ _ _ _ hop, Fin.val_zero]
  omega

theorem bits_wordI_without_rs1 (imm : Nat) : bits (wordI op rd 0 imm) 16 4 = 0 := by
  simp only [bits, wordI_toNat _ _ _ _ hop, Fin.val_zero]
  omega

theorem bits_wordI_without_rd (imm : Nat) : bits (wordI op 0 rs1 imm) 20 4 = 0 := by
  simp only [bits, wordI_toNat _ _ _ _ hop, Fin.val_zero]
  omega

theorem bits_wordI_without_registers (imm : Nat) : bits (wordI op 0 0 imm) 16 8 = 0 := by
  simp only [bits, wordI_toNat _ _ _ _ hop, Fin.val_zero]
  omega

/-- JMP, BZ and BNZ read the offset that was written (R73, R75 e). -/
theorem offOf_wordI {off : Int} (hoff : offInRange off = true) : offOf (wordI op rd rs1 (off16Bits off)) = off := by
  obtain ⟨-, -, -, himm⟩ := wordI_fields op rd rs1 (off16Bits off) hop
  have hsext := congrArg sext16 (himm.trans (Nat.mod_eq_of_lt (off16Bits_lt off)))
  exact hsext.trans (sext16_off16Bits off hoff)

/-- LDC's selector, and all that stands between it and `rd` (R75 c). -/
theorem bits_wordI_selector {imm : Nat} (himm : imm < 2 ^ 16) :
    bits (wordI op rd 0 imm) 0 2 = imm % 4 ∧ bits (wordI op rd 0 imm) 2 18 = imm / 4 := by
  simp only [bits, wordI_toNat _ _ _ _ hop, Fin.val_zero]
  omega

/-- ABSU's width selector, and what stands above it in the immediate (R75 d). -/
theorem bits_wordI_width {n : Nat} (hn : n < 4) : bits (wordI op rd rs1 n) 0 2 = n ∧ bits (wordI op rd rs1 n) 2 14 = 0 := by
  simp only [bits, wordI_toNat _ _ _ _ hop]
  omega

/-- A shift amount, and what stands above it in the immediate (R75 b). -/
theorem bits_wordI_amount {n : Nat} (hn : n < 128) : bits (wordI op rd rs1 n) 0 7 = n ∧ bits (wordI op rd rs1 n) 7 9 = 0 := by
  simp only [bits, wordI_toNat _ _ _ _ hop]
  omega

end

/-! ## Decoding an encoded command -/

/-- An LDC word is LDC of its selector if nothing stands above the selector, and no command otherwise (R75 c, R76). -/
theorem decodeWord_ldc (rd : Reg) {imm : Nat} (himm : imm < 2 ^ 16) :
    decodeWord (wordI 0x0B rd 0 imm) =
      if imm / 4 = 0 then .ok (.ldc rd (ldcConstOf (imm % 4))) else .error .mustBeZero := by
  obtain ⟨hsel, habove⟩ := bits_wordI_selector (op := 0x0B) (by decide) rd himm
  simp [decodeWord, ifZero, wordI_fields, hsel, habove]

/-- The decoder gives a well-formed command back from its word (R76, R77). -/
theorem decodeWord_encode {i : Instr} (hi : i.wellFormed = true) : decodeWord (encode i) = .ok i := by
  cases i with
  | nop | halt => decide
  | jmp off => simp [encode, decodeWord, ifZero, wordI_fields, bits_wordI_without_registers, offOf_wordI _ _ _ hi]
  | bz rs1 off | bnz rs1 off =>
    simp [encode, decodeWord, ifZero, wordI_fields, bits_wordI_without_rd, offOf_wordI _ _ _ hi]
  | ldi rd imm | ldis rd imm =>
    have himm : imm < 65536 := of_decide_eq_true hi
    simp [encode, decodeWord, ifZero, wordI_fields, bits_wordI_without_rs1, Nat.mod_eq_of_lt himm]
  | ldc rd k =>
    have hk := k.sel_lt
    simp [encode, decodeWord_ldc rd (by omega : k.sel < 2 ^ 16), Nat.div_eq_of_lt hk, Nat.mod_eq_of_lt hk]
  | absu rd rs1 w => simp [encode, decodeWord, ifZero, wordI_fields, bits_wordI_width _ _ _ w.sel_lt]
  | shli rd rs1 amount | shri rd rs1 amount =>
    have hamount : amount < 128 := of_decide_eq_true hi
    simp [encode, decodeWord, ifZero, wordI_fields, bits_wordI_amount _ _ _ hamount]
  | _ => simp [encode, decodeWord, ifZero, wordR_fields, bits_wordR_without_rs2, bits_wordR_without_rs3]

/-- A command whose answer is its result in `rd`, from its word (R27, R28, R76). -/
theorem CommandWrites.of_writeResult {w : Word32} {i : Instr} {s : State} {rd : Reg} {u : Word128} {v : Nat}
    (hw : w = encode i) (hi : i.wellFormed = true) (hexec : exec i s = .next (s.writeResult rd u)) (hu : u.toNat = v) :
    CommandWrites w i s rd v :=
  ⟨hw ▸ decodeWord_encode hi, _, hexec, hu ▸ writesRegister_writeResult s rd u⟩

end Sys2Proof.Machine
end

section
/-! The move commands and the commands with an immediate (40_move_convert.md R100 to R107). -/

namespace Sys2Proof.Machine

/-- The high limb is zero exactly for values below `2^64` (R9, R107). -/
theorem hi64_eq_zero_iff (v : Word128) : hi64 v = 0 ↔ v.toNat / 2 ^ 64 = 0 := by
  rw [BitVec.toNat_eq, hi64_toNat]
  rfl

theorem isnarrow_result (v : Word128) : (boolWord (hi64 v == 0)).toNat = if v.toNat / 2 ^ 64 = 0 then 1 else 0 := by
  simp only [boolWord_toNat, beq_iff_eq, hi64_eq_zero_iff]

/-- An immediate is zero-extended (R75 a, R101). -/
theorem zextImm_toNat (imm : BitVec 16) : (zextImm imm.toNat).toNat = imm.toNat := by
  have := imm.isLt
  rw [zextImm, BitVec.toNat_ofNat, Nat.mod_eq_of_lt (by omega)]

theorem immInRange_toNat (imm : BitVec 16) : immInRange imm.toNat = true := decide_eq_true imm.isLt

/-- LDIS shifts its register's top 16 bits out and the immediate in (R102). -/
theorem ldis_result (x : Word128) (imm : BitVec 16) :
    (x <<< 16 ||| zextImm imm.toNat).toNat = x.toNat * 2 ^ 16 % 2 ^ 128 ||| imm.toNat := by
  rw [BitVec.toNat_or, BitVec.toNat_shiftLeft, Nat.shiftLeft_eq, zextImm_toNat]

/-- The words of LDC's four selectors are its four commands (R75 c, R103). -/
theorem commandWrites_ldc (rd : Reg) (k : LdcConst) (s : State) :
    CommandWrites (fmtI 0x0B rd 0 (BitVec.ofNat 16 k.sel)) (.ldc rd k) s rd (ldcValue k).toNat := by
  have hsel : (BitVec.ofNat 16 k.sel).toNat = k.sel := by cases k <;> rfl
  refine .of_writeResult ?_ rfl rfl rfl
  rw [fmtI_eq, hsel]
  rfl

/-- Settles O22: LDI and LDIS by the values they write, LDC's selectors by its constants, and the other LDC words by the bits above
the selector. -/
theorem immediateCommands : Obligations.ImmediateCommands := by
  refine ⟨fun rd imm s => ⟨?ldi, ?ldis⟩, fun rd s => ?ldc, fun rd imm himm => ?rejected⟩
  case ldi => exact .of_writeResult (fmtI_eq _ rd 0 imm) (immInRange_toNat imm) rfl (zextImm_toNat imm)
  case ldis => exact .of_writeResult (fmtI_eq _ rd 0 imm) (immInRange_toNat imm) rfl (ldis_result (s.reg rd) imm)
  case ldc =>
    exact ⟨commandWrites_ldc rd .zero s, commandWrites_ldc rd .one s, commandWrites_ldc rd .max s, commandWrites_ldc rd .min s⟩
  case rejected =>
    have habove : imm.toNat / 4 ≠ 0 := by omega
    exact (congrArg decodeWord (fmtI_eq _ rd 0 imm)).trans ((decodeWord_ldc rd imm.isLt).trans (if_neg habove))

/-- Settles O21: each command's word is its encoding, and each result is read off its limbs. -/
theorem moveCommands : Obligations.MoveCommands := by
  intro rd rs1 rs2 s
  refine ⟨?mov, ?make, ?lo, ?hi, ?isnarrow⟩
  case mov => exact .of_writeResult (fmtR_eq _ rd rs1 0 0) rfl rfl rfl
  case make =>
    have hvalue := u128_toNat (s.narrow rs1) (s.narrow rs2)
    simp only [State.narrow, lo64_toNat] at hvalue
    exact .of_writeResult (fmtR_eq _ rd rs1 rs2 0) rfl rfl hvalue
  case lo => exact .of_writeResult (fmtR_eq _ rd rs1 0 0) rfl rfl ((widen_toNat _).trans (lo64_toNat _))
  case hi => exact .of_writeResult (fmtR_eq _ rd rs1 0 0) rfl rfl ((widen_toNat _).trans (hi64_toNat _))
  case isnarrow => exact .of_writeResult (fmtR_eq _ rd rs1 0 0) rfl rfl (isnarrow_result _)

end Sys2Proof.Machine
end

section
/-! The compare commands and the bitwise commands (41_compare_logic_shift.md R120 to R128). -/

namespace Sys2Proof.Machine

/-- Structural equality is equality of the integers (R120). -/
theorem eq128_iff_toNat (a b : Word128) : eq128 a b = true ↔ a.toNat = b.toNat :=
  (eq128_iff a b).trans BitVec.toNat_eq

/-- The test of CLE, less or structurally equal, is the order of the integers (R123). -/
theorem lt128_or_eq128_iff (a b : Word128) : (lt128 a b || eq128 a b) = true ↔ a.toNat ≤ b.toNat := by
  rw [Bool.or_eq_true, lt128_iff, eq128_iff_toNat, Nat.le_iff_lt_or_eq]

/-- The test of CGE, not less, is the order of the integers (R125). -/
theorem not_lt128_iff (a b : Word128) : (!lt128 a b) = true ↔ a.toNat ≥ b.toNat := by
  rw [Bool.not_eq_true', Bool.eq_false_iff, ne_eq, lt128_iff, Nat.not_lt]

/-- The test of CNE, the negation of CEQ's, is difference of the integers (R121). -/
theorem not_eq128_iff (a b : Word128) : (!eq128 a b) = true ↔ ¬a.toNat = b.toNat := by
  rw [Bool.not_eq_true', Bool.eq_false_iff, ne_eq, eq128_iff_toNat]

/-- A compare command, from its word, writes 1 or 0 as the relation that its test decides holds or not (R28). -/
theorem CommandWrites.of_writeCompare {w : Word32} {i : Instr} {s : State} {rd rs1 rs2 : Reg}
    {p : Word128 → Word128 → Bool} {P : Prop} [Decidable P] (hw : w = encode i) (hi : i.wellFormed = true)
    (hexec : exec i s = .next (writeCompare p rd rs1 rs2 s)) (hp : p (s.reg rs1) (s.reg rs2) = true ↔ P) :
    CommandWrites w i s rd (if P then 1 else 0) := by
  refine .of_writeResult hw hi hexec ?_
  simp only [boolWord_toNat, hp]

/-- Settles O24: each command's test decides its relation between the integers. -/
theorem compareCommands : Obligations.CompareCommands := by
  intro rd rs1 rs2 s
  have hword (op : BitVec 8) := fmtR_eq op rd rs1 rs2 0
  refine ⟨?ceq, ?cne, ?clt, ?cle, ?cgt, ?cge⟩
  case ceq => exact .of_writeCompare (hword _) rfl rfl (eq128_iff_toNat _ _)
  case cne =>
    rw [← ite_not]
    exact .of_writeCompare (hword _) rfl rfl (not_eq128_iff _ _)
  case clt => exact .of_writeCompare (hword _) rfl rfl (lt128_iff _ _)
  case cle => exact .of_writeCompare (hword _) rfl rfl (lt128_or_eq128_iff _ _)
  case cgt => exact .of_writeCompare (hword _) rfl rfl (lt128_iff _ _)
  case cge => exact .of_writeCompare (hword _) rfl rfl (not_lt128_iff _ _)

/-- Settles O25: the limb-wise results are the 128-bit AND and OR. -/
theorem andOrCommands : Obligations.AndOrCommands := by
  intro rd rs1 rs2 s
  refine ⟨?and, ?or⟩
  case and =>
    refine .of_writeResult (fmtR_eq _ rd rs1 rs2 0) rfl rfl ?_
    rw [and128_eq, BitVec.toNat_and]
  case or =>
    refine .of_writeResult (fmtR_eq _ rd rs1 rs2 0) rfl rfl ?_
    rw [or128_eq, BitVec.toNat_or]

end Sys2Proof.Machine
end

section
/-! The multiply commands on narrow operands (43_multiply.md R150 to R153). -/

namespace Sys2Proof.Machine

/-- A narrow operand is its register's value modulo `2^64` (R9, R25). -/
theorem State.narrow_toNat (s : State) (r : Reg) : (s.narrow r).toNat = (s.reg r).toNat % 2 ^ 64 := lo64_toNat _

/-- The multiplier's product of two narrow operands loses nothing (R150, R151). -/
theorem multiply64_narrow_toNat (s : State) (rs1 rs2 : Reg) :
    (multiply64 (s.narrow rs1) (s.narrow rs2)).toNat = (s.reg rs1).toNat % 2 ^ 64 * ((s.reg rs2).toNat % 2 ^ 64) := by
  rw [multiply64_toNat, State.narrow_toNat, State.narrow_toNat]

/-- Settles O28: the multiplier is exact on the low limbs, and the squarer gives the multiplier's product of a limb with itself. -/
theorem fullProducts : Obligations.FullProducts := by
  intro rd rs1 rs2 s
  refine ⟨?mul64, ?sqr64⟩
  case mul64 => exact .of_writeResult (fmtR_eq _ rd rs1 rs2 0) rfl rfl (multiply64_narrow_toNat s rs1 rs2)
  case sqr64 =>
    refine .of_writeResult (fmtR_eq _ rd rs1 0 0) rfl rfl ?_
    rw [square64_eq, multiply64_narrow_toNat]

end Sys2Proof.Machine
end

section
/-! The divide commands (44_divide.md R165 to R169): which way the zero test goes, and what each command does there. -/

namespace Sys2Proof.Machine

theorem exec_div (rd rs1 rs2 : Reg) (s : State) : exec (.div rd rs1 rs2) s =
    divideOrFault (.div rd rs1 rs2) (s.reg rs1) (s.reg rs2) (fun qr => s.writeResult rd qr.1) s := rfl

theorem exec_mod (rd rs1 rs2 : Reg) (s : State) : exec (.mod rd rs1 rs2) s =
    divideOrFault (.mod rd rs1 rs2) (s.reg rs1) (s.reg rs2) (fun qr => s.writeResult rd qr.2) s := rfl

theorem exec_divrem (rd rd2 rs1 rs2 : Reg) (s : State) : exec (.divrem rd rd2 rs1 rs2) s =
    divideOrFault (.divrem rd rd2 rs1 rs2) (s.reg rs1) (s.reg rs2) (fun qr => (s.setReg rd qr.1).writeResult rd2 qr.2) s :=
  rfl

/-- A non-zero divisor lets a divide command take its effect on the quotient and remainder (R169). -/
theorem divideOrFault_of_ne_zero {b : Word128} (hb : b ≠ 0) (i : Instr) (a : Word128) (f : Word128 × Word128 → State)
    (s : State) : divideOrFault i a b f s = .next (f (divMod a b)) := if_neg hb

/-- A zero divisor stops a divide command with DIVZERO before any write (R169, R281). -/
theorem divideOrFault_zero (i : Instr) (a : Word128) (f : Word128 × Word128 → State) (s : State) :
    divideOrFault i a 0 f s = .next (takeFault .divzero (encode i) s) := if_pos rfl

/-- DIVREM's two writes as the relation of R168: the second write wins where both go to one register. -/
theorem writesTwoRegisters_writeTwo (s : State) (rd rd2 : Reg) (q r : Word128) :
    WritesTwoRegisters s ((s.setReg rd q).writeResult rd2 r) rd rd2 q.toNat r.toNat where
  quotient hne := by simp [State.reg_writeResult, hne]
  remainder := by simp [State.reg_writeResult]
  others k hrd hrd2 := by simp [State.reg_writeResult, hrd, hrd2]
  next := advance_pc_toNat ((s.setReg rd q).setReg rd2 r)
  control := ⟨rfl, rfl, rfl, rfl, rfl, fun _ => rfl⟩

/-- A divide command on a zero divisor, from its word: the FCMD it records is the word it was decoded from (R169, R283). -/
theorem CommandDivZero.of_divideOrFault {w : Word32} {i : Instr} {s : State} {a b : Word128}
    {f : Word128 × Word128 → State} (hw : w = encode i) (hi : i.wellFormed = true)
    (hexec : exec i s = divideOrFault i a b f s) (hb : b = 0) : CommandDivZero w i s := by
  subst hw hb
  exact ⟨decodeWord_encode hi, _, hexec.trans (divideOrFault_zero i a f s), faultEntered_takeFault _ _ s⟩

/-- Settles O29: for a non-zero divisor the pair of `divMod` is the quotient and remainder of R165, and for a zero divisor all
three commands are the fault of R169. -/
theorem divideCommands : Obligations.DivideCommands := by
  intro rd rd2 rs1 rs2 s
  have hword (op : BitVec 8) := fmtR_eq op rd rs1 rs2
  refine ⟨fun hdivisor => ?nonzero, fun hdivisor => ?zero⟩
  case nonzero =>
    have hb : s.reg rs2 ≠ 0 := fun h => hdivisor (congrArg BitVec.toNat h)
    have htest := divideOrFault_of_ne_zero hb
    obtain ⟨hidentity, hlt⟩ := divMod_identity (s.reg rs1) (s.reg rs2) hb
    refine ⟨_, _, hidentity, hlt, ?div, ?mod, ?divremWord, _, ?divrem, writesTwoRegisters_writeTwo s rd rd2 _ _⟩
    case div => exact .of_writeResult (hword _ 0) rfl ((exec_div rd rs1 rs2 s).trans (htest _ _ _ _)) rfl
    case mod => exact .of_writeResult (hword _ 0) rfl ((exec_mod rd rs1 rs2 s).trans (htest _ _ _ _)) rfl
    case divremWord => exact (congrArg decodeWord (hword _ rd2)).trans (decodeWord_encode (i := .divrem rd rd2 rs1 rs2) rfl)
    case divrem => exact (exec_divrem rd rd2 rs1 rs2 s).trans (htest _ _ _ _)
  case zero =>
    have hb : s.reg rs2 = 0 := BitVec.eq_of_toNat_eq hdivisor
    exact ⟨.of_divideOrFault (hword _ 0) rfl (exec_div rd rs1 rs2 s) hb,
      .of_divideOrFault (hword _ 0) rfl (exec_mod rd rs1 rs2 s) hb,
      .of_divideOrFault (hword _ rd2) rfl (exec_divrem rd rd2 rs1 rs2 s) hb⟩

end Sys2Proof.Machine
end

section
/-! The modular commands on their operands (45_modular.md R190 to R196): MULMOD is the modular product of the narrow operands, ABSU
the magnitude at each width, and the loop of MODPOW a power by square and multiply. -/

namespace Sys2Proof.Machine

theorem State.narrow_eq_zero_iff (s : State) (r : Reg) : s.narrow r = 0 ↔ (s.reg r).toNat % 2 ^ 64 = 0 := by
  rw [← State.narrow_toNat]
  exact BitVec.toNat_eq

/-- Settles O31: the modular product of the narrow operands, widened. -/
theorem mulmodCommand : Obligations.MulmodCommand := by
  intro rd rs1 rs2 rs3 s
  refine .of_writeResult (fmtR_eq _ rd rs1 rs2 rs3) rfl rfl ?_
  simp only [widen_toNat, mulMod64_toNat, State.narrow_eq_zero_iff, State.narrow_toNat]

/-! ## ABSU -/

/-- With the sign mask set, `(p + mask) ^ mask` is the complement of `p - 1`; so the sign-mask form is the library's magnitude
(R193). -/
theorem absU_eq_abs {w : Nat} (p : BitVec w) : absU p = p.abs := by
  rw [absU, BitVec.abs_eq]
  cases p.msb
  · simp
  · rw [if_pos rfl, if_pos rfl, BitVec.xor_allOnes, ← BitVec.neg_one_eq_allOnes, BitVec.add_neg_eq_sub,
      BitVec.not_sub_one_eq_not_add_one, ← BitVec.neg_eq_not_add]

/-- The magnitude pattern, as a number, is the magnitude of the signed value, for the signed minimum too (R193). -/
theorem absU_toNat {w : Nat} (p : BitVec w) : (absU p).toNat = p.toInt.natAbs := by
  have := p.isLt
  rw [absU_eq_abs, BitVec.toNat_abs, BitVec.toInt_eq_msb_cond]
  split_ifs <;> omega

/-- ABSU at one width: the result's high bits are zero, and the low bits of the source are its value wrapped (R194). -/
theorem absU_extractLsb'_toNat (v : Word128) {w : Nat} (hw : w ≤ 128) :
    ((absU (v.extractLsb' 0 w)).setWidth 128).toNat = (BitVec.ofNat w v.toNat).toInt.natAbs := by
  have hlow : v.extractLsb' 0 w = BitVec.ofNat w v.toNat := by simp [BitVec.extractLsb']
  rw [BitVec.toNat_setWidth_of_le hw, absU_toNat, hlow]

theorem absUWord_toNat (w : AbsWidth) (v : Word128) :
    (absUWord w v).toNat = (BitVec.ofNat (absWidthBits w) v.toNat).toInt.natAbs := by
  cases w <;> exact absU_extractLsb'_toNat v (by decide)

/-- The words of ABSU's four selectors are its four widths (R75 d, R194). -/
theorem commandWrites_absu (rd rs1 : Reg) (w : AbsWidth) (s : State) :
    CommandWrites (fmtI 0x38 rd rs1 (BitVec.ofNat 16 w.sel)) (.absu rd rs1 w) s rd
      (BitVec.ofNat (absWidthBits w) (s.reg rs1).toNat).toInt.natAbs := by
  have hsel : (BitVec.ofNat 16 w.sel).toNat = w.sel := by cases w <;> rfl
  refine .of_writeResult ?_ rfl rfl (absUWord_toNat w (s.reg rs1))
  rw [fmtI_eq, hsel]
  rfl

/-- What stands above the width selector in any immediate (R75 d). -/
theorem bits_wordI_above_width {op : Nat} (hop : op < 256) (rd rs1 : Reg) {imm : Nat} (himm : imm < 2 ^ 16) :
    bits (wordI op rd rs1 imm) 2 14 = imm / 4 := by
  simp only [bits, wordI_toNat _ _ _ _ hop]
  omega

/-- An ABSU word with a bit above the width selector is no command (R75 d, R76). -/
theorem decodeWord_absu_rejected (rd rs1 : Reg) {imm : Nat} (himm : imm < 2 ^ 16) (habove : 3 < imm) :
    decodeWord (wordI 0x38 rd rs1 imm) = .error .mustBeZero := by
  have hbits := bits_wordI_above_width (op := 0x38) (by decide) rd rs1 himm
  have hne : imm / 4 ≠ 0 := by omega
  simp only [decodeWord, ifZero, wordI_fields, Nat.reduceLT, hbits, hne, if_false]

/-- Settles O32: each width by its selector, and the other words by the bits above the selector. -/
theorem absuCommand : Obligations.AbsuCommand := by
  refine ⟨fun rd rs1 s => ?widths, fun rd rs1 imm himm => ?rejected⟩
  case widths =>
    exact ⟨commandWrites_absu rd rs1 .w8 s, commandWrites_absu rd rs1 .w16 s, commandWrites_absu rd rs1 .w32 s,
      commandWrites_absu rd rs1 .w64 s⟩
  case rejected => exact (congrArg decodeWord (fmtI_eq _ rd rs1 imm)).trans (decodeWord_absu_rejected rd rs1 imm.isLt himm)

/-! ## MODPOW -/

/-- An exponent is twice its half and its low bit. -/
theorem toNat_eq_two_mul_half_add_bit (e : Word64) : e.toNat = 2 * (e >>> 1).toNat + (e.getLsbD 0).toNat := by
  rw [BitVec.getLsbD, Nat.toNat_testBit, BitVec.toNat_ushiftRight, Nat.shiftRight_eq_div_pow]
  omega

/-- A residue of the square, raised to half an even exponent, is the power modulo `m`. -/
theorem mul_square_mod_pow_modEq (m a b q : Nat) : a * (b * b % m) ^ q ≡ a * b ^ (2 * q) [MOD m] := by
  rw [pow_mul, sq]
  exact ((Nat.mod_modEq (b * b) m).pow q).mul_left a

/-- At exponent zero the loop has ended (R195). -/
theorem modPowLoop_zero (turns : Nat) (acc base m : Word64) : modPowLoop turns acc base 0 m = acc := by
  cases turns <;> rfl

/-- One turn of the loop at an exponent that is not zero (R195). -/
theorem modPowLoop_succ {e : Word64} (he : e ≠ 0) (n : Nat) (acc base m : Word64) :
    modPowLoop (n + 1) acc base e m =
      modPowLoop n (if e.getLsbD 0 then mulMod64 acc base m else acc) (mulMod64 base base m) (e >>> 1) m := if_neg he

/-- The loop multiplies the power of the base into the accumulator and reduces, for an exponent that its turns exhaust. The exponent
is not zero: the turn of its top bit is what reduces the accumulator (R195). -/
theorem modPowLoop_toNat {m : Word64} (hm : m ≠ 0) (turns : Nat) : ∀ acc base e : Word64, e ≠ 0 → e.toNat < 2 ^ turns →
    (modPowLoop turns acc base e m).toNat = acc.toNat * base.toNat ^ e.toNat % m.toNat := by
  have hmul (x y : Word64) : (mulMod64 x y m).toNat = x.toNat * y.toNat % m.toNat := by rw [mulMod64_toNat, if_neg hm]
  induction turns with
  | zero =>
    intro acc base e he hlt
    exact absurd (BitVec.eq_of_toNat_eq (by simpa using hlt)) he
  | succ n ih =>
    intro acc base e he hlt
    have hhalf := toNat_eq_two_mul_half_add_bit e
    have hlt' : (e >>> 1).toNat < 2 ^ n := by
      rw [pow_succ] at hlt
      omega
    cases hbit : e.getLsbD 0 with
    | true =>
      rw [hbit, Bool.toNat_true] at hhalf
      rw [modPowLoop_succ he, if_pos hbit, hhalf]
      by_cases hlast : e >>> 1 = 0
      · rw [hlast, modPowLoop_zero, hmul]
        simp
      · rw [ih _ _ _ hlast hlt', hmul, hmul, pow_succ', ← mul_assoc]
        exact ((Nat.mod_modEq _ _).mul_right _).trans (mul_square_mod_pow_modEq _ _ _ _)
    | false =>
      rw [hbit, Bool.toNat_false, Nat.add_zero] at hhalf
      have hrest : e >>> 1 ≠ 0 := fun h => he (BitVec.eq_of_toNat_eq (by simp [hhalf, h]))
      rw [modPowLoop_succ he, if_neg (Bool.eq_false_iff.1 hbit), ih _ _ _ hrest hlt', hmul, hhalf]
      exact mul_square_mod_pow_modEq _ _ _ _

/-- `ModPow64(b, e, m)`: `m = 0` first, then `e = 0`, whose 1 is not reduced, and the power otherwise (R195). -/
theorem modPow64_toNat (b e m : Word64) :
    (modPow64 b e m).toNat = if m = 0 then 0 else if e = 0 then 1 else b.toNat ^ e.toNat % m.toNat := by
  rw [modPow64]
  split_ifs with hm he
  · rfl
  · rw [he, modPowLoop_zero]
    rfl
  · have hone : (1 : Word64).toNat = 1 := rfl
    rw [modPowLoop_toNat hm 64 _ _ _ he e.isLt, BitVec.toNat_umod, hone, Nat.one_mul, ← Nat.pow_mod]

/-- Settles O33: the modular power of the narrow operands, widened. -/
theorem modpowCommand : Obligations.ModpowCommand := by
  intro rd rs1 rs2 rs3 s
  refine .of_writeResult (fmtR_eq _ rd rs1 rs2 rs3) rfl rfl ?_
  simp only [widen_toNat, modPow64_toNat, State.narrow_eq_zero_iff, State.narrow_toNat]

end Sys2Proof.Machine
end

section
/-! The prime pipeline (46_prime.md R220 to R227), stage by stage: the small primes and the trial division find the least factor, a
prime passes Miller-Rabin to every base, and a table with the property of R222 rejects what the first stages leave. -/

namespace Sys2Proof.Machine

/-! ## Trial division: stage (c) and the ROM of stage (b) -/

/-- A number below the square of a bound on its factors is prime. -/
theorem prime_of_lt_sq {n c : Nat} (hn : 2 ≤ n) (hc : c ≤ n.minFac) (hlt : n < c * c) : n.Prime := by
  by_contra hnp
  have hsq := Nat.minFac_sq_le_self (by omega) hnp
  have := Nat.mul_le_mul hc hc
  rw [sq] at hsq
  omega

theorem minFac_odd {n : Nat} (hodd : n % 2 = 1) : n.minFac % 2 = 1 :=
  Nat.odd_iff.1 (Odd.of_dvd_nat (Nat.odd_iff.2 hodd) (Nat.minFac_dvd n))

/-- The next odd candidate is still no greater than the least factor of an odd number. -/
theorem add_two_le_minFac {n c : Nat} (hodd : n % 2 = 1) (hcodd : c % 2 = 1) (hc : c ≤ n.minFac) (hdvd : ¬ c ∣ n) :
    c + 2 ≤ n.minFac := by
  have hne : n.minFac ≠ c := fun h => hdvd (h ▸ Nat.minFac_dvd n)
  have hfacOdd := minFac_odd hodd
  omega

/-- Trial division by the odd numbers from `c` on decides primality of an odd number that has no factor below `c`, once its turns
reach the square root (R221 c). -/
theorem trialStage_iff {n : Nat} (hn : 2 ≤ n) (hodd : n % 2 = 1) (turns : Nat) : ∀ c, 2 ≤ c → c % 2 = 1 → c ≤ n.minFac →
    n < (c + 2 * turns) * (c + 2 * turns) → (trialStage turns c n = true ↔ n.Prime) := by
  induction turns with
  | zero => exact fun c _ _ hc hlt => iff_of_true rfl (prime_of_lt_sq hn hc hlt)
  | succ k ih =>
    intro c h2 hcodd hc hlt
    rw [trialStage]
    split_ifs with hle hmod
    · have hcn : c < n := by nlinarith
      exact iff_of_false id (Nat.not_prime_of_dvd_of_lt (Nat.dvd_of_mod_eq_zero hmod) h2 hcn)
    · refine ih (c + 2) (by omega) (by omega) ?_ (by rwa [show c + 2 + 2 * k = c + 2 * (k + 1) by ring])
      exact add_two_le_minFac hodd hcodd hc fun h => hmod (Nat.mod_eq_zero_of_dvd h)
    · exact iff_of_true rfl (prime_of_lt_sq hn hc (Nat.lt_of_not_le hle))

/-- An odd number has no factor below 3. -/
theorem three_le_minFac {n : Nat} (hn : 2 ≤ n) (hodd : n % 2 = 1) : 3 ≤ n.minFac := by
  have hfacOdd := minFac_odd hodd
  have htwo := (Nat.minFac_prime (n := n) (by omega)).two_le
  omega

/-- The ROM holds the odd numbers below 150 that trial division from 3 on accepts (R224). -/
theorem smallPrimes_eq_filter_trialStage :
    smallPrimes = (List.range 150).filter fun p => 2 ≤ p ∧ p % 2 = 1 ∧ trialStage 5 3 p = true := rfl

/-- The members of SMALL_PRIMES (R224): trial division by 3 to 11 decides the odd numbers below `13^2`. -/
theorem mem_smallPrimes_iff (p : Nat) : p ∈ smallPrimes ↔ p.Prime ∧ p ≠ 2 ∧ p ≤ 149 := by
  have htrial (hlt : p < 150) (h2 : 2 ≤ p) (hodd : p % 2 = 1) : trialStage 5 3 p = true ↔ p.Prime :=
    trialStage_iff h2 hodd 5 3 (by decide) rfl (three_le_minFac h2 hodd) (by omega)
  rw [smallPrimes_eq_filter_trialStage, List.mem_filter, List.mem_range, decide_eq_true_iff]
  constructor
  · rintro ⟨hlt, h2, hodd, ht⟩
    exact ⟨(htrial hlt h2 hodd).1 ht, by omega, by omega⟩
  · rintro ⟨hp, hne, hle⟩
    have hodd := hp.eq_two_or_odd.resolve_left hne
    have hlt : p < 150 := by omega
    exact ⟨hlt, hp.two_le, hodd, (htrial hlt hp.two_le hodd).2 hp⟩

/-- Settles O38: the members by trial division, the order and the count by the ROM's contents. -/
theorem smallPrimesAreTheOddPrimes : Obligations.SmallPrimesAreTheOddPrimes :=
  ⟨mem_smallPrimes_iff, by decide, rfl⟩

/-! ## Stage (b) -/

/-- The filter gives no answer exactly when no entry divides (R221 b). -/
theorem smallPrimeStage_eq_none_iff (primes : List Nat) (n : Nat) :
    smallPrimeStage primes n = none ↔ ∀ p ∈ primes, ¬ p ∣ n := by
  induction primes with
  | nil => simp [smallPrimeStage]
  | cons p rest ih =>
    rw [smallPrimeStage, List.forall_mem_cons, Nat.dvd_iff_mod_eq_zero]
    split_ifs with hmod <;> simp [hmod, ih]

/-- An answer of the filter is right: the entry that divides `n` is a prime (R221 b). -/
theorem smallPrimeStage_eq_some {primes : List Nat} {n : Nat} {answer : Bool} (hprimes : ∀ p ∈ primes, p.Prime)
    (h : smallPrimeStage primes n = some answer) : answer = true ↔ n.Prime := by
  induction primes with
  | nil => cases h
  | cons p rest ih =>
    obtain ⟨hp, hrest⟩ := List.forall_mem_cons.1 hprimes
    rw [smallPrimeStage] at h
    split_ifs at h with hmod
    · cases h
      rw [beq_iff_eq]
      refine ⟨fun heq => heq ▸ hp, fun hn => ?_⟩
      exact ((Nat.prime_dvd_prime_iff_eq hp hn).1 (Nat.dvd_of_mod_eq_zero hmod)).symm
    · exact ih hrest h

/-- What stages (a) and (b) leave undecided has no prime factor up to SMALL_PRIME_LIMIT (R221). -/
theorem smallPrimeLimit_lt_of_stage_none {n : Nat} (hodd : n % 2 = 1) (h : smallPrimeStage smallPrimes n = none) {p : Nat}
    (hp : p.Prime) (hdvd : p ∣ n) : Config.smallPrimeLimit < p := by
  by_contra hle
  have hne : p ≠ 2 := by
    rintro rfl
    omega
  exact (smallPrimeStage_eq_none_iff _ _).1 h p ((mem_smallPrimes_iff p).2 ⟨hp, hne, Nat.not_lt.1 hle⟩) hdvd

/-! ## A prime passes Miller-Rabin -/

/-- Modulo a prime, 1 has no square roots but 1 and -1. -/
theorem eq_one_or_eq_sub_one_of_sq {p x : Nat} (hp : p.Prime) (hlt : x < p) (h : x ^ 2 ≡ 1 [MOD p]) : x = 1 ∨ x = p - 1 := by
  rcases Nat.eq_zero_or_pos x with rfl | hpos
  · have := (Nat.modEq_iff_dvd' (Nat.zero_le 1)).1 h
    exact absurd (Nat.dvd_one.1 this) hp.ne_one
  · have hdvd := (Nat.modEq_iff_dvd' (Nat.one_le_pow 2 x hpos)).1 h.symm
    rw [← one_pow 2, Nat.sq_sub_sq] at hdvd
    rcases hp.dvd_mul.1 hdvd with hadd | hsub
    · have := Nat.le_of_dvd (by omega) hadd
      omega
    · have := Nat.eq_zero_of_dvd_of_lt hsub (by omega)
      omega

theorem sub_one_toNat {v : Word64} (hv : 1 ≤ v.toNat) : (v - 1).toNat = v.toNat - 1 :=
  BitVec.toNat_sub_of_le (BitVec.le_def.2 hv)

/-- The squares of a value that end at 1 modulo a prime first reach 1 from `v - 1`, unless the value itself is 1: so the value is 1,
or it is `v - 1`, or the loop of R225 finds `v - 1`. -/
theorem squaresReach_of_prime {v : Word64} (hv : v.toNat.Prime) (turns : Nat) : ∀ x : Word64, x.toNat < v.toNat →
    x.toNat ^ 2 ^ (turns + 1) ≡ 1 [MOD v.toNat] → x = 1 ∨ x = v - 1 ∨ squaresReach turns x v = true := by
  have hroots (x : Word64) (hlt : x.toNat < v.toNat) (hsq : x.toNat ^ 2 ≡ 1 [MOD v.toNat]) : x = 1 ∨ x = v - 1 :=
    (eq_one_or_eq_sub_one_of_sq hv hlt hsq).imp BitVec.eq_of_toNat_eq
      fun h => BitVec.eq_of_toNat_eq (h.trans (sub_one_toNat hv.one_le).symm)
  induction turns with
  | zero => exact fun x hlt hone => (hroots x hlt hone).imp_right .inl
  | succ n ih =>
    intro x hlt hone
    have hv0 : v ≠ 0 := fun h => hv.ne_zero (congrArg BitVec.toNat h)
    have hsquare : (mulMod64 x x v).toNat = x.toNat ^ 2 % v.toNat := by rw [mulMod64_toNat, if_neg hv0, sq]
    have hsquareOne : (mulMod64 x x v).toNat ^ 2 ^ (n + 1) ≡ 1 [MOD v.toNat] := by
      rw [hsquare]
      refine ((Nat.mod_modEq _ _).pow _).trans ?_
      rwa [← pow_mul, ← pow_succ']
    rcases ih _ (hsquare ▸ Nat.mod_lt _ hv.pos) hsquareOne with h | h | h
    · refine (hroots x hlt ?_).imp_right .inl
      rw [Nat.ModEq, ← hsquare, h, Nat.mod_eq_of_lt hv.one_lt]
      rfl
    · exact .inr (.inr (by rw [squaresReach, if_pos h]))
    · exact .inr (.inr (by rw [squaresReach, h, ite_self]))

/-- The bits below the place that the scan finds are zero (R15). -/
theorem two_pow_trailingZerosFrom_dvd (turns : Nat) {v : Word64} : ∀ k, 2 ^ k ∣ v.toNat →
    2 ^ trailingZerosFrom turns k v ∣ v.toNat := by
  induction turns with
  | zero => exact fun _ h => h
  | succ n ih =>
    intro k hdvd
    rw [trailingZerosFrom]
    split_ifs with hbit
    · exact hdvd
    · refine ih (k + 1) ?_
      rw [Bool.not_eq_true, BitVec.getLsbD, Nat.testBit_eq_decide_div_mod_eq, decide_eq_false_iff_not] at hbit
      obtain ⟨q, hq⟩ := hdvd
      rw [hq, Nat.mul_div_cancel_left _ (Nat.two_pow_pos k)] at hbit
      rw [hq, pow_succ]
      exact Nat.mul_dvd_mul_left _ (Nat.dvd_of_mod_eq_zero (by omega))

/-- The odd part times the power of two that was shifted out is the number: `v - 1 = 2^s * d` (R225). -/
theorem shiftRight_trailingZeros64_mul (v : Word64) : (v >>> trailingZeros64 v).toNat * 2 ^ trailingZeros64 v = v.toNat := by
  rw [BitVec.toNat_ushiftRight, Nat.shiftRight_eq_div_pow]
  exact Nat.div_mul_cancel (two_pow_trailingZerosFrom_dvd 64 0 (by simp))

/-- An even number that is not zero has a trailing zero (R225: "so s >= 1"). -/
theorem trailingZeros64_pos {v : Word64} (h0 : v ≠ 0) (heven : v.toNat % 2 = 0) : 0 < trailingZeros64 v := by
  refine Nat.pos_of_ne_zero fun h => ?_
  have hbit := getLsbD_trailingZeros64 h0
  rw [h, BitVec.getLsbD, Nat.testBit_zero, heven] at hbit
  exact absurd hbit (by decide)

/-- A base below a prime modulus, raised to `d` and then squared `s` times, ends at 1 by Fermat's theorem (R225). -/
theorem pow_mod_pow_two_pow_modEq_one {p a d s : Nat} (hp : p.Prime) (ha0 : a ≠ 0) (halt : a < p) (hsplit : d * 2 ^ s = p - 1) :
    (a ^ d % p) ^ 2 ^ s ≡ 1 [MOD p] := by
  have hfermat := Nat.ModEq.pow_totient (Nat.coprime_of_lt_prime ha0 halt hp).symm
  rw [Nat.totient_prime hp, ← hsplit, pow_mul] at hfermat
  exact ((Nat.mod_modEq _ _).pow _).trans hfermat

/-- The base that a witness is reduced to is below the modulus (R225). -/
theorem reducedWitness_lt {v : Word64} (hv : 0 < v.toNat) (a : Word64) : (if v ≤ a then a % v else a).toNat < v.toNat := by
  split_ifs with h
  · rw [BitVec.toNat_umod]
    exact Nat.mod_lt _ hv
  · rwa [BitVec.le_def, Nat.not_le] at h

/-- A prime passes the test to every base, with `v - 1 = 2^s * d` (R225): a reduced base of 0 or 1 is skipped, and any other has a
power that the squaring takes to 1. -/
theorem witnessPasses_of_prime {v d : Word64} {s : Nat} (hp : v.toNat.Prime) (hd : d ≠ 0) (hs : 0 < s)
    (hsplit : d.toNat * 2 ^ s = v.toNat - 1) (a : Word64) : witnessPasses v d s a = true := by
  have hlt := reducedWitness_lt hp.pos a
  rw [witnessPasses]
  generalize (if v ≤ a then a % v else a) = b at hlt ⊢
  dsimp only
  split_ifs with hskip
  · rfl
  · have hb0 : b.toNat ≠ 0 := fun h => hskip (by rw [BitVec.lt_def, h]; decide)
    have hv0 : v ≠ 0 := fun h => hp.ne_zero (congrArg BitVec.toNat h)
    have hx : (modPow64 b d v).toNat = b.toNat ^ d.toNat % v.toNat := by rw [modPow64_toNat, if_neg hv0, if_neg hd]
    have hone := pow_mod_pow_two_pow_modEq_one hp hb0 hlt hsplit
    rw [← hx] at hone
    have hxlt := hx.trans_lt (Nat.mod_lt _ hp.pos)
    simpa [or_assoc] using squaresReach_of_prime hp (s - 1) _ hxlt (by rwa [Nat.sub_add_cancel hs])

/-- An odd prime never fails Miller-Rabin, whatever the witnesses (R222, R225). -/
theorem millerRabin_of_prime {v : Word64} (hp : v.toNat.Prime) (hodd : v.toNat % 2 = 1) (ws : List Word64) :
    millerRabin v ws = true := by
  have hpred := sub_one_toNat hp.one_le
  have hpred0 : v - 1 ≠ 0 := by
    rw [ne_eq, BitVec.toNat_eq, hpred]
    exact (Nat.sub_pos_of_lt hp.one_lt).ne'
  have hs := trailingZeros64_pos hpred0 (by omega)
  have hd := shiftRight_trailingZeros64_ne_zero hpred0
  have hsplit := (shiftRight_trailingZeros64_mul (v - 1)).trans hpred
  exact List.all_eq_true.2 fun a _ => witnessPasses_of_prime hp hd hs hsplit a

/-! ## The pipeline -/

/-- The witnesses selected are those of some row whose bound exceeds the value (R227). -/
theorem exists_row_selectWitnesses {table : WitnessTable} {v : Word64} (h : ∃ row ∈ table, v.toNat < row.1) :
    ∃ row ∈ table, v.toNat < row.1 ∧ selectWitnesses table v = row.2 := by
  induction table with
  | nil => simp at h
  | cons row rest ih =>
    by_cases hlt : v.toNat < row.1
    · exact ⟨row, List.mem_cons_self, hlt, if_pos hlt⟩
    · obtain ⟨r, hr, hrlt, hsel⟩ := ih (by simpa [hlt] using h)
      exact ⟨r, List.mem_cons_of_mem _ hr, hrlt, (if_neg hlt).trans hsel⟩

/-- With a table of R222, stage (d) rejects the composites that the earlier stages leave. -/
theorem millerRabin_selectWitnesses_iff {table : WitnessTable} (ht : WitnessTableSuffices table) {v : Word64}
    (hodd : v.toNat % 2 = 1) (hlimit : Config.trialLimit ≤ v.toNat)
    (hfactors : ∀ p, p.Prime → p ∣ v.toNat → Config.smallPrimeLimit < p) :
    millerRabin v (selectWitnesses table v) = true ↔ v.toNat.Prime := by
  refine ⟨fun hpass => ?_, fun hp => millerRabin_of_prime hp hodd _⟩
  obtain ⟨last, hlast, hbound⟩ := ht.covers
  obtain ⟨row, hrow, hlt, hsel⟩ := exists_row_selectWitnesses ⟨last, hlast, v.isLt.trans_le hbound⟩
  by_contra hnp
  have hfail := ht.certifies row hrow v hodd hnp hlimit hlt hfactors
  rw [hsel, hfail] at hpass
  cases hpass

/-- Stage (c) decides what stages (a) and (b) leave below TRIAL_LIMIT (R221): its 500 candidates from 151 on go beyond 1000. -/
theorem trialStage_below_trialLimit {n : Nat} (hn : 2 ≤ n) (hodd : n % 2 = 1) (hlt : n < Config.trialLimit)
    (hfactors : ∀ p, p.Prime → p ∣ n → Config.smallPrimeLimit < p) :
    trialStage 500 (Config.smallPrimeLimit + 2) n = true ↔ n.Prime := by
  have hmin := hfactors _ (Nat.minFac_prime (by omega)) (Nat.minFac_dvd n)
  have hfacOdd := minFac_odd hodd
  simp only [Config.smallPrimeLimit, Config.trialLimit] at hmin hlt ⊢
  exact trialStage_iff hn hodd 500 151 (by decide) rfl (by omega) (by omega)

/-- The parity test of stage (a) (R221). -/
theorem getLsbD_zero_eq_false_iff (v : Word64) : v.getLsbD 0 = false ↔ v.toNat % 2 = 0 := by
  rw [BitVec.getLsbD, Nat.testBit_zero, decide_eq_false_iff_not, Nat.mod_two_not_eq_one]

/-- The pipeline, with a table of R222, decides primality (R220): each stage answers by primality or leaves a number that meets the
premises of the next. -/
theorem isPrime64With_iff {table : WitnessTable} (ht : WitnessTableSuffices table) (v : Word64) :
    isPrime64With table v = true ↔ v.toNat.Prime := by
  by_cases hsmall : v < 2
  case pos =>
    rw [isPrime64With, if_pos hsmall]
    exact iff_of_false Bool.false_ne_true fun hp => Nat.not_lt.2 hp.two_le (BitVec.lt_def.1 hsmall)
  case neg =>
    have htwo : 2 ≤ v.toNat := Nat.not_lt.1 fun h => hsmall (BitVec.lt_def.2 h)
    rw [isPrime64With, if_neg hsmall]
    by_cases heven : v.getLsbD 0 = false
    case pos =>
      rw [if_pos heven, beq_iff_eq, BitVec.toNat_eq]
      refine ⟨fun h => h ▸ Nat.prime_two, fun hp => hp.eq_two_or_odd.resolve_right fun hodd => ?_⟩
      exact absurd heven (by rw [getLsbD_zero_eq_false_iff, hodd]; decide)
    case neg =>
      have hodd : v.toNat % 2 = 1 := Nat.mod_two_ne_zero.1 fun h => heven ((getLsbD_zero_eq_false_iff v).2 h)
      rw [if_neg heven]
      split
      next answer hstage => exact smallPrimeStage_eq_some (fun p hp => ((mem_smallPrimes_iff p).1 hp).1) hstage
      next hstage =>
        have hfactors := fun p => smallPrimeLimit_lt_of_stage_none hodd hstage (p := p)
        split_ifs with hlimit
        · exact trialStage_below_trialLimit htwo hodd hlimit hfactors
        · exact millerRabin_selectWitnesses_iff ht hodd (Nat.not_lt.1 hlimit) hfactors

theorem exec_isprime (rd rs1 : Reg) (s : State) :
    exec (.isprime rd rs1) s = .next (s.writeResult rd (boolWord (isPrime64 (s.narrow rs1)))) := rfl

/-- A narrow operand is its register's value cut to a limb (R9, R25). -/
theorem State.narrow_eq_setWidth (s : State) (r : Reg) : s.narrow r = (s.reg r).setWidth 64 := by
  apply BitVec.eq_of_toNat_eq
  rw [State.narrow_toNat, BitVec.toNat_setWidth]

/-- Settles O37: the pipeline stage by stage, for any table of R222, and the command as the pipeline with the engine's table. -/
theorem isPrimeMeetsItsContract : Obligations.IsPrimeMeetsItsContract := by
  refine ⟨fun table ht v => isPrime64With_iff ht v, fun rd rs1 s => ⟨_, exec_isprime rd rs1 s, ?_⟩⟩
  rw [State.reg_writeResult, if_pos rfl, boolWord_toNat, isPrime64, State.narrow_eq_setWidth]

end Sys2Proof.Machine
end

section
/-! The control commands (47_control.md R236 to R241): NOP and HALT have one word each, HALT stops the sequencer, and the other control
commands move `pc` and nothing else. -/

namespace Sys2Proof.Machine

/-! ## Commands without fields -/

/-- The decoder answers a command only for words with that command's opcode (R76, R77). -/
theorem opcodeOf_eq_of_decodeWord {w : Word32} {i : Instr} (h : decodeWord w = .ok i) : opcodeOf w = opcodeOf (encode i) := by
  unfold decodeWord at h
  split at h
  rotate_right
  · cases h
  all_goals
    obtain ⟨-, rfl⟩ := ifZero_ok h
    simp [encode, wordR_fields, wordI_fields, *]

/-- A word is its opcode and the 24 bits below it (R70). -/
theorem eq_of_opcodeOf_eq {w v : Word32} (hop : opcodeOf w = opcodeOf v) (hlow : bits w 0 24 = bits v 0 24) : w = v := by
  apply BitVec.eq_of_toNat_eq
  simp only [opcodeOf, bits] at hop hlow
  omega

/-- A command whose fields must all be zero has one legal word (R74, R76). -/
theorem decodeWord_eq_ok_iff_of_no_fields {i : Instr} (hi : i.wellFormed = true)
    (hzero : mustBeZero (opcodeOf (encode i)) = some (0, 24)) (w : Word32) : decodeWord w = .ok i ↔ w = encode i := by
  have low_eq_zero {v : Word32} (hv : decodeWord v = .ok i) : bits v 0 24 = 0 := by
    obtain ⟨field, hfield, hbits⟩ := (exists_decodeWord_eq_ok_iff v).1 ⟨i, hv⟩
    rw [opcodeOf_eq_of_decodeWord hv, hzero] at hfield
    cases hfield
    exact hbits
  have hencode := decodeWord_encode hi
  refine ⟨fun hw => eq_of_opcodeOf_eq (opcodeOf_eq_of_decodeWord hw) ?_, fun hw => hw ▸ hencode⟩
  rw [low_eq_zero hw, low_eq_zero hencode]

/-! ## The program counter -/

/-- Going on to the next index moves `pc` and nothing else (R27). -/
theorem movesPc_advance (s : State) : MovesPc s s.advance (s.pc.toNat + 1) where
  pc := by rw [advance_pc_toNat]; rfl
  registers _ := rfl
  control := keepsControl_setPc s _

/-- A taken branch moves `pc` and nothing else (R27, R241). -/
theorem movesPc_branch (s : State) (off : Int) : MovesPc s (s.branch off) (s.pc.toNat + off) where
  pc := branchTarget_toNat s.pc off
  registers _ := rfl
  control := keepsControl_setPc s _

/-- A conditional branch moves `pc` and nothing else, whichever way it goes (R239, R240). -/
theorem movesPc_branchIf {taken : Bool} {p : Prop} [Decidable p] (htaken : taken = true ↔ p) (off : Int) (s : State) :
    MovesPc s (branchIf taken off s) (if p then s.pc.toNat + off else s.pc.toNat + 1) := by
  unfold branchIf
  by_cases hp : p
  · rw [if_pos hp, if_pos (htaken.2 hp)]
    exact movesPc_branch s off
  · rw [if_neg hp, if_neg (mt htaken.1 hp)]
    exact movesPc_advance s

/-- Outside CMDBUF the next fetch faults (R284). -/
theorem exists_step_fetchrange {s : State} (hr : s.runState = .run) (hp : 256 ≤ s.pc.toNat) :
    ∃ t, step s = .next t ∧ FaultEntered .fetchrange 0 s t :=
  ⟨_, step_of_pc_outside hr hp, faultEntered_takeFault _ _ s⟩

/-! ## Branches -/

/-- Every 16-bit offset can be encoded (R75 e). -/
theorem offInRange_toInt (o : BitVec 16) : offInRange o.toInt = true := by
  rw [← sext16_toNat]
  exact sext16_inRange o.toNat o.isLt

/-- A branch command's effect, from its word in format B (R73, R76). -/
theorem CommandMovesPc.of_movesPc {op : BitVec 8} {rs1 : Reg} {o : BitVec 16} {i : Instr} {s t : State} {target : Int}
    (hi : i.wellFormed = true) (hencode : encode i = wordI op.toNat 0 rs1 (off16Bits o.toInt)) (hexec : exec i s = .next t)
    (ht : MovesPc s t target) : CommandMovesPc (fmtB op rs1 o) i s target := by
  have hword : fmtB op rs1 o = encode i := by rw [fmtB_eq, hencode, off16Bits_toInt]
  exact ⟨hword ▸ decodeWord_encode hi, t, hexec, ht⟩

/-- BZ's test is on all 128 bits (R239). -/
theorem reg_beq_zero_iff (s : State) (r : Reg) : (s.reg r == 0) = true ↔ (s.reg r).toNat = 0 := by
  rw [beq_iff_eq, BitVec.toNat_eq]
  rfl

/-- BNZ's test is on all 128 bits (R240). -/
theorem reg_bne_zero_iff (s : State) (r : Reg) : (s.reg r != 0) = true ↔ (s.reg r).toNat ≠ 0 := by
  rw [bne_iff_ne, Ne, BitVec.toNat_eq]
  rfl

/-- Settles O20: the three words by their encodings, the effects by the two ways a branch goes, and the fault by the next fetch. -/
theorem branchCommands : Obligations.BranchCommands := by
  refine ⟨fun rs1 o s => ⟨?jmp, ?bz, ?bnz⟩, fun s => exists_step_fetchrange⟩
  case jmp => exact .of_movesPc (offInRange_toInt o) rfl rfl (movesPc_branch s o.toInt)
  case bz => exact .of_movesPc (offInRange_toInt o) rfl rfl (movesPc_branchIf (reg_beq_zero_iff s rs1) o.toInt s)
  case bnz => exact .of_movesPc (offInRange_toInt o) rfl rfl (movesPc_branchIf (reg_bne_zero_iff s rs1) o.toInt s)

/-! ## NOP and HALT -/

/-- In DONE, `irq` is the enable of DONE_IP (R36, R237). -/
theorem irq_of_done {s : State} (h : s.runState = .done) : s.irq = s.ie.getLsbD 0 := by
  rw [Bool.eq_iff_iff, irq_iff_enabled_source]
  simp [h]

/-- Settles O19: the words by the fields that must be zero, the effects by the updates that the two commands are. -/
theorem nopAndHalt : Obligations.NopAndHalt := by
  refine ⟨decodeWord_eq_ok_iff_of_no_fields rfl (by decide), decodeWord_eq_ok_iff_of_no_fields rfl (by decide),
    fun s => ⟨_, rfl, movesPc_advance s⟩, fun s => ⟨_, rfl, ?halt⟩, fun s hr hp => exists_step_fetchrange hr (by simp [hp])⟩
  case halt =>
    exact ⟨advance_pc_toNat s, rfl, fun _ => rfl, rfl, rfl, rfl, rfl, fun _ => rfl, step_of_not_run nofun, rfl,
      irq_of_done rfl⟩

end Sys2Proof.Machine
end

section
/-! Words and commands (30_encoding.md R70 to R80): a word that decodes is put together again from its fields, so the decoder and the
encoder are inverse to each other, and a step runs the command that the bytes at `pc` spell. -/

namespace Sys2Proof.Machine

/-! ## A word from its fields -/

section
variable {w : Word32} {op : Nat} (hop : opcodeOf w = op)
include hop

theorem opcode_lt_of_opcodeOf : op < 256 := hop ▸ bits_lt w 24 8

/-- A word in format R is its fields when the low byte is zero (R71). -/
theorem wordR_of_fields (hzero : bits w 0 8 = 0) : wordR op (rdOf w) (rs1Of w) (rs2Of w) (rs3Of w) = w := by
  have hn := w.isLt
  apply BitVec.eq_of_toNat_eq
  rw [wordR_toNat _ _ _ _ _ (opcode_lt_of_opcodeOf hop), ← hop]
  simp only [opcodeOf, bits, rdOf, rs1Of, rs2Of, rs3Of, regField, Fin.val_ofNat, pow_zero, Nat.div_one] at hzero ⊢
  generalize w.toNat = n at hn hzero ⊢
  omega

theorem wordR_of_fields_without_rs3 (hzero : bits w 0 12 = 0) : wordR op (rdOf w) (rs1Of w) (rs2Of w) 0 = w := by
  have hlow : bits w 0 8 = 0 ∧ rs3Of w = 0 := by
    simp only [bits, rs3Of, regField, Fin.ext_iff, Fin.val_ofNat, Fin.val_zero] at hzero ⊢
    omega
  have hword := wordR_of_fields hop hlow.1
  rwa [hlow.2] at hword

theorem wordR_of_fields_without_rs2 (hzero : bits w 0 16 = 0) : wordR op (rdOf w) (rs1Of w) 0 0 = w := by
  have hlow : bits w 0 12 = 0 ∧ rs2Of w = 0 := by
    simp only [bits, rs2Of, regField, Fin.ext_iff, Fin.val_ofNat, Fin.val_zero] at hzero ⊢
    omega
  have hword := wordR_of_fields_without_rs3 hop hlow.1
  rwa [hlow.2] at hword

theorem wordR_of_no_fields (hzero : bits w 0 24 = 0) : wordR op 0 0 0 0 = w := by
  have hlow : bits w 0 16 = 0 ∧ rdOf w = 0 ∧ rs1Of w = 0 := by
    simp only [bits, rdOf, rs1Of, regField, Fin.ext_iff, Fin.val_ofNat, Fin.val_zero] at hzero ⊢
    omega
  obtain ⟨hlow, hrd, hrs1⟩ := hlow
  have hword := wordR_of_fields_without_rs2 hop hlow
  rwa [hrd, hrs1] at hword

/-- A word in format I is its fields, the immediate the low 16 bits (R72). -/
theorem wordI_of_fields : wordI op (rdOf w) (rs1Of w) (bits w 0 16) = w := by
  have hn := w.isLt
  apply BitVec.eq_of_toNat_eq
  rw [wordI_toNat _ _ _ _ (opcode_lt_of_opcodeOf hop), ← hop]
  simp only [opcodeOf, bits, rdOf, rs1Of, regField, Fin.val_ofNat, pow_zero, Nat.div_one]
  generalize w.toNat = n at hn ⊢
  omega

theorem wordI_of_fields_without_rs1 (hzero : bits w 16 4 = 0) :
    wordI op (rdOf w) 0 (bits w 0 16) = w := by
  have hrs1 : rs1Of w = 0 := by rw [rs1Of, regField, hzero]; rfl
  have hword := wordI_of_fields hop
  rwa [hrs1] at hword

theorem wordI_of_fields_without_rd (hzero : bits w 20 4 = 0) :
    wordI op 0 (rs1Of w) (bits w 0 16) = w := by
  have hrd : rdOf w = 0 := by rw [rdOf, regField, hzero]; rfl
  have hword := wordI_of_fields hop
  rwa [hrd] at hword

theorem wordI_of_fields_without_registers (hzero : bits w 16 8 = 0) :
    wordI op 0 0 (bits w 0 16) = w := by
  have hlow : bits w 20 4 = 0 ∧ rs1Of w = 0 := by
    simp only [bits, rs1Of, regField, Fin.ext_iff, Fin.val_ofNat, Fin.val_zero] at hzero ⊢
    omega
  have hword := wordI_of_fields_without_rd hop hlow.1
  rwa [hlow.2] at hword

end

/-! ## Fields narrower than the immediate that holds them -/

/-- The offset's sixteen bits are the field it was read from (R75 e). -/
theorem off16Bits_offOf (w : Word32) : off16Bits (offOf w) = bits w 0 16 := off16Bits_sext16 _ (bits_lt w 0 16)

theorem immInRange_imm16Of (w : Word32) : immInRange (imm16Of w) = true := decide_eq_true (bits_lt w 0 16)

theorem amountInRange_bits (w : Word32) : amountInRange (bits w 0 7) = true := decide_eq_true (bits_lt w 0 7)

theorem offInRange_offOf (w : Word32) : offInRange (offOf w) = true := sext16_inRange _ (bits_lt w 0 16)

/-- A shift amount is the whole immediate when nothing stands above it (R75 b). -/
theorem amount_eq_immediate {w : Word32} (hzero : bits w 7 9 = 0) : bits w 0 7 = bits w 0 16 := by
  simp only [bits] at hzero ⊢
  omega

/-- A selector is the whole immediate when nothing stands above it (R75 c, R75 d). -/
theorem selector_eq_immediate {w : Word32} (hzero : bits w 2 14 = 0) : bits w 0 2 = bits w 0 16 := by
  simp only [bits] at hzero ⊢
  omega

theorem sel_ldcConstOf_immediate {w : Word32} (hzero : bits w 2 14 = 0) : (ldcConstOf (bits w 0 16)).sel = bits w 0 16 :=
  selector_eq_immediate hzero ▸ ldcConst_sel_of _ (bits_lt w 0 2)

theorem sel_absWidthOf_immediate {w : Word32} (hzero : bits w 2 14 = 0) : (absWidthOf (bits w 0 16)).sel = bits w 0 16 :=
  selector_eq_immediate hzero ▸ absWidth_sel_of _ (bits_lt w 0 2)

/-- The zero bits of LDC's word are those above the selector and the field `rs1` (R75 c, R77). -/
theorem selector_and_rs1_zero {w : Word32} (hzero : bits w 2 18 = 0) : bits w 2 14 = 0 ∧ bits w 16 4 = 0 := by
  simp only [bits] at hzero ⊢
  omega

/-! ## The two round trips -/

/-- Settles O1: the decoder takes the word back, and the four bytes are the word. -/
theorem decodeEncodeRoundTrip : Obligations.DecodeEncodeRoundTrip := by
  intro i hi
  refine ⟨decodeWord_encode hi, ?_⟩
  rw [decodeBytes, wordOfBytes_byteOf]
  exact decodeWord_encode hi

/-- The word `w` is the encoding of the well-formed command `i` (R74 to R77). -/
def EncodesAs (w : Word32) (i : Instr) : Prop := i.wellFormed = true ∧ encode i = w

/-- Every arm of the decoder answers a command that is encoded as the word it was read from: the opcode is the arm's, and the bits that
are in no field are the zero bits the arm tests. -/
theorem encodesAs_of_decodeWord {w : Word32} {i : Instr} (h : decodeWord w = .ok i) : EncodesAs w i := by
  unfold decodeWord at h
  split at h
  rotate_right
  · cases h
  all_goals
    have hop := ‹opcodeOf w = _›
    obtain ⟨hzero, rfl⟩ := ifZero_ok h
    refine ⟨?_, ?_⟩
    · simp [Instr.wellFormed, offInRange_offOf, immInRange_imm16Of, amountInRange_bits]
    · simp [encode, off16Bits_offOf, imm16Of, sel_ldcConstOf_immediate, sel_absWidthOf_immediate, amount_eq_immediate,
        selector_eq_immediate, selector_and_rs1_zero, hzero, wordR_of_fields hop, wordR_of_fields_without_rs3 hop,
        wordR_of_fields_without_rs2 hop,
        wordR_of_no_fields hop, wordI_of_fields hop, wordI_of_fields_without_rs1 hop, wordI_of_fields_without_rd hop,
        wordI_of_fields_without_registers hop]

/-- Settles O2: each legal word is put together again from the fields that its command reads. -/
theorem encodeDecodeRoundTrip : Obligations.EncodeDecodeRoundTrip := fun _ _ h => encodesAs_of_decodeWord h

/-- Settles O4: each word is computed. -/
theorem someWordsDecode : Obligations.SomeWordsDecode := by
  unfold Obligations.SomeWordsDecode
  decide

/-! ## The step -/

/-- A step in RUN on a word that decodes is its command (R80). -/
theorem step_of_decodeWord {s : State} {i : Instr} (hr : s.runState = .run) (hp : s.pc.toNat < Config.cmdbufWords)
    (hd : decodeWord (s.cmdWord s.pc.toNat) = .ok i) : step s = exec i s := by
  simp [step, hr, fetchNext_of_decodeWord hp hd]

/-- A step in RUN on a word that does not decode is the fault ILLEGAL (R80, R282). -/
theorem step_of_decodeWord_error {s : State} {e : DecodeReject} (hr : s.runState = .run)
    (hp : s.pc.toNat < Config.cmdbufWords) (hd : decodeWord (s.cmdWord s.pc.toNat) = .error e) :
    step s = .next (takeFault .illegal (s.cmdWord s.pc.toNat) s) := by
  simp [step, hr, fetchNext_of_decodeWord_error hp hd]

/-- The four bytes of a word of CMDBUF, lowest address first, decode as the word (R53 b). -/
theorem decodeBytes_cmdWord (s : State) (k : Nat) :
    decodeBytes [s.byteAt (0x400 + 4 * k), s.byteAt (0x401 + 4 * k), s.byteAt (0x402 + 4 * k), s.byteAt (0x403 + 4 * k)] =
      decodeWord (s.cmdWord k) := by
  have haddr (j : Nat) : cmdOffset k + j = 0x400 + j + 4 * k := by
    rw [cmdOffset]
    omega
  rw [State.cmdWord, haddr 1, haddr 2, haddr 3]
  rfl

/-- Settles O7: the four bytes are the word that the fetch reads. -/
theorem stepRunsTheDecodedCommand : Obligations.StepRunsTheDecodedCommand := by
  intro s i hr hp _ hbytes
  rw [decodeBytes_cmdWord] at hbytes
  exact step_of_decodeWord hr hp hbytes

/-- Settles O14, by the six forms of a command's answer and the step in and outside RUN. -/
theorem everyStepCompletes : Obligations.EveryStepCompletes := by
  refine ⟨fun i s => ?_, exists_step_eq_next, fun s hr => step_of_not_run hr⟩
  obtain ⟨t, ht, -⟩ := exec_cases i s
  exact ⟨t, ht⟩

end Sys2Proof.Machine
end

section
/-! The faults of a step (60_exceptions.md R280 to R288): the three ways a step can end in FAULT, said once, and what follows from them:
which fault is raised, what it records, and that nothing else of the state decides it. -/

namespace Sys2Proof.Machine

/-! ## The ways a step faults -/

/-- The ways a step of a running engine ends in FAULT: the fetch, the decoder, or a divide with a zero divisor, with the record that each
makes (R281 to R284). -/
inductive FaultingStep (s : State) : State → Prop where
  | fetchrange : 256 ≤ s.pc.toNat → FaultingStep s (takeFault .fetchrange 0 s)
  | illegal (e : DecodeReject) : s.pc.toNat < 256 → decodeWord (s.cmdWord s.pc.toNat) = .error e →
      FaultingStep s (takeFault .illegal (s.cmdWord s.pc.toNat) s)
  | divzero (i : Instr) (r : Reg) : s.pc.toNat < 256 → decodeWord (s.cmdWord s.pc.toNat) = .ok i → divisorOf i = some r →
      s.reg r = 0 → FaultingStep s (takeFault .divzero (s.cmdWord s.pc.toNat) s)

/-- A command that ends in FAULT is a divide with a zero divisor, and has entered DIVZERO (R281). -/
theorem CommandEffect.of_fault {i : Instr} {s t : State} (h : CommandEffect i s t) (hs : s.runState ≠ .fault)
    (ht : t.runState = .fault) : ∃ r, divisorOf i = some r ∧ s.reg r = 0 ∧ t = takeFault .divzero (encode i) s := by
  cases h with
  | advance | branch off | write rd v | writeTwo rd rd2 v w => exact absurd ht hs
  | halt hi => cases ht
  | divzero r hdiv hzero => exact ⟨r, hdiv, hzero, rfl⟩

/-- A step that ends in FAULT is one of the three ways; the word that DIVZERO records is the one that was fetched (R283, log 6). -/
theorem faultingStep_of_step {s t : State} (hr : s.runState = .run) (h : step s = .next t) (ht : t.runState = .fault) :
    FaultingStep s t := by
  have hs : s.runState ≠ .fault := by simp [hr]
  rcases step_run_cases hr h with ⟨hp, rfl⟩ | ⟨hp, ⟨e, hd⟩, rfl⟩ | ⟨hp, i, hd, heff⟩
  · exact .fetchrange hp
  · exact .illegal e hp hd
  · obtain ⟨r, hdiv, hzero, rfl⟩ := heff.of_fault hs ht
    obtain ⟨-, hencode⟩ := encodesAs_of_decodeWord hd
    exact hencode ▸ .divzero i r hp hd hdiv hzero

/-- A divide command with a zero divisor enters DIVZERO with its own word (R169, R281). -/
theorem exec_of_zero_divisor {i : Instr} {r : Reg} {s : State} (hdiv : divisorOf i = some r) (hzero : s.reg r = 0) :
    exec i s = .next (takeFault .divzero (encode i) s) := by
  cases i with
  | div rd rs1 rs2 | mod rd rs1 rs2 | divrem rd rd2 rs1 rs2 =>
    cases hdiv
    simp only [exec_div, exec_mod, exec_divrem, hzero, divideOrFault_zero]
  | _ => cases hdiv

/-- A fetched divide with a zero divisor enters DIVZERO with the fetched word (R281, R283). -/
theorem step_of_zero_divisor {s : State} {i : Instr} {r : Reg} (hr : s.runState = .run) (hp : s.pc.toNat < 256)
    (hd : decodeWord (s.cmdWord s.pc.toNat) = .ok i) (hdiv : divisorOf i = some r) (hzero : s.reg r = 0) :
    step s = .next (takeFault .divzero (s.cmdWord s.pc.toNat) s) := by
  obtain ⟨-, hencode⟩ := encodesAs_of_decodeWord hd
  rw [step_of_decodeWord hr hp hd, exec_of_zero_divisor hdiv hzero, hencode]

/-- Settles O9: the fetched divide by its zero test, the converse by the forms of a command's effect. -/
theorem divideByZeroFault : Obligations.DivideByZeroFault := by
  refine ⟨fun s i r hr hp hd hdiv hzero => ⟨_, step_of_zero_divisor hr hp hd hdiv hzero, faultEntered_takeFault _ _ s⟩,
    fun i s t hs hexec ht => ?_⟩
  obtain ⟨r, hdiv, hzero, -⟩ := (exec_next_cases hexec).of_fault hs ht
  exact ⟨r, hdiv, hzero⟩

/-- Settles O8: the fault by the fetch, and of the three ways a step faults only the fetch records FETCHRANGE. -/
theorem fetchRangeFault : Obligations.FetchRangeFault := by
  refine ⟨fun s => exists_step_fetchrange, fun s t hr h ht hcause => ?_⟩
  cases faultingStep_of_step hr h ht with
  | fetchrange hp => exact hp
  | illegal e hp hd => cases hcause
  | divzero i r hp hd hdiv hzero => cases hcause

/-- In FAULT, `irq` is the enable of FAULT_IP (R36, R289). -/
theorem irq_of_fault {s : State} (h : s.runState = .fault) : s.irq = s.ie.getLsbD 1 := by
  rw [Bool.eq_iff_iff, irq_iff_enabled_source]
  simp [h]

/-- Settles O10: each of the three ways is fault entry with its cause and word, and FAULT raises `irq` and stops the engine. -/
theorem faultEntryIsPrecise : Obligations.FaultEntryIsPrecise := by
  intro s t hr h ht
  have hstop : step t = .next t := step_of_not_run (by simp [ht])
  have hirq := irq_of_fault ht
  cases faultingStep_of_step hr h ht with
  | fetchrange hp => exact ⟨⟨_, _, faultEntered_takeFault _ _ s, nofun, .inl ⟨rfl, hp, rfl⟩⟩, rfl, hirq, hstop⟩
  | illegal e hp hd => exact ⟨⟨_, _, faultEntered_takeFault _ _ s, nofun, .inr ⟨nofun, hp, rfl⟩⟩, rfl, hirq, hstop⟩
  | divzero i r hp hd hdiv hzero =>
    exact ⟨⟨_, _, faultEntered_takeFault _ _ s, nofun, .inr ⟨nofun, hp, rfl⟩⟩, rfl, hirq, hstop⟩

/-- A command that is no divide with a zero divisor answers a next state that is not FAULT (R281). -/
theorem exec_of_no_zero_divisor {i : Instr} {s : State} (hs : s.runState ≠ .fault)
    (hdiv : ∀ r, divisorOf i = some r → s.reg r ≠ 0) : ∃ t, exec i s = .next t ∧ t.runState ≠ .fault := by
  obtain ⟨t, ht, heff⟩ := exec_cases i s
  refine ⟨t, ht, fun hfault => ?_⟩
  obtain ⟨r, hr, hzero, -⟩ := heff.of_fault hs hfault
  exact hdiv r hr hzero

/-- Settles O11, by the checks of a step in their order. -/
theorem faultCauseOfAStep : Obligations.FaultCauseOfAStep := by
  intro s hr
  by_cases hp : 256 ≤ s.pc.toNat
  case pos => exact ⟨_, step_of_pc_outside hr hp, by rw [if_pos hp]; exact faultEntered_takeFault _ _ s⟩
  case neg =>
    have hp' : s.pc.toNat < 256 := Nat.not_le.1 hp
    simp only [if_neg hp]
    cases hd : decodeWord (s.cmdWord s.pc.toNat) with
    | error e => exact ⟨_, step_of_decodeWord_error hr hp' hd, faultEntered_takeFault _ _ s⟩
    | ok i =>
      by_cases hzero : ∃ r, divisorOf i = some r ∧ s.reg r = 0
      · obtain ⟨r, hdiv, hr0⟩ := hzero
        exact ⟨_, step_of_zero_divisor hr hp' hd hdiv hr0, fun _ => faultEntered_takeFault _ _ s,
          fun hne => absurd hr0 (hne r hdiv)⟩
      · have hne (r : Reg) (hdiv : divisorOf i = some r) (hr0 : s.reg r = 0) : False := hzero ⟨r, hdiv, hr0⟩
        obtain ⟨t, ht, hrun⟩ := exec_of_no_zero_divisor (by simp [hr]) hne
        exact ⟨t, (step_of_decodeWord hr hp' hd).trans ht, fun h => absurd h hzero, fun _ => ⟨hrun, ht⟩⟩

/-! ## The frame of a command -/

/-- The answer `o` of the command `i` changes no register but the command's destinations (R28). -/
def KeepsOtherRegisters (i : Instr) (s : State) (o : StepResult) : Prop :=
  ∀ t, o = .next t → ∀ r, r ∉ destinations i → t.reg r = s.reg r

theorem KeepsOtherRegisters.of_same {i : Instr} {s t : State} (h : ∀ r, t.reg r = s.reg r) :
    KeepsOtherRegisters i s (.next t) := by
  rintro _ ⟨⟩ r -
  exact h r

theorem KeepsOtherRegisters.of_writeResult {i : Instr} {rd : Reg} {v : Word128} {s : State} (hd : destinations i = [rd]) :
    KeepsOtherRegisters i s (.next (s.writeResult rd v)) := by
  rintro _ ⟨⟩ r hr
  rw [State.reg_writeResult, if_neg (by simpa [hd] using hr)]

theorem KeepsOtherRegisters.of_divideOrFault {i : Instr} {a b : Word128} {f : Word128 × Word128 → State} {s : State}
    (hf : ∀ qr, KeepsOtherRegisters i s (.next (f qr))) : KeepsOtherRegisters i s (divideOrFault i a b f s) := by
  unfold divideOrFault
  split_ifs
  · exact .of_same fun _ => rfl
  · exact hf _

/-- A conditional branch keeps every register, taken or not (R28). -/
theorem reg_branchIf (taken : Bool) (off : Int) (s : State) (r : Reg) : (branchIf taken off s).reg r = s.reg r := by
  cases taken <;> rfl

/-- Every command keeps the registers that are not among its destinations. -/
theorem exec_keepsOtherRegisters (i : Instr) (s : State) : KeepsOtherRegisters i s (exec i s) := by
  cases i with
  | nop | halt | jmp off => exact .of_same fun _ => rfl
  | bz rs1 off | bnz rs1 off => exact .of_same (reg_branchIf _ off s)
  | div rd rs1 rs2 | mod rd rs1 rs2 => exact .of_divideOrFault fun qr => .of_writeResult rfl
  | divrem rd rd2 rs1 rs2 =>
    rw [exec_divrem]
    refine .of_divideOrFault fun qr => ?_
    rintro _ ⟨⟩ r hr
    simp only [destinations, List.mem_cons, List.not_mem_nil, or_false, not_or] at hr
    simp [State.reg_writeResult, hr]
  | _ => exact .of_writeResult rfl

/-- No command changes IE or the command buffer (R30, R41). -/
theorem CommandEffect.ie_cmdbuf_powerOns {i : Instr} {s t : State} (h : CommandEffect i s t) :
    t.ie = s.ie ∧ t.cmdbuf = s.cmdbuf ∧ t.powerOns = s.powerOns := by
  cases h <;> exact ⟨rfl, rfl, rfl⟩

/-- A command that does not fault keeps the fault registers (R37). -/
theorem CommandEffect.faultRegisters {i : Instr} {s t : State} (h : CommandEffect i s t) (ht : t.runState ≠ .fault) :
    t.fcause = s.fcause ∧ t.fpc = s.fpc ∧ t.fcmd = s.fcmd := by
  cases h with
  | advance | halt hi | branch off | write rd v | writeTwo rd rd2 v w => exact ⟨rfl, rfl, rfl⟩
  | divzero r hdiv hzero => exact absurd rfl ht

/-- CMDBUF's bytes are those of the command buffer and of its power-on (R41). -/
theorem State.byteAt_congr {s t : State} (hbuf : t.cmdbuf = s.cmdbuf) (hpow : t.powerOns = s.powerOns) (off : Nat) :
    t.byteAt off = s.byteAt off := by
  rw [State.byteAt, State.byteAt, hbuf, hpow]

/-- Settles O16: the registers command by command, the rest by the forms of a command's effect. -/
theorem commandsWriteOnlyTheirDestinations : Obligations.CommandsWriteOnlyTheirDestinations := by
  intro i s hr
  have hs : s.runState ≠ .fault := by simp [hr]
  obtain ⟨t, ht, heff⟩ := exec_cases i s
  obtain ⟨hie, hbuf, hpow⟩ := heff.ie_cmdbuf_powerOns
  refine ⟨t, ht, exec_keepsOtherRegisters i s t ht, hie, State.byteAt_congr hbuf hpow, ?_, heff.faultRegisters⟩
  rcases heff.runState_cases with hkeep | ⟨hi, hdone⟩ | hfault
  · exact .inl (hkeep.trans hr)
  · exact .inr (.inl ⟨hdone, hi⟩)
  · obtain ⟨r, hdiv, hzero, -⟩ := heff.of_fault hs hfault.runState
    exact .inr (.inr ⟨hfault.runState, r, hdiv, hzero⟩)

/-! ## Determinism (R286) -/

/-- Two states show the same run: the same `pc`, registers and STATE, and in FAULT the same record (R286). -/
structure SameRun (t t' : State) : Prop where
  pc : t.pc = t'.pc
  registers : ∀ r, t.reg r = t'.reg r
  runState : t.runState = t'.runState
  record : t.runState = .fault → t.fcause = t'.fcause ∧ t.fpc = t'.fpc ∧ t.fcmd = t'.fcmd

/-- The same fault entered at the same `pc` with the same registers. -/
theorem sameRun_takeFault {s s' : State} (c : FaultCause) (w : Word32) (hpc : s.pc = s'.pc) (hreg : ∀ r, s.reg r = s'.reg r) :
    SameRun (takeFault c w s) (takeFault c w s') := ⟨hpc, hreg, rfl, fun _ => ⟨rfl, hpc, rfl⟩⟩

/-- A command's offset is a function of the registers (R27). -/
theorem pcOffset_congr (i : Instr) {s s' : State} (hreg : ∀ r, s.reg r = s'.reg r) : pcOffset i s = pcOffset i s' := by
  cases i with
  | bz rs1 off | bnz rs1 off => simp only [pcOffset, hreg]
  | _ => rfl

/-- A command that runs in two states with the same `pc` and registers shows the same run: the destinations as its results, the other
registers by its frame, and `pc` by its offset. -/
theorem exec_sameRun (i : Instr) {s s' : State} (hr : s.runState = .run) (hr' : s'.runState = .run) (hpc : s.pc = s'.pc)
    (hreg : ∀ r, s.reg r = s'.reg r) : ∃ t t', exec i s = .next t ∧ exec i s' = .next t' ∧ SameRun t t' := by
  have hs : s.runState ≠ .fault := by simp [hr]
  have hs' : s'.runState ≠ .fault := by simp [hr']
  obtain ⟨t, t', ht, ht', hres⟩ := exec_answersAgree i (hr.trans hr'.symm) fun r _ => hreg r
  refine ⟨t, t', ht, ht', ?_⟩
  by_cases hfault : t.runState = .fault
  · obtain ⟨-, -, -, rfl⟩ := (exec_next_cases ht).of_fault hs hfault
    obtain ⟨-, -, -, rfl⟩ := (exec_next_cases ht').of_fault hs' (hres.runState ▸ hfault)
    exact sameRun_takeFault _ _ hpc hreg
  · refine ⟨BitVec.eq_of_toNat_eq ?_, fun r => ?_, hres.runState, fun h => absurd h hfault⟩
    · have hmoves := exec_movesPcByOffset i hs
      have hmoves' := exec_movesPcByOffset i hs'
      rw [MovesPcByOffset, ht] at hmoves
      rw [MovesPcByOffset, ht'] at hmoves'
      obtain ⟨_, ⟨⟩, -, hto⟩ := hmoves
      obtain ⟨_, ⟨⟩, -, hto'⟩ := hmoves'
      have hto := hto hfault
      rw [hpc, pcOffset_congr i hreg, ← hto' (hres.runState ▸ hfault)] at hto
      exact Int.ofNat_inj.1 hto
    · by_cases hdest : r ∈ destinations i
      · exact hres.registers hfault r hdest
      · rw [exec_keepsOtherRegisters i s t ht r hdest, exec_keepsOtherRegisters i s' t' ht' r hdest, hreg]

/-- Settles O12: the checks of a step see `pc` and the word there only, and the command the registers. -/
theorem faultsAreDeterministic : Obligations.FaultsAreDeterministic := by
  intro s s' hr hr' hpc hreg hword
  suffices h : ∃ t t', step s = .next t ∧ step s' = .next t' ∧ SameRun t t' by
    obtain ⟨t, t', ht, ht', hrun⟩ := h
    exact ⟨t, t', ht, ht', hrun.pc, hrun.registers, hrun.runState, hrun.record⟩
  by_cases hp : 256 ≤ s.pc.toNat
  case pos =>
    exact ⟨_, _, step_of_pc_outside hr hp, step_of_pc_outside hr' (hpc ▸ hp), sameRun_takeFault _ _ hpc hreg⟩
  case neg =>
    have hp' : s.pc.toNat < 256 := Nat.not_le.1 hp
    have hfetched : s'.cmdWord s'.pc.toNat = s.cmdWord s.pc.toNat := by rw [← hpc, hword _ hp']
    cases hd : decodeWord (s.cmdWord s.pc.toNat) with
    | error e =>
      have hstep' := step_of_decodeWord_error hr' (hpc ▸ hp') (hfetched ▸ hd)
      exact ⟨_, _, step_of_decodeWord_error hr hp' hd, hfetched ▸ hstep', sameRun_takeFault _ _ hpc hreg⟩
    | ok i =>
      rw [step_of_decodeWord hr hp' hd, step_of_decodeWord hr' (hpc ▸ hp') (hfetched ▸ hd)]
      exact exec_sameRun i hr hr' hpc hreg

end Sys2Proof.Machine
end

section
/-! The invariant of every reachable state (60_exceptions.md R288; log 2): the fault registers describe the present FAULT or are 0, and the
command buffer is canonical. Commands, host writes and resets keep it, so every execution does. -/

namespace Sys2Proof.Machine

/-! ## What the record depends on -/

/-- Outside FAULT a true record is empty (R288). -/
theorem FaultRecord.empty {s : State} (h : FaultRecord s) (hs : s.runState ≠ .fault) :
    s.fcause = .noFault ∧ s.fpc = 0 ∧ s.fcmd = 0 := by
  unfold FaultRecord at h
  split at h
  next hcause => exact ⟨hcause, h.2⟩
  all_goals exact absurd h.1 hs

/-- An empty record outside FAULT is true (R288). -/
theorem FaultRecord.of_empty {s : State} (hs : s.runState ≠ .fault) (hcause : s.fcause = .noFault) (hpc : s.fpc = 0)
    (hcmd : s.fcmd = 0) : FaultRecord s := by
  unfold FaultRecord
  rw [hcause]
  exact ⟨hs, hpc, hcmd⟩

/-- The record is true or not by STATE and the fault registers alone. -/
theorem FaultRecord.congr {s t : State} (h : FaultRecord s) (hstate : t.runState = s.runState) (hcause : t.fcause = s.fcause)
    (hpc : t.fpc = s.fpc) (hcmd : t.fcmd = s.fcmd) : FaultRecord t := by
  unfold FaultRecord
  rw [hstate, hcause, hpc, hcmd]
  exact h

/-- Leaving STATE for another state than FAULT keeps an empty record true. -/
theorem FaultRecord.leave {s t : State} (h : FaultRecord s) (hs : s.runState ≠ .fault) (ht : t.runState ≠ .fault)
    (hcause : t.fcause = s.fcause) (hpc : t.fpc = s.fpc) (hcmd : t.fcmd = s.fcmd) : FaultRecord t := by
  obtain ⟨hcause', hpc', hcmd'⟩ := h.empty hs
  exact .of_empty ht (hcause.trans hcause') (hpc.trans hpc') (hcmd.trans hcmd')

/-! ## Steps -/

/-- Each way a step faults makes a true record (R281 to R284, R288). -/
theorem FaultingStep.faultRecord {s t : State} (h : FaultingStep s t) : FaultRecord t := by
  cases h with
  | fetchrange hp => exact ⟨rfl, hp, rfl⟩
  | illegal e hp hd => exact ⟨rfl, hp, e, hd⟩
  | divzero i r hp hd hdiv hzero => exact ⟨rfl, hp, i, r, hd, hdiv⟩

/-- No step changes the command buffer (R41). -/
theorem step_cmdbuf {s t : State} (h : step s = .next t) : t.cmdbuf = s.cmdbuf := by
  by_cases hr : s.runState = .run
  · rcases step_run_cases hr h with ⟨-, rfl⟩ | ⟨-, -, rfl⟩ | ⟨-, i, -, heff⟩
    · rfl
    · rfl
    · obtain ⟨-, hbuf, -⟩ := heff.ie_cmdbuf_powerOns
      exact hbuf
  · rw [step_of_not_run hr] at h
    cases h
    rfl

/-- A step that does not end in FAULT keeps the fault registers (R37). -/
theorem step_faultRegisters {s t : State} (h : step s = .next t) (ht : t.runState ≠ .fault) :
    t.fcause = s.fcause ∧ t.fpc = s.fpc ∧ t.fcmd = s.fcmd := by
  by_cases hr : s.runState = .run
  · rcases step_run_cases hr h with ⟨-, rfl⟩ | ⟨-, -, rfl⟩ | ⟨-, i, -, heff⟩
    · exact absurd rfl ht
    · exact absurd rfl ht
    · exact heff.faultRegisters ht
  · rw [step_of_not_run hr] at h
    cases h
    exact ⟨rfl, rfl, rfl⟩

/-- Settles O41: outside RUN nothing changes; in RUN a fault makes a true record and any other end keeps the empty one. -/
theorem stepKeepsInvariant : Obligations.StepKeepsInvariant := by
  intro s t hinv h
  by_cases hr : s.runState = .run
  case neg =>
    rw [step_of_not_run hr] at h
    cases h
    exact hinv
  case pos =>
    refine ⟨step_cmdbuf h ▸ hinv.memory, ?_⟩
    by_cases ht : t.runState = .fault
    · exact (faultingStep_of_step hr h ht).faultRecord
    · obtain ⟨hcause, hpc, hcmd⟩ := step_faultRegisters h ht
      exact hinv.record.leave (by simp [hr]) ht hcause hpc hcmd

/-! ## Resets and the host -/

/-- Settles O40: nothing is recorded and nothing is listed. -/
theorem invariantHoldsAtReset : Obligations.InvariantHoldsAtReset :=
  ⟨⟨State.wf_reset, .of_empty nofun rfl rfl rfl⟩, fun _ => ⟨State.wf_reset, .of_empty nofun rfl rfl rfl⟩⟩

theorem stateInv_softReset {s : State} (h : StateInv s) : StateInv (softReset s) := ⟨h.memory, .of_empty nofun rfl rfl rfl⟩

/-- CLEAR is ignored but in DONE and FAULT (R32). -/
theorem clearRun_of_not_stopped {s : State} (h : ¬ (s.runState = .done ∨ s.runState = .fault)) : clearRun s = s := by
  cases hs : s.runState with
  | done | fault => simp [hs] at h
  | idle | run => exact clearRun_of_active (by simp [hs])

/-- CLEAR empties the record as it leaves DONE or FAULT (R287). -/
theorem stateInv_clearRun {s : State} (h : StateInv s) : StateInv (clearRun s) := by
  by_cases hs : s.runState = .done ∨ s.runState = .fault
  · rw [clearRun_of_stopped hs]
    exact ⟨h.memory, .of_empty nofun rfl rfl rfl⟩
  · rwa [clearRun_of_not_stopped hs]

/-- START begins with the empty record that IDLE has (R32, R288). -/
theorem stateInv_startRun {s : State} (h : StateInv s) : StateInv (startRun s) := by
  by_cases hs : s.runState = .idle
  · rw [startRun_of_idle hs]
    exact ⟨h.memory, h.record.leave (by simp [hs]) nofun rfl rfl rfl⟩
  · rwa [startRun_of_not_idle hs]

theorem stateInv_ctrlWrite {s : State} (w : Word32) (h : StateInv s) : StateInv (ctrlWrite w s) := by
  rcases ctrlWrite_cases w s with ⟨-, ht⟩ | ⟨-, -, -, ht⟩ | ⟨-, -, -, ht⟩ | ⟨-, -, -, ht⟩ | ⟨-, -, -, ht⟩ <;> rw [ht]
  · exact stateInv_softReset h
  · exact h
  · exact stateInv_clearRun h
  · exact stateInv_startRun h
  · exact stateInv_startRun (stateInv_clearRun h)

/-- Every taken host write keeps the invariant. -/
theorem WriteEffect.stateInv {addr : Nat} {w : Word32} {s t : State} (heff : WriteEffect addr w s t) (h : StateInv s) :
    StateInv t := by
  cases heff with
  | ctrl haddr => exact stateInv_ctrlWrite w h
  | pc | ie | regWord r j => exact ⟨h.memory, h.record.congr rfl rfl rfl rfl⟩
  | cmdWord k hk => exact ⟨State.wf_setCmdWord w h.memory hk, h.record.congr rfl rfl rfl rfl⟩
  | nothing => exact h

/-- Every event keeps the invariant (R61, R288). -/
theorem applyEvent_keeps_stateInv (e : HostEvent) {s : State} (h : StateInv s) : StateInv (applyEvent e s) := by
  cases e with
  | command =>
    obtain ⟨t, ht⟩ := exists_step_eq_next s
    rw [applyEvent, ht]
    exact stepKeepsInvariant s t h ht
  | read addr size => exact h
  | write addr size w =>
    rw [applyEvent]
    cases hw : hostWrite addr size w s with
    | next t => exact (hostWrite_cases hw).2.stateInv h
    | fault e | refused e => exact h
  | reset => exact invariantHoldsAtReset.2 s

/-- Settles O42, by induction on the events. -/
theorem executionsKeepInvariant : Obligations.ExecutionsKeepInvariant := by
  intro es
  induction es with
  | nil => exact fun s h => h
  | cons e rest ih => exact fun s h => ih _ (applyEvent_keeps_stateInv e h)

/-! ## The end of a run -/

/-- A step that leaves RUN for another state than FAULT is HALT (R237, R319). -/
theorem step_halt_of_not_run {s t : State} (hr : s.runState = .run) (h : step s = .next t) (ht : t.runState ≠ .run)
    (hfault : t.runState ≠ .fault) : t = s.advance.setRunState .done := by
  rcases step_run_cases hr h with ⟨-, rfl⟩ | ⟨-, -, rfl⟩ | ⟨-, i, -, heff⟩
  · exact absurd rfl hfault
  · exact absurd rfl hfault
  · cases heff with
    | halt hi => rfl
    | advance | branch off | write rd v | writeTwo rd rd2 v w => exact absurd hr ht
    | divzero r hdiv hzero => exact absurd rfl hfault

/-- Settles O43: a run ends by HALT, with the record still empty, or by one of the three faults. -/
theorem endOfARun : Obligations.EndOfARun := by
  intro s t hinv hr h ht
  by_cases hfault : t.runState = .fault
  · refine .inr ⟨hfault, ?_⟩
    cases faultingStep_of_step hr h hfault <;> exact ⟨rfl, rfl, nofun⟩
  · obtain ⟨hcause, hpc, hcmd⟩ := hinv.record.empty (by simp [hr])
    rw [step_halt_of_not_run hr h ht hfault]
    exact .inl ⟨rfl, advance_pc_toNat s, hcause, hpc, hcmd⟩

/-! ## The fault registers (R37) -/

/-- The three fault registers hold what they held. -/
abbrev KeepsRecord (s t : State) : Prop := t.fcause = s.fcause ∧ t.fpc = s.fpc ∧ t.fcmd = s.fcmd

/-- The three fault registers are 0. -/
abbrev EmptyRecord (t : State) : Prop := t.fcause = .noFault ∧ t.fpc = 0 ∧ t.fcmd = 0

theorem startRun_keepsRecord (s : State) : KeepsRecord s (startRun s) := by
  by_cases hs : s.runState = .idle
  · rw [startRun_of_idle hs]
    exact ⟨rfl, rfl, rfl⟩
  · rw [startRun_of_not_idle hs]
    exact ⟨rfl, rfl, rfl⟩

/-- CLEAR empties the record where it is not ignored (R32). -/
theorem clearRun_record_cases (s : State) : KeepsRecord s (clearRun s) ∨ EmptyRecord (clearRun s) := by
  by_cases hs : s.runState = .done ∨ s.runState = .fault
  · rw [clearRun_of_stopped hs]
    exact .inr ⟨rfl, rfl, rfl⟩
  · rw [clearRun_of_not_stopped hs]
    exact .inl ⟨rfl, rfl, rfl⟩

/-- A write of CTRL keeps the record, or has CLEAR or SRST and empties it (R32). -/
theorem ctrlWrite_record_cases (w : Word32) (s : State) :
    KeepsRecord s (ctrlWrite w s) ∨ (w.getLsbD 1 = true ∨ w.getLsbD 2 = true) ∧ EmptyRecord (ctrlWrite w s) := by
  rcases ctrlWrite_cases w s with ⟨h2, ht⟩ | ⟨-, -, -, ht⟩ | ⟨-, h1, -, ht⟩ | ⟨-, -, -, ht⟩ | ⟨-, h1, -, ht⟩ <;> rw [ht]
  · exact .inr ⟨.inr h2, rfl, rfl, rfl⟩
  · exact .inl ⟨rfl, rfl, rfl⟩
  · exact (clearRun_record_cases s).imp_right fun h => ⟨.inl h1, h⟩
  · exact .inl (startRun_keepsRecord s)
  · obtain ⟨hcause, hpc, hcmd⟩ := startRun_keepsRecord (clearRun s)
    simp only [KeepsRecord, EmptyRecord, hcause, hpc, hcmd]
    exact (clearRun_record_cases s).imp_right fun h => ⟨.inl h1, h⟩

/-- A step keeps the record, or runs and enters a fault. -/
theorem command_record_cases (s : State) :
    KeepsRecord s (applyEvent .command s) ∨ s.runState = .run ∧ ∃ c w, FaultEntered c w s (applyEvent .command s) := by
  obtain ⟨t, ht⟩ := exists_step_eq_next s
  have happ : applyEvent .command s = t := by rw [applyEvent, ht]; rfl
  rw [happ]
  by_cases hr : s.runState = .run
  case neg =>
    rw [step_of_not_run hr] at ht
    cases ht
    exact .inl ⟨rfl, rfl, rfl⟩
  case pos =>
    by_cases hfault : t.runState = .fault
    · refine .inr ⟨hr, ?_⟩
      cases faultingStep_of_step hr ht hfault <;> exact ⟨_, _, faultEntered_takeFault _ _ s⟩
    · exact .inl (step_faultRegisters ht hfault)

/-- A host write keeps the record unless it is a write of CTRL. -/
theorem write_record_cases (addr size : Nat) (w : Word32) (s : State) :
    KeepsRecord s (applyEvent (.write addr size w) s) ∨
      addr = ctrlAddr ∧ size = 4 ∧ applyEvent (.write addr size w) s = ctrlWrite w s := by
  rw [applyEvent]
  cases hw : hostWrite addr size w s with
  | next t =>
    obtain ⟨hsize, heff⟩ := hostWrite_cases hw
    cases heff with
    | ctrl haddr => exact .inr ⟨haddr, hsize, rfl⟩
    | pc | ie | regWord r j | cmdWord k | nothing => exact .inl ⟨rfl, rfl, rfl⟩
  | fault e | refused e => exact .inl ⟨rfl, rfl, rfl⟩

/-- Settles O53: the reads and the ignored writes by the window's map, the events by the ways each can write the record. -/
theorem faultRegisters : Obligations.FaultRegisters := by
  refine ⟨fun s => ⟨⟨_, hostRead_control (c := .fcause) rfl s, ?_⟩, ⟨_, hostRead_control (c := .fpc) rfl s, ?_⟩,
    hostRead_control (c := .fcmd) rfl s⟩, fun s w off hoff => ?_, fun s e => ?_⟩
  · change causeCode s.fcause = _
    cases s.fcause <;> rfl
  · simp only [controlRead, BitVec.toNat_setWidth]
    omega
  · simp only [List.mem_cons, List.not_mem_nil, or_false] at hoff
    rcases hoff with rfl | rfl | rfl
    · exact hostWrite_control (c := .fcause) rfl w s
    · exact hostWrite_control (c := .fpc) rfl w s
    · exact hostWrite_control (c := .fcmd) rfl w s
  · cases e with
    | command => exact (command_record_cases s).imp_right fun ⟨hr, hfault⟩ => .inr ⟨rfl, hr, hfault⟩
    | read addr size => exact .inl ⟨rfl, rfl, rfl⟩
    | reset => exact .inr (.inl ⟨.inl rfl, rfl, rfl, rfl⟩)
    | write addr size w =>
      rcases write_record_cases addr size w s with hkeep | ⟨rfl, rfl, happ⟩
      · exact .inl hkeep
      · rw [happ]
        exact (ctrlWrite_record_cases w s).imp_right fun ⟨hbits, hempty⟩ => .inl ⟨.inr ⟨w, rfl, hbits⟩, hempty⟩

end Sys2Proof.Machine
end

section
/-! The host's accesses (20_memory.md R51 to R57, 70_reset_and_hazards.md R311, R312, R320): the strobes of CTRL, the words of a register,
the resets, and which accesses are taken. -/

namespace Sys2Proof.Machine

/-! ## CTRL (R32) -/

section
variable {w : Word32} (s : State)

theorem ctrlWrite_start (h0 : w.getLsbD 0 = true) (h1 : w.getLsbD 1 = false) (h2 : w.getLsbD 2 = false) :
    ctrlWrite w s = startRun s := by
  simp only [ctrlWrite, h0, h1, h2, if_true, Bool.false_eq_true, if_false]

theorem ctrlWrite_clear (h0 : w.getLsbD 0 = false) (h1 : w.getLsbD 1 = true) (h2 : w.getLsbD 2 = false) :
    ctrlWrite w s = clearRun s := by
  simp only [ctrlWrite, h0, h1, h2, if_true, Bool.false_eq_true, if_false]

theorem ctrlWrite_clear_start (h0 : w.getLsbD 0 = true) (h1 : w.getLsbD 1 = true) (h2 : w.getLsbD 2 = false) :
    ctrlWrite w s = startRun (clearRun s) := by
  simp only [ctrlWrite, h0, h1, h2, if_true, Bool.false_eq_true, if_false]

theorem ctrlWrite_softReset (h2 : w.getLsbD 2 = true) : ctrlWrite w s = softReset s := if_pos h2

end

/-- The state in which CLEAR and START together resume a stopped engine: at the same `pc`, with an empty record (R287). -/
def resumed (s : State) : State := { s with runState := .run, fcause := .noFault, fpc := 0, fcmd := 0 }

theorem startRun_clearRun_of_stopped {s : State} (h : s.runState = .done ∨ s.runState = .fault) :
    startRun (clearRun s) = resumed s := by
  rw [clearRun_of_stopped h]
  rfl

/-- A fault that was not repaired is found again: the resumed step ends in the very state that the fault left (R287). -/
theorem step_resumed {p s : State} (h : FaultingStep p s) : step (resumed s) = .next s := by
  cases h with
  | fetchrange hp => exact step_of_pc_outside rfl hp
  | illegal e hp hd => exact step_of_decodeWord_error rfl hp hd
  | divzero i r hp hd hdiv hzero => exact step_of_zero_divisor rfl hp hd hdiv hzero

/-- Settles O13: CLEAR and START by their strobes, the retry by the way the first step faulted. -/
theorem clearStartRetriesTheFault : Obligations.ClearStartRetriesTheFault := by
  refine ⟨fun s hs => ?_, fun p s u hr hstep hs hu => ?_⟩
  · have hclear : ctrlWrite 2 s = { s with runState := .idle, fcause := .noFault, fpc := 0, fcmd := 0 } :=
      (ctrlWrite_clear s rfl rfl rfl).trans (clearRun_of_stopped (.inr hs))
    have hboth : ctrlWrite 3 s = resumed s :=
      (ctrlWrite_clear_start s rfl rfl rfl).trans (startRun_clearRun_of_stopped (.inr hs))
    exact ⟨_, resumed s, (hostWrite_ctrlAddr 2 s).trans (congrArg _ hclear), rfl, rfl, rfl, rfl, rfl, fun _ => rfl, rfl,
      fun _ => rfl, hostWrite_ctrlAddr 1 _, (hostWrite_ctrlAddr 3 s).trans (congrArg _ hboth), rfl, rfl, fun _ => rfl⟩
  · rw [hostWrite_ctrlAddr, ctrlWrite_clear_start s rfl rfl rfl, startRun_clearRun_of_stopped (.inr hs)] at hu
    cases hu
    exact step_resumed (faultingStep_of_step hr hstep hs)

/-- Settles O54, by the two sources of `irq`. -/
theorem interruptLevel : Obligations.InterruptLevel := by
  refine fun s => ⟨irq_iff s, irq_iff_enabled_source s, ?_⟩
  rw [ip_getLsbD_zero, ip_getLsbD_one]
  rintro ⟨hdone, hfault⟩
  exact absurd (hdone.symm.trans hfault) (by decide)

/-! ## Resets (R311, R312) -/

/-- In IDLE no source of `irq` is pending (R36). -/
theorem irq_of_idle {s : State} (h : s.runState = .idle) : s.irq = false := by
  rw [Bool.eq_false_iff, ne_eq, irq_iff_enabled_source]
  simp [h]

/-- Settles O44: both states are State.reset but for the count of resets. -/
theorem hardwareResetState : Obligations.HardwareResetState := by
  rintro t (rfl | ⟨s, rfl⟩)
  · exact ⟨State.reg_reset, rfl, rfl, rfl, rfl, rfl, rfl, rfl, irq_of_idle rfl, hostRead_control (c := .id) rfl _, rfl⟩
  · exact ⟨State.reg_reset, rfl, rfl, rfl, rfl, rfl, rfl, rfl, irq_of_idle rfl, hostRead_control (c := .id) rfl _, rfl⟩

/-- Settles O45: the write is the soft reset. -/
theorem softResetKeepsTheCommands : Obligations.SoftResetKeepsTheCommands := by
  intro s w h2
  refine ⟨softReset s, ?_, State.reg_reset, rfl, rfl, rfl, rfl, rfl, rfl, byteAt_softReset s⟩
  rw [hostWrite_ctrlAddr, ctrlWrite_softReset s h2]

/-! ## Words of a register (R53 a, R55, R57) -/

/-- Outside RUN a write of a register word replaces that word (R55). -/
theorem hostWrite_regAddr_of_not_run {s : State} (h : s.runState ≠ .run) (r : Reg) (j : Fin 4) (w : Word32) :
    hostWrite (regAddr r j) 4 w s = .next (s.setReg r (replaceWord (s.reg r) j.val w)) := by
  rw [hostWrite_regAddr, writeLoc, unlessRunning_of_not_run h]

/-- While RUN a write of a register word is ignored (R55). -/
theorem hostWrite_regAddr_of_run {s : State} (h : s.runState = .run) (r : Reg) (j : Fin 4) (w : Word32) :
    hostWrite (regAddr r j) 4 w s = .next s := by
  rw [hostWrite_regAddr, writeLoc, unlessRunning_run h]

theorem wordAt_replaceWord (v : Word128) (w : Word32) {j k : Nat} (hj : j < 4) (hk : k < 4) :
    wordAt (replaceWord v j w) k = if k = j then w.toNat else wordAt v k := by
  rw [← wordOf_toNat, wordOf_replaceWord v w hj hk]
  split_ifs
  · rfl
  · exact wordOf_toNat v k

/-- Settles O46: the write by whether the machine runs, and what it does to each word by the law of a replaced word. -/
theorem registerWords : Obligations.RegisterWords := by
  refine ⟨fun s r j w h => ⟨_, hostWrite_regAddr_of_not_run h r j w, fun k hk => ?_, fun r' hr' => s.reg_setReg_ne _ hr', rfl,
    ⟨rfl, rfl, rfl, rfl, rfl, fun _ => rfl⟩⟩, fun s r j w h => hostWrite_regAddr_of_run h r j w,
    fun s r j => ⟨_, hostRead_regAddr r j s, wordOf_toNat _ _⟩⟩
  rw [State.reg_setReg_same, wordAt_replaceWord _ w j.isLt hk]

/-- The host's writes of some words of a value to a register, one after another. -/
def wordWrites (r : Reg) (v : Word128) (order : List (Fin 4)) : List HostEvent :=
  order.map fun j => .write (regAddr r j) 4 (BitVec.ofNat 32 (wordAt v j.val))

theorem ofNat_wordAt (v : Word128) (j : Nat) : BitVec.ofNat 32 (wordAt v j) = wordOf v j := by
  rw [← wordOf_toNat, BitVec.ofNat_toNat, BitVec.setWidth_eq]

/-- After the writes the register holds the written words of the value and its own others. -/
theorem wordOf_applyEvents_wordWrites (r : Reg) (v : Word128) (order : List (Fin 4)) : ∀ s : State, s.runState ≠ .run →
    ∀ k : Fin 4, wordOf ((applyEvents (wordWrites r v order) s).reg r) k =
      if k ∈ order then wordOf v k else wordOf (s.reg r) k := by
  induction order with
  | nil => simp [wordWrites, applyEvents]
  | cons j rest ih =>
    intro s hs k
    have hwrite : applyEvent (.write (regAddr r j) 4 (BitVec.ofNat 32 (wordAt v j.val))) s =
        s.setReg r (replaceWord (s.reg r) j.val (wordOf v j.val)) := by
      rw [applyEvent, hostWrite_regAddr_of_not_run hs, ofNat_wordAt, stateAfter]
    have hafter := ih _ (show (s.setReg r (replaceWord (s.reg r) j.val (wordOf v j.val))).runState ≠ .run from hs) k
    rw [State.reg_setReg_same, wordOf_replaceWord _ _ j.isLt k.isLt, ← hwrite] at hafter
    refine Eq.trans hafter ?_
    by_cases hkj : k = j
    · simp [hkj]
    · simp [hkj, Fin.val_inj]

/-- Settles O47: every word is among the four written. -/
theorem fourWordWritesBuildAValue : Obligations.FourWordWritesBuildAValue := by
  intro s r v order hs hperm
  have hvalue : (applyEvents (wordWrites r v order) s).reg r = v := by
    refine eq_of_words fun k hk => ?_
    have hmem : (⟨k, hk⟩ : Fin 4) ∈ order := hperm.mem_iff.2 (by revert k; decide)
    exact (wordOf_applyEvents_wordWrites r v order s hs ⟨k, hk⟩).trans (if_pos hmem)
  refine ⟨hvalue, fun j => ?_⟩
  rw [replyTo, hostRead_regAddr, ofNat_wordAt]
  exact congrArg (fun u => HostReply.data (wordOf u j.val)) hvalue

/-! ## Reserved offsets, and the table of R320 -/

theorem ctlRegAt_eq_none {n : Nat} (h : 9 ≤ n) : ctlRegAt n = none := by
  obtain ⟨k, rfl⟩ := Nat.exists_eq_add_of_le' h
  rfl

/-- The reserved offsets of R51. -/
abbrev IsReserved (off : Nat) : Prop := 0x024 ≤ off ∧ off < 0x100 ∨ 0x200 ≤ off ∧ off < 0x400

theorem locationAt_reserved {off : Nat} (h : IsReserved off) : locationAt off = .reserved := by
  unfold locationAt
  rcases h with ⟨hlow, hhigh⟩ | ⟨hlow, hhigh⟩
  · rw [if_pos hhigh, ctlRegAt_eq_none (by omega)]
  · rw [if_neg (by omega), if_neg (by omega), if_pos hhigh]

theorem hostWrite_reserved {off : Nat} (ha : off % 4 = 0) (h : IsReserved off) (w : Word32) (s : State) :
    hostWrite (windowAddr off) 4 w s = .next s := by
  rw [hostWrite_windowAddr, windowWrite_aligned w s ha (by omega), locationAt_reserved h, writeLoc]

theorem hostRead_reserved {off : Nat} (ha : off % 4 = 0) (h : IsReserved off) (s : State) :
    hostRead (windowAddr off) 4 s = .next 0 := by
  rw [hostRead_windowAddr, windowRead_aligned s ha (by omega), locationAt_reserved h, readLoc]

/-- The read-only registers ignore a write (R31, R33, R36, R37). -/
theorem hostWrite_readOnly {off : Nat} (h : off ∈ [0x000, 0x008, 0x014, 0x018, 0x01C, 0x020]) (w : Word32) (s : State) :
    hostWrite (windowAddr off) 4 w s = .next s := by
  simp only [List.mem_cons, List.not_mem_nil, or_false] at h
  rcases h with rfl | rfl | rfl | rfl | rfl | rfl
  · exact hostWrite_control (c := .id) rfl w s
  · exact hostWrite_control (c := .status) rfl w s
  · exact hostWrite_control (c := .ip) rfl w s
  · exact hostWrite_control (c := .fcause) rfl w s
  · exact hostWrite_control (c := .fpc) rfl w s
  · exact hostWrite_control (c := .fcmd) rfl w s

/-- CLEAR by STATE (R32). -/
theorem clearRun_eq_ite (s : State) : clearRun s = if s.runState = .done ∨ s.runState = .fault
    then { s with runState := .idle, fcause := .noFault, fpc := 0, fcmd := 0 } else s := by
  split_ifs with h
  · exact clearRun_of_stopped h
  · exact clearRun_of_not_stopped h

/-- START by STATE (R32). -/
theorem startRun_eq_ite (s : State) : startRun s = if s.runState = .idle then { s with runState := .run } else s := by
  split_ifs with h
  · exact startRun_of_idle h
  · exact startRun_of_not_idle h

/-- CLEAR and START together by STATE (R32). -/
theorem startRun_clearRun_eq (s : State) : startRun (clearRun s) = match s.runState with
    | .idle => { s with runState := .run }
    | .run => s
    | .done | .fault => { s with runState := .run, fcause := .noFault, fpc := 0, fcmd := 0 } := by
  cases h : s.runState with
  | idle => rw [clearRun_of_active (.inl h), startRun_of_idle h]; rfl
  | run => rw [clearRun_of_active (.inr h), startRun_of_not_idle (by simp [h])]
  | done => exact startRun_clearRun_of_stopped (.inl h)
  | fault => exact startRun_clearRun_of_stopped (.inr h)

/-- Settles O49, row by row: the words by whether the machine runs, CTRL by its strobes, the rest by the window's map. -/
theorem hostProtocolTable : Obligations.HostProtocolTable := by
  intro s w
  refine ⟨fun r j => ?reg, fun k => ?cmd, ?pc, ⟨_, hostWrite_control (c := .ie) rfl w s, by simp [controlWrite]⟩,
    fun h0 h1 h2 => ?start, fun h0 h1 h2 => ?clear, fun h0 h1 h2 => ?both, fun h2 => ?srst, fun off ha hoff => ?ignored,
    fun off ha hl => ⟨_, (hostRead_windowAddr off 4 s).trans (windowRead_aligned s ha hl)⟩,
    hostRead_control (c := .ctrl) rfl s, fun off ha hoff => hostRead_reserved ha hoff s⟩
  case reg =>
    by_cases hr : s.runState = .run
    · exact ⟨s, hostWrite_regAddr_of_run hr r j w, by rw [if_pos hr]⟩
    · refine ⟨_, hostWrite_regAddr_of_not_run hr r j w, ?_⟩
      rw [if_neg hr, State.reg_setReg_same, wordAt_replaceWord _ w j.isLt j.isLt, if_pos rfl]
  case cmd =>
    by_cases hr : s.runState = .run
    · exact ⟨s, hostWrite_cmdAddr_of_run hr k w, by rw [if_pos hr]⟩
    · exact ⟨_, hostWrite_cmdAddr_of_not_run hr k w, by rw [if_neg hr, hostRead_setCmdWord_same]⟩
  case pc =>
    by_cases hr : s.runState = .run
    · exact ⟨s, hostWrite_pc_of_run hr w, by rw [if_pos hr]⟩
    · exact ⟨_, hostWrite_pc_of_not_run hr w, by simp [if_neg hr]⟩
  case start => rw [hostWrite_ctrlAddr, ctrlWrite_start s h0 h1 h2, startRun_eq_ite]
  case clear => rw [hostWrite_ctrlAddr, ctrlWrite_clear s h0 h1 h2, clearRun_eq_ite]
  case both =>
    rw [hostWrite_ctrlAddr, ctrlWrite_clear_start s h0 h1 h2]
    exact congrArg _ (startRun_clearRun_eq s)
  case srst => rw [hostWrite_ctrlAddr, ctrlWrite_softReset s h2]
  case ignored =>
    rcases hoff with hoff | hoff
    · exact hostWrite_readOnly hoff w s
    · exact hostWrite_reserved ha hoff w s

/-! ## Which accesses are taken (R56) -/

/-- The address of an access that R56 takes: aligned and inside the window. -/
abbrev IsTaken (addr size : Nat) : Prop :=
  size = 4 ∧ addr % 4 = 0 ∧ windowAddr 0 ≤ addr ∧ addr < windowAddr 0x800

/-- A taken address is that of an aligned offset of the window, as BASE is aligned (R51). -/
theorem exists_offset_of_isTaken {addr size : Nat} (h : IsTaken addr size) :
    ∃ off, addr = windowAddr off ∧ off % 4 = 0 ∧ off < 2048 := by
  obtain ⟨-, ha, hlow, hhigh⟩ := h
  refine ⟨addr - Config.base, ?_⟩
  simp only [windowAddr, Config.base, Config.windowBytes] at hlow hhigh ⊢
  omega

/-- Any other access leads nowhere (R56). -/
theorem locate_eq_none_of_not_isTaken {addr size : Nat} (h : ¬ IsTaken addr size) (hbase : Config.base ≤ addr) :
    locate (addr - Config.base) size = none := by
  refine if_neg fun hloc => h ?_
  obtain ⟨hsize, ha, hl⟩ := hloc
  refine ⟨hsize, ?_⟩
  simp only [windowAddr, Config.base, Config.windowBytes] at ha hl hbase ⊢
  omega

theorem hostRead_refused {addr size : Nat} (h : ¬ IsTaken addr size) (s : State) :
    hostRead addr size s = .fault .busError := by
  unfold hostRead
  split_ifs with hbase
  · rw [windowRead, locate_eq_none_of_not_isTaken h hbase]
  · rfl

theorem hostWrite_refused {addr size : Nat} (h : ¬ IsTaken addr size) (w : Word32) (s : State) :
    hostWrite addr size w s = .fault .busError := by
  unfold hostWrite
  split_ifs with hbase
  · rw [windowWrite, locate_eq_none_of_not_isTaken h hbase]
  · rfl

/-- Settles O50: a taken access by its offset, and any other by the window's map. -/
theorem refusedAccessesGetTheBusError : Obligations.RefusedAccessesGetTheBusError := by
  intro s addr size w
  by_cases h : IsTaken addr size
  · rw [if_pos h]
    obtain ⟨off, rfl, ha, hl⟩ := exists_offset_of_isTaken h
    obtain ⟨rfl, -⟩ := h
    exact ⟨⟨_, (hostRead_windowAddr off 4 s).trans (windowRead_aligned s ha hl)⟩,
      _, (hostWrite_windowAddr off 4 w s).trans (windowWrite_aligned w s ha hl)⟩
  · rw [if_neg h]
    have hread := hostRead_refused h s
    have hwrite := hostWrite_refused h w s
    exact ⟨hread, hwrite, by rw [replyTo, hread], by rw [replyTo, hwrite], by rw [applyEvent, hwrite, stateAfter]⟩

end Sys2Proof.Machine
end

section
/-! The shifts and the wrapping arithmetic by value (41_compare_logic_shift.md R129 to R134, 42_add_sub.md, 43_multiply.md), and the
division identity in the engine's own commands (44_divide.md R176). -/

namespace Sys2Proof.Machine

/-! ## Shifts -/

theorem shiftLeft_toNat (v : Word128) (n : Nat) : (shiftLeft v n).toNat = v.toNat * 2 ^ n % 2 ^ 128 := by
  rw [shiftLeft_eq, BitVec.toNat_shiftLeft, Nat.shiftLeft_eq]

theorem shiftRight_toNat (v : Word128) (n : Nat) : (shiftRight v n).toNat = v.toNat / 2 ^ n := by
  rw [shiftRight_eq, BitVec.toNat_ushiftRight, Nat.shiftRight_eq_div_pow]

/-- A 7-bit amount is an immediate as it is (R75 b). -/
theorem fmtI_amount (op : BitVec 8) (rd rs1 : Reg) (k : BitVec 7) :
    fmtI op rd rs1 (k.setWidth 16) = wordI op.toNat rd rs1 k.toNat := by
  rw [fmtI_eq, BitVec.toNat_setWidth_of_le (by decide)]

theorem amountInRange_toNat (k : BitVec 7) : amountInRange k.toNat = true := decide_eq_true k.isLt

/-- What stands above the shift amount in any immediate (R75 b). -/
theorem bits_wordI_above_amount {op : Nat} (hop : op < 256) (rd rs1 : Reg) {imm : Nat} (himm : imm < 2 ^ 16) :
    bits (wordI op rd rs1 imm) 7 9 = imm / 128 := by
  simp only [bits, wordI_toNat _ _ _ _ hop]
  omega

/-- A SHLI or SHRI word with a bit above the amount is no command (R133, R134). -/
theorem decodeWord_shift_rejected (rd rs1 : Reg) {imm : Nat} (himm : imm < 2 ^ 16) (habove : 127 < imm) :
    decodeWord (wordI 0x1E rd rs1 imm) = .error .mustBeZero ∧ decodeWord (wordI 0x1F rd rs1 imm) = .error .mustBeZero := by
  have hne : imm / 128 ≠ 0 := by omega
  constructor <;>
    simp only [decodeWord, ifZero, wordI_fields, Nat.reduceLT, bits_wordI_above_amount _ rd rs1 himm, hne, if_false]

/-- Settles O26: the four cases of each shift are one shift, and the other words fail at the bits above the amount. -/
theorem shiftCommands : Obligations.ShiftCommands := by
  refine ⟨fun rd rs1 rs2 s => ⟨?shl, ?shr⟩, fun rd rs1 k s => ⟨?shli, ?shri⟩, fun rd rs1 imm himm => ?rejected⟩
  case shl => exact .of_writeResult (fmtR_eq _ rd rs1 rs2 0) rfl rfl (shiftLeft_toNat _ _)
  case shr => exact .of_writeResult (fmtR_eq _ rd rs1 rs2 0) rfl rfl (shiftRight_toNat _ _)
  case shli => exact .of_writeResult (fmtI_amount _ rd rs1 k) (amountInRange_toNat k) rfl (shiftLeft_toNat _ _)
  case shri => exact .of_writeResult (fmtI_amount _ rd rs1 k) (amountInRange_toNat k) rfl (shiftRight_toNat _ _)
  case rejected =>
    rw [fmtI_eq, fmtI_eq]
    exact decodeWord_shift_rejected rd rs1 imm.isLt himm

/-! ## Sum, difference and product -/

/-- The difference modulo `2^128`, as an integer (R142). -/
theorem sub_toNat_eq_emod (a b : Word128) : (a - b).toNat = (((a.toNat : Int) - b.toNat) % 2 ^ 128).toNat := by
  have ha := a.isLt
  have hb := b.isLt
  rw [BitVec.toNat_sub]
  omega

/-- Settles O27: the limb sums of ADD, SUB and MUL are the operations modulo `2^128`. -/
theorem wrappingArithmetic : Obligations.WrappingArithmetic := by
  intro rd rs1 rs2 s
  refine ⟨?add, ?sub, ?mul⟩
  case add =>
    refine .of_writeResult (fmtR_eq _ rd rs1 rs2 0) rfl rfl ?_
    rw [add128_eq, BitVec.toNat_add]
  case sub =>
    refine .of_writeResult (fmtR_eq _ rd rs1 rs2 0) rfl rfl ?_
    rw [sub128_eq, sub_toNat_eq_emod]
  case mul =>
    refine .of_writeResult (fmtR_eq _ rd rs1 rs2 0) rfl rfl ?_
    rw [mul128_eq, BitVec.toNat_mul]

/-! ## The division identity -/

/-- The first command of a list, then the others (R235). -/
theorem execAll_cons {i : Instr} {s t : State} (h : exec i s = .next t) (rest : List Instr) :
    execAll (i :: rest) s = execAll rest t := by
  rw [execAll, h]

/-- Divisor times quotient plus remainder is the dividend, in the engine's own arithmetic (R165, R176). -/
theorem add128_mul128_divMod (a : Word128) {b : Word128} (hb : b ≠ 0) :
    add128 (mul128 b (divMod a b).1) (divMod a b).2 = a := by
  obtain ⟨hidentity, -⟩ := divMod_identity a b hb
  apply BitVec.eq_of_toNat_eq
  rw [add128_eq, mul128_eq, BitVec.toNat_add, BitVec.toNat_mul, Nat.mod_add_mod, ← hidentity, Nat.mod_eq_of_lt a.isLt]

/-- A divisor of `2^64` or more leaves a narrow quotient (R176). -/
theorem divMod_quotient_narrow (a : Word128) {b : Word128} (hb : 2 ^ 64 ≤ b.toNat) : (divMod a b).1.toNat < 2 ^ 64 := by
  have ha := a.isLt
  rw [divMod, BitVec.toNat_udiv]
  refine Nat.div_lt_of_lt_mul (ha.trans_le ?_)
  calc 2 ^ 128 = 2 ^ 64 * 2 ^ 64 := by norm_num
    _ ≤ b.toNat * 2 ^ 64 := Nat.mul_le_mul_right _ hb

/-- Settles O30: the three commands one after another, each reading what the ones before it wrote. -/
theorem divisionIdentityInCommands : Obligations.DivisionIdentityInCommands := by
  intro ra rb rq rr rt s hnodup hb
  simp only [List.nodup_cons, List.mem_cons, List.not_mem_nil, or_false, not_or] at hnodup
  obtain ⟨⟨-, -, -, -⟩, ⟨hbq, hbr, -⟩, ⟨hqr, hqt⟩, hrt, -⟩ := hnodup
  obtain ⟨-, hlt⟩ := divMod_identity (s.reg ra) (s.reg rb) hb
  have hdivrem := (exec_divrem rq rr ra rb s).trans (divideOrFault_of_ne_zero hb _ _ _ s)
  refine ⟨_, (execAll_cons hdivrem _).trans ((execAll_cons rfl _).trans (execAll_cons rfl _)), ?_, ?_, ?_, ?_⟩
  · simp [State.reg_writeResult, hbq, hbr, hqr, hrt, add128_mul128_divMod _ hb]
  all_goals simp only [State.reg_writeResult, State.reg_setReg, hqr, hqt, hrt, if_true, if_false]
  · exact hlt
  · exact fun hnarrow => hlt.trans hnarrow
  · exact fun hwide => divMod_quotient_narrow _ hwide

end Sys2Proof.Machine
end

section
/-! The greatest common divisor (46_prime.md R210 to R213): the loop reaches it in the turns it is given, and the even/even shortcut
never changes ISCOPRIME's answer. -/

namespace Sys2Proof.Machine

/-- A turn of Euclid's loop at least halves the product of the two numbers. -/
theorem two_mul_mod_mul_le {a b : Nat} (ha : 0 < a) (hab : a ≤ b) : 2 * (b % a * a) ≤ a * b := by
  have hlt := Nat.mod_lt b ha
  have hsum : b % a + b % a ≤ b := by
    have hdiv := Nat.div_add_mod b a
    have hpos : a ≤ a * (b / a) := Nat.le_mul_of_pos_right a (Nat.div_pos hab ha)
    omega
  calc 2 * (b % a * a) = a * (b % a + b % a) := by ring
    _ ≤ a * b := Nat.mul_le_mul_left a hsum

theorem mod_toNat_lt {a b : Word128} (ha : a ≠ 0) : (divMod b a).2.toNat < a.toNat := (divMod_identity b a ha).2

/-- The loop's remainder keeps the greatest common divisor (R210). -/
theorem gcd_divMod (a b : Word128) : Nat.gcd (divMod b a).2.toNat a.toNat = Nat.gcd a.toNat b.toNat := by
  rw [divMod, BitVec.toNat_umod, ← Nat.gcd_rec]

/-- One turn of the loop, and its two ends, in terms of the greatest common divisor (R210). -/
theorem gcdLoop_succ {n : Nat} {a b : Word128}
    (h : a ≠ 0 → (gcdLoop n (divMod b a).2 a).toNat = Nat.gcd (divMod b a).2.toNat a.toNat) :
    (gcdLoop (n + 1) a b).toNat = Nat.gcd a.toNat b.toNat := by
  rw [gcdLoop]
  split_ifs with h0 h1
  · simp [h0]
  · simp [h1]
  · rw [h h0, gcd_divMod]

/-- With operands in order, as many turns as the product has bits are enough (log 14). -/
theorem gcdLoop_toNat_of_le (n : Nat) : ∀ a b : Word128, a.toNat ≤ b.toNat → a.toNat * b.toNat < 2 ^ n →
    (gcdLoop n a b).toNat = Nat.gcd a.toNat b.toNat := by
  induction n with
  | zero =>
    intro a b hab hlt
    have ha : a.toNat = 0 := by
      rcases Nat.mul_eq_zero.1 (Nat.lt_one_iff.1 hlt) with h | h <;> omega
    rw [gcdLoop, ha, Nat.gcd_zero_left]
  | succ n ih =>
    intro a b hab hlt
    refine gcdLoop_succ fun h0 => ih _ _ (mod_toNat_lt h0).le ?_
    have hpos : 0 < a.toNat := Nat.pos_of_ne_zero fun h => h0 (BitVec.eq_of_toNat_eq h)
    have hhalf := two_mul_mod_mul_le hpos hab
    rw [divMod, BitVec.toNat_umod]
    rw [pow_succ] at hlt
    omega

/-- `Gcd128` is the greatest common divisor: the first turn puts the operands in order, and 257 turns are enough for a product below
`2^256` (R210; log 14). -/
theorem gcd128_toNat (a b : Word128) : (gcd128 a b).toNat = Nat.gcd a.toNat b.toNat := by
  refine gcdLoop_succ fun h0 => gcdLoop_toNat_of_le 257 _ _ (mod_toNat_lt h0).le ?_
  refine (Nat.mul_lt_mul'' (BitVec.isLt _) (BitVec.isLt _)).trans_le ?_
  rw [← pow_add]
  exact pow_le_pow_right₀ one_le_two (by decide)

/-- Settles O34, by the loop. -/
theorem gcdCommand : Obligations.GcdCommand :=
  fun rd rs1 rs2 _ => .of_writeResult (fmtR_eq _ rd rs1 rs2 0) rfl rfl (gcd128_toNat _ _)

/-- The shortcut's test is that both operands are even (R212). -/
theorem or_and_one_eq_zero_iff (a b : Word128) : (a ||| b) &&& 1 = 0 ↔ 2 ∣ a.toNat ∧ 2 ∣ b.toNat := by
  have hor : (a.toNat ||| b.toNat) % 2 = 0 ↔ a.toNat % 2 = 0 ∧ b.toNat % 2 = 0 := by
    simp only [Nat.mod_two_eq_zero_iff_testBit_zero, Nat.testBit_or, Bool.or_eq_false_iff]
  rw [BitVec.toNat_eq, BitVec.toNat_and, BitVec.toNat_or, Nat.dvd_iff_mod_eq_zero, Nat.dvd_iff_mod_eq_zero, ← hor]
  exact iff_of_eq (congrArg (· = 0) (Nat.and_one_is_mod _))

/-- `IsCoprime128` answers by the greatest common divisor, in the even/even case too, where 2 divides it (R212). -/
theorem isCoprime128_iff (a b : Word128) : isCoprime128 a b = true ↔ Nat.gcd a.toNat b.toNat = 1 := by
  rw [isCoprime128]
  split_ifs with heven
  · obtain ⟨ha, hb⟩ := (or_and_one_eq_zero_iff a b).1 heven
    refine iff_of_false nofun fun hgcd => ?_
    exact absurd (Nat.dvd_one.1 (hgcd ▸ Nat.dvd_gcd ha hb)) (by decide)
  · rw [beq_iff_eq, BitVec.toNat_eq, gcd128_toNat]
    rfl

/-- Settles O35, by the test's answer. -/
theorem iscoprimeCommand : Obligations.IscoprimeCommand := by
  intro rd rs1 rs2 s
  refine .of_writeResult (fmtR_eq _ rd rs1 rs2 0) rfl rfl ?_
  simp only [boolWord_toNat, isCoprime128_iff]

end Sys2Proof.Machine
end

section
/-! ISPRIME without any property of the witness table (46_prime.md R221, R226): where the table cannot matter, the pipeline answers as it
does with a table of R222. -/

namespace Sys2Proof.Machine

/-- The numbers on which every witness table gives one answer: the primes, which pass every test, and those that stages (a) to (c)
decide (R221). -/
def DecidedWithoutTable (n : Nat) : Prop := n.Prime ∨ n < Config.trialLimit ∨ ∃ p ≤ Config.smallPrimeLimit, p.Prime ∧ p ∣ n

/-- On such a number the pipeline's answer is the same for all tables. -/
theorem isPrime64With_eq {v : Word64} (h : DecidedWithoutTable v.toNat) (table table' : WitnessTable) :
    isPrime64With table v = isPrime64With table' v := by
  unfold isPrime64With
  by_cases hsmall : v < 2
  case pos => rw [if_pos hsmall, if_pos hsmall]
  case neg =>
    rw [if_neg hsmall, if_neg hsmall]
    by_cases heven : v.getLsbD 0 = false
    case pos => rw [if_pos heven, if_pos heven]
    case neg =>
      have hodd : v.toNat % 2 = 1 := Nat.mod_two_ne_zero.1 fun h => heven ((getLsbD_zero_eq_false_iff v).2 h)
      rw [if_neg heven, if_neg heven]
      cases hstage : smallPrimeStage smallPrimes v.toNat with
      | some answer => rfl
      | none =>
        refine ite_congr rfl (fun _ => rfl) fun hlimit => ?_
        rcases h with hp | hlt | ⟨p, hle, hp, hdvd⟩
        · rw [millerRabin_of_prime hp hodd, millerRabin_of_prime hp hodd]
        · exact absurd hlt hlimit
        · exact absurd hle (Nat.not_le.2 (smallPrimeLimit_lt_of_stage_none hodd hstage hp hdvd))

/-- So on such a number the engine decides primality, whatever its table is. -/
theorem isPrime64_iff {v : Word64} (h : DecidedWithoutTable v.toNat) : isPrime64 v = true ↔ v.toNat.Prime := by
  rw [isPrime64, isPrime64With_eq h _ (exhaustiveTable (2 ^ 32))]
  exact isPrime64With_iff (exhaustiveTable_suffices le_rfl) v

/-- Settles O36: on a prime and on a composite that the first stages decide, the engine answers by primality. -/
theorem isprimeCommand : Obligations.IsprimeCommand := by
  intro rd rs1 s
  rw [← State.narrow_toNat]
  refine ⟨_, ?_, .of_writeResult (fmtR_eq _ rd rs1 0 0) rfl (exec_isprime rd rs1 s) (boolWord_toNat _), fun hp => ?_,
    fun hnp hdecided => ?_⟩
  · split_ifs <;> decide
  · rw [if_pos ((isPrime64_iff (.inl hp)).2 hp)]
  · rw [if_neg fun hprime => hnp ((isPrime64_iff (.inr hdecided)).1 hprime)]

end Sys2Proof.Machine
end

section
/-! The assembler on its own spelling (30_encoding.md R81): the offset of a label, the statement of every command, and a program's
text. -/

namespace Sys2Proof.Machine

/-! ## Labels -/

/-- A label's offset is its distance from the branch, modulo `2^16` (R81). -/
theorem labelOffset_emod (label index : Nat) : labelOffset label index % 65536 = ((label : Int) - index) % 65536 := by
  simp only [labelOffset, off16Bits, sext16]
  split_ifs <;> omega

/-- Settles O5: the distance, added to the branch's index and wrapped, is the label's index. -/
theorem labelBranchReachesLabel : Obligations.LabelBranchReachesLabel := by
  intro label index hlabel hindex
  refine ⟨offInRange_labelOffset label index, ?_⟩
  have htarget := branchTarget_toNat (BitVec.ofNat 16 index) (labelOffset label index)
  have hdistance := labelOffset_emod label index
  rw [BitVec.toNat_ofNat, Nat.mod_eq_of_lt (by omega)] at htarget
  omega

/-! ## Statements -/

/-- A well-formed command is one command (R75). -/
theorem oneCommand_of_wellFormed {i : Instr} (hi : i.wellFormed = true) : oneCommand i = some [i] := if_pos hi

/-- The number of a branch is its own target (R81, log 20). -/
theorem bind_targetOffset_num (labels : List (List Char × Nat)) (index : Nat) {off : Int} (hoff : offInRange off = true)
    (f : Int → Option (List Instr)) : (targetOffset labels index (.num off)).bind f = f off := by
  rw [targetOffset, numberTarget_of_offInRange hoff, Option.bind_some]

/-- The statement of a well-formed command is taken as that command: by the branches' target, by the number in a field, or by the table
of the mnemonic (R77, R81). -/
theorem commandsOf_toStatement {i : Instr} (hi : i.wellFormed = true) (labels : List (List Char × Nat)) (index : Nat) :
    commandsOf labels index (toStatement i) = some [i] := by
  cases i with
  | jmp off =>
    exact (bind_targetOffset_num labels index hi fun off => oneCommand (.jmp off)).trans (oneCommand_of_wellFormed hi)
  | bz rs1 off =>
    exact (bind_targetOffset_num labels index hi fun off => oneCommand (.bz rs1 off)).trans (oneCommand_of_wellFormed hi)
  | bnz rs1 off =>
    exact (bind_targetOffset_num labels index hi fun off => oneCommand (.bnz rs1 off)).trans (oneCommand_of_wellFormed hi)
  | ldi rd imm =>
    exact (withNumber_natCast imm fun n => oneCommand (.ldi rd n)).trans (oneCommand_of_wellFormed hi)
  | ldis rd imm =>
    exact (withNumber_natCast imm fun n => oneCommand (.ldis rd n)).trans (oneCommand_of_wellFormed hi)
  | shli rd rs1 amount =>
    exact (withNumber_natCast amount fun n => oneCommand (.shli rd rs1 n)).trans (oneCommand_of_wellFormed hi)
  | shri rd rs1 amount =>
    exact (withNumber_natCast amount fun n => oneCommand (.shri rd rs1 n)).trans (oneCommand_of_wellFormed hi)
  | ldc rd k => cases k <;> rfl
  | absu rd rs1 w => cases w <;> rfl
  | _ => rfl

/-- The statement of a command is one word; only LI64 and LI128 are more (R82). -/
theorem wordCount_toStatement (i : Instr) : wordCount (toStatement i) = 1 := by
  cases i <;> rfl

/-- Settles O6, command by command. -/
theorem statementsBecomeTheirCommands : Obligations.StatementsBecomeTheirCommands :=
  fun i labels index hi => ⟨commandsOf_toStatement hi labels index, wordCount_toStatement i⟩

/-! ## Text -/

/-- The line of a command: its statement, without a label. -/
def lineOfCommand (i : Instr) : AsmLine := ⟨none, some (toStatement i)⟩

/-- Lines without labels give no label. -/
theorem labelIndices_lineOfCommand (is : List Instr) : ∀ index, labelIndices (is.map lineOfCommand) index = [] := by
  induction is with
  | nil => exact fun _ => rfl
  | cons i rest ih => exact fun index => ih (index + wordCount (toStatement i))

theorem commandsOfLines_cons (labels : List (List Char × Nat)) (i : Instr) (lines : List AsmLine) (index : Nat) :
    commandsOfLines labels (lineOfCommand i :: lines) index =
      (commandsOf labels index (toStatement i)).bind fun is =>
        (commandsOfLines labels lines (index + wordCount (toStatement i))).map fun more => is ++ more := rfl

/-- The lines of well-formed commands give those commands, in their order. -/
theorem commandsOfLines_lineOfCommand (labels : List (List Char × Nat)) (is : List Instr) (h : ∀ i ∈ is, i.wellFormed = true) :
    ∀ index, commandsOfLines labels (is.map lineOfCommand) index = some is := by
  induction is with
  | nil => exact fun _ => rfl
  | cons i rest ih =>
    intro index
    obtain ⟨hi, hrest⟩ := List.forall_mem_cons.1 h
    rw [List.map_cons, commandsOfLines_cons, commandsOf_toStatement hi, ih hrest]
    rfl

/-- The program text, cut at its line ends and read line by line, is the lines of the commands. -/
theorem allOf_lineOf_programText (i : Instr) (is : List Instr) :
    allOf lineOf (cutAt '\n' (programText (i :: is)).toList) = some ((i :: is).map lineOfCommand) := by
  have hline (k : Instr) : '\n' ∉ statementChars (toStatement k) := (lineOf_toStatement k).2
  have hcut := cutAt_intercalate (sep := '\n') (gap := []) (by simp) (statementChars (toStatement i))
    (is.map fun k => statementChars (toStatement k)) (by simp [hline])
  rw [programText, String.toList_ofList, List.map_cons, hcut]
  simp only [List.nil_append, List.map_id', ← List.map_cons (f := fun k => statementChars (toStatement k))]
  exact allOf_map fun k _ => (lineOf_toStatement k).1

/-- Settles O60: the text is cut into the commands' lines, none of them has a label, and each is read as its command. -/
theorem assemblerReadsProgramText : Obligations.AssemblerReadsProgramText := by
  intro is h
  cases is with
  | nil => rfl
  | cons i rest =>
    rw [assemble, allOf_lineOf_programText, Option.bind_some]
    simp only [labelIndices_lineOfCommand, commandsOfLines_lineOfCommand _ _ h, List.map_nil, List.nodup_nil, if_true]

end Sys2Proof.Machine
end

section
/-! The Russian-peasant datapath of MULMOD (45_modular.md R192): every addition is modulo `m`, and the loop adds the multiples of `a` that
the bits of `b` ask for. -/

namespace Sys2Proof.Machine

/-- The addition of R192 is addition modulo `m` on reduced operands, without leaving 64 bits. -/
theorem addModNoOverflow_toNat {r a m : Word64} (hr : r.toNat < m.toNat) (ha : a.toNat < m.toNat) :
    (addModNoOverflow r a m).toNat = (r.toNat + a.toNat) % m.toNat := by
  have hm := m.isLt
  have hgap : (m - a).toNat = m.toNat - a.toNat := BitVec.toNat_sub_of_le (BitVec.le_def.2 ha.le)
  rw [addModNoOverflow]
  split_ifs with hwrap
  · rw [BitVec.toNat_sub_of_le hwrap, hgap]
    rw [BitVec.le_def, hgap] at hwrap
    rw [Nat.mod_eq_sub_mod (by omega), Nat.mod_eq_of_lt (by omega)]
    omega
  · rw [BitVec.le_def, hgap] at hwrap
    rw [BitVec.toNat_add, Nat.mod_eq_of_lt (by omega), Nat.mod_eq_of_lt (by omega)]

theorem addModNoOverflow_lt {r a m : Word64} (hr : r.toNat < m.toNat) (ha : a.toNat < m.toNat) :
    (addModNoOverflow r a m).toNat < m.toNat :=
  addModNoOverflow_toNat hr ha ▸ Nat.mod_lt _ (Nat.zero_lt_of_lt ha)

/-- Halving `b` and doubling `a` keep the sum `r + a * b` modulo `m`, when the low bit's `a` is added to `r`. -/
theorem add_mul_modEq_of_halve {m a a' b r r' : Nat} {bit : Bool} (ha : a' ≡ a + a [MOD m])
    (hr : r' ≡ r + a * bit.toNat [MOD m]) : r' + a' * b ≡ r + a * (2 * b + bit.toNat) [MOD m] := by
  have hsum : r + a * (2 * b + bit.toNat) = r + a * bit.toNat + (a + a) * b := by ring
  exact hsum ▸ hr.add (ha.mul_right b)

/-- The loop of R192 on reduced operands: `(r + a * b) mod m`, in a turn for each bit of `b`. -/
theorem peasantLoop_toNat {m : Word64} (turns : Nat) : ∀ a b r : Word64, a.toNat < m.toNat → r.toNat < m.toNat →
    b.toNat < 2 ^ turns → (peasantLoop turns a b r m).toNat = (r.toNat + a.toNat * b.toNat) % m.toNat := by
  have last (a b r : Word64) (hr : r.toNat < m.toNat) (hb : b.toNat = 0) :
      r.toNat = (r.toNat + a.toNat * b.toNat) % m.toNat := by
    rw [hb, Nat.mul_zero, Nat.add_zero, Nat.mod_eq_of_lt hr]
  induction turns with
  | zero => exact fun a b r _ hr hb => last a b r hr (Nat.lt_one_iff.1 hb)
  | succ n ih =>
    intro a b r ha hr hb
    rw [peasantLoop]
    by_cases hb0 : b = 0
    case pos =>
      rw [if_pos hb0]
      exact last a b r hr (congrArg BitVec.toNat hb0)
    case neg =>
      have hhalf := toNat_eq_two_mul_half_add_bit b
      have hdouble := addModNoOverflow_toNat ha ha
      have hadded : (if b.getLsbD 0 then addModNoOverflow r a m else r).toNat < m.toNat ∧
          (if b.getLsbD 0 then addModNoOverflow r a m else r).toNat ≡ r.toNat + a.toNat * (b.getLsbD 0).toNat
            [MOD m.toNat] := by
        cases b.getLsbD 0
        · exact ⟨hr, by simp [Nat.ModEq]⟩
        · exact ⟨addModNoOverflow_lt hr ha, by simp [addModNoOverflow_toNat hr ha, Nat.ModEq]⟩
      rw [if_neg hb0, ih _ _ _ (addModNoOverflow_lt ha ha) hadded.1 (by rw [pow_succ] at hb; omega)]
      conv_rhs => rw [hhalf]
      exact add_mul_modEq_of_halve (hdouble ▸ Nat.mod_modEq _ _) hadded.2

/-- For a modulus other than 0 the Russian-peasant datapath gives the product modulo `m`. -/
theorem mulModPeasant_toNat {m : Word64} (hm : m ≠ 0) (a b : Word64) :
    (mulModPeasant a b m).toNat = a.toNat * b.toNat % m.toNat := by
  have hpos : 0 < m.toNat := Nat.pos_of_ne_zero fun h => hm (BitVec.eq_of_toNat_eq h)
  have hred : (a % m).toNat < m.toNat := by
    rw [BitVec.toNat_umod]
    exact Nat.mod_lt _ hpos
  have hloop := peasantLoop_toNat 64 (a % m) (b % m) 0#64 hred hpos (BitVec.isLt _)
  rw [BitVec.toNat_umod, BitVec.toNat_umod, BitVec.toNat_ofNat, Nat.zero_mod, Nat.zero_add, ← Nat.mul_mod] at hloop
  rw [mulModPeasant, if_neg hm]
  exact hloop

/-- Settles O59: both datapaths give the product modulo `m`, and 0 for `m = 0`. -/
theorem russianPeasantIsMulMod : Obligations.RussianPeasantIsMulMod := by
  refine fun a b m => ⟨?_, fun hm => mulModPeasant_toNat hm a b⟩
  by_cases hm : m = 0
  · rw [mulModPeasant, mulMod64, if_pos hm, if_pos hm]
  · exact BitVec.eq_of_toNat_eq (by rw [mulModPeasant_toNat hm, mulMod64_toNat, if_neg hm])

end Sys2Proof.Machine
end

section
/-! Quotient digits (44_divide.md R172, R175): the estimate by the top divisor digit is at most two too large, and the correction finds the
largest digit whose product with the two top divisor digits fits. Both the 128-by-64 primitive and Algorithm D use it. -/

namespace Sys2Proof.Machine

theorem digitBase_eq : digitBase = 2 ^ 32 := rfl

theorem digitBase_pos : 0 < digitBase := by decide

theorem digitAt_lt (u k : Nat) : digitAt u k < digitBase := Nat.mod_lt _ digitBase_pos

/-- The digits from `k` on are those from `k + 1` on and digit `k`. -/
theorem div_pow_eq_append_digit (u k : Nat) : u / digitBase ^ k = u / digitBase ^ (k + 1) * digitBase + digitAt u k := by
  rw [digitAt, pow_succ, ← Nat.div_div_eq_div_mul, Nat.div_add_mod']

/-- The top digit of a number of `k + 1` digits. -/
theorem digitAt_top {u k : Nat} (h : u < digitBase ^ (k + 1)) : digitAt u k = u / digitBase ^ k :=
  Nat.mod_eq_of_lt (Nat.div_lt_of_lt_mul (pow_succ digitBase k ▸ h))

/-- The digits of `u` from `j` on are those of `u / B^j`. -/
theorem digitAt_div_pow (u j i : Nat) : digitAt (u / digitBase ^ j) i = digitAt u (j + i) := by
  rw [digitAt, digitAt, Nat.div_div_eq_div_mul, pow_add]

/-- Long division by one digit: the quotient and remainder of a number with a digit appended, from those of the number. -/
theorem div_mod_append_digit (y d base : Nat) {v : Nat} (hv : 0 < v) :
    (y * base + d) / v = y / v * base + (y % v * base + d) / v ∧ (y * base + d) % v = (y % v * base + d) % v := by
  have hsplit : y * base + d = v * (y / v * base) + (y % v * base + d) := by
    conv_lhs => rw [← Nat.div_add_mod y v]
    ring
  rw [hsplit, Nat.mul_add_div hv, Nat.mul_add_mod]
  exact ⟨rfl, rfl⟩

/-! ## Estimate and correction -/

/-- The largest digit whose product with the two top divisor digits fits in the three top digits of the dividend (R172). -/
def largestDigit (num next v1 v0 : Nat) : Nat := min ((num * digitBase + next) / (v1 * digitBase + v0)) (digitBase - 1)

section
variable {num next v1 v0 : Nat}

theorem le_largestDigit_iff (hv : 0 < v1 * digitBase + v0) (x : Nat) :
    x ≤ largestDigit num next v1 v0 ↔ x < digitBase ∧ x * (v1 * digitBase + v0) ≤ num * digitBase + next := by
  have hbase := digitBase_pos
  rw [largestDigit, le_min_iff, Nat.le_div_iff_mul_le hv]
  omega

/-- The test of the correction loop is that the estimate is too large (R172). -/
theorem correction_test_iff (hv : 0 < v1 * digitBase + v0) {qhat rhat : Nat} (hnum : qhat * v1 + rhat = num) :
    (digitBase ≤ qhat ∨ digitBase * rhat + next < qhat * v0) ↔ largestDigit num next v1 v0 < qhat := by
  have hdividend : num * digitBase + next = qhat * v1 * digitBase + digitBase * rhat + next := by
    rw [← hnum]
    ring
  have hproduct : qhat * (v1 * digitBase + v0) = qhat * v1 * digitBase + qhat * v0 := by ring
  have hle := le_largestDigit_iff (num := num) (next := next) hv qhat
  rw [hdividend, hproduct] at hle
  omega

/-- When what is left of the dividend outgrows a digit, the estimate is no longer too large: the loop may stop there (R172). -/
theorem le_largestDigit_of_base_le (hv0 : v0 < digitBase) (hnum : num ≤ v1 * digitBase + v0) (hv : 0 < v1 * digitBase + v0)
    {q r : Nat} (hqr : q * v1 + r = num) (hr : digitBase ≤ r) : q ≤ largestDigit num next v1 v0 := by
  have hq : q < digitBase := by
    by_contra hge
    have hle := Nat.mul_le_mul_right v1 (Nat.not_lt.1 hge)
    rw [Nat.mul_comm digitBase] at hle
    omega
  refine (le_largestDigit_iff hv q).2 ⟨hq, ?_⟩
  have hlow : q * v0 ≤ r * digitBase := Nat.mul_le_mul (hq.le.trans hr) hv0.le
  calc q * (v1 * digitBase + v0) = q * v1 * digitBase + q * v0 := by ring
    _ ≤ q * v1 * digitBase + r * digitBase := Nat.add_le_add_left hlow _
    _ = num * digitBase := by rw [← hqr]; ring
    _ ≤ num * digitBase + next := Nat.le_add_right _ _

/-- The loop takes an estimate that is too large by at most its turns to the digit (R172; log 14). -/
theorem correctDigit_eq (hv0 : v0 < digitBase) (hnum : num ≤ v1 * digitBase + v0) (hv : 0 < v1 * digitBase + v0)
    (turns : Nat) : ∀ qhat rhat, qhat * v1 + rhat = num → largestDigit num next v1 v0 ≤ qhat →
      qhat ≤ largestDigit num next v1 v0 + turns → correctDigit turns qhat rhat v1 v0 next = largestDigit num next v1 v0 := by
  induction turns with
  | zero =>
    intro qhat rhat _ hge hle
    rw [correctDigit]
    omega
  | succ n ih =>
    intro qhat rhat hqr hge hle
    rw [correctDigit]
    simp only [correction_test_iff hv hqr]
    by_cases hlarge : largestDigit num next v1 v0 < qhat
    case neg => rw [if_neg hlarge, Nat.le_antisymm (Nat.not_lt.1 hlarge) hge]
    case pos =>
      obtain ⟨q, rfl⟩ : ∃ q, qhat = q + 1 := ⟨qhat - 1, by omega⟩
      have hqr' : q * v1 + (rhat + v1) = num := by rw [← hqr]; ring
      have hge' := Nat.le_of_lt_succ hlarge
      rw [if_pos hlarge, Nat.add_sub_cancel]
      by_cases hbase : digitBase ≤ rhat + v1
      · rw [if_pos hbase]
        exact Nat.le_antisymm (le_largestDigit_of_base_le hv0 hnum hv hqr' hbase) hge'
      · rw [if_neg hbase]
        exact ih q (rhat + v1) hqr' hge' (by omega)

/-- The estimate by the top divisor digit is not below the digit. -/
theorem largestDigit_le_estimate (hv1 : 0 < v1) (hnext : next < digitBase) : largestDigit num next v1 v0 ≤ num / v1 := by
  have hv : 0 < v1 * digitBase + v0 := Nat.add_pos_left (Nat.mul_pos hv1 digitBase_pos) _
  obtain ⟨-, hle⟩ := (le_largestDigit_iff (num := num) (next := next) hv _).1 le_rfl
  rw [Nat.le_div_iff_mul_le hv1]
  refine Nat.le_of_lt_succ (Nat.lt_of_mul_lt_mul_right (a := digitBase) ?_)
  calc largestDigit num next v1 v0 * v1 * digitBase
      ≤ largestDigit num next v1 v0 * (v1 * digitBase + v0) := by rw [Nat.mul_assoc]; exact Nat.mul_le_mul_left _ (Nat.le_add_right _ _)
    _ ≤ num * digitBase + next := hle
    _ < num.succ * digitBase := by rw [Nat.succ_mul]; omega

/-- With a normalised divisor the estimate is at most two too large (R172: "at most twice"). -/
theorem estimate_le (hnorm : digitBase ≤ 2 * v1) (hv0 : v0 < digitBase) (hnum : num ≤ v1 * digitBase + v0) :
    num / v1 ≤ largestDigit num next v1 v0 + 2 := by
  have hbase := digitBase_pos
  have hv1 : 0 < v1 := by omega
  have hv : 0 < v1 * digitBase + v0 := Nat.add_pos_left (Nat.mul_pos hv1 hbase) _
  rcases Nat.lt_or_ge (num / v1) 2 with hsmall | hlarge
  · omega
  · obtain ⟨x, hx⟩ := Nat.exists_eq_add_of_le' hlarge
    have hxv : (x + 2) * v1 ≤ num := hx ▸ Nat.div_mul_le_self num v1
    rw [hx, Nat.add_le_add_iff_right, le_largestDigit_iff hv]
    have hxbase : x < digitBase := by
      by_contra hge
      have hle := Nat.mul_le_mul_right v1 (Nat.not_lt.1 hge)
      rw [Nat.add_mul] at hxv
      rw [Nat.mul_comm digitBase] at hle
      omega
    refine ⟨hxbase, ?_⟩
    have hlow : x * v0 ≤ 2 * v1 * digitBase := Nat.mul_le_mul (hxbase.le.trans hnorm) hv0.le
    calc x * (v1 * digitBase + v0) = x * v1 * digitBase + x * v0 := by ring
      _ ≤ x * v1 * digitBase + 2 * v1 * digitBase := Nat.add_le_add_left hlow _
      _ = (x + 2) * v1 * digitBase := by ring
      _ ≤ num * digitBase := Nat.mul_le_mul_right _ hxv
      _ ≤ num * digitBase + next := Nat.le_add_right _ _

/-- Estimate and correction find the digit (R172, R175). -/
theorem quotientDigit_eq_largestDigit (hnorm : digitBase ≤ 2 * v1) (hv0 : v0 < digitBase) (hnext : next < digitBase)
    (hnum : num ≤ v1 * digitBase + v0) : quotientDigit num next v1 v0 = largestDigit num next v1 v0 := by
  have hbase := digitBase_pos
  have hv1 : 0 < v1 := by omega
  have hv : 0 < v1 * digitBase + v0 := Nat.add_pos_left (Nat.mul_pos hv1 hbase) _
  exact correctDigit_eq hv0 hnum hv 2 _ _ (Nat.div_add_mod' num v1) (largestDigit_le_estimate hv1 hnext)
    (estimate_le hnorm hv0 hnum)

/-- Where the dividend's top digits are below the divisor, the digit is the quotient of its three digits. -/
theorem largestDigit_eq_div (hnext : next < digitBase) (hnum : num < v1 * digitBase + v0) :
    largestDigit num next v1 v0 = (num * digitBase + next) / (v1 * digitBase + v0) := by
  refine Nat.min_eq_left (Nat.le_sub_one_of_lt (Nat.div_lt_of_lt_mul ?_))
  calc num * digitBase + next < (num + 1) * digitBase := by rw [Nat.succ_mul]; omega
    _ ≤ (v1 * digitBase + v0) * digitBase := Nat.mul_le_mul_right _ hnum

end

/-! ## Normalising -/

/-- Shifting the top set bit of a number to bit `k` (R172, R175). -/
theorem normalize_bounds {x k : Nat} (hx : x ≠ 0) (hlt : x < 2 ^ (k + 1)) :
    2 ^ k ≤ x * 2 ^ (k - Nat.log2 x) ∧ x * 2 ^ (k - Nat.log2 x) < 2 ^ (k + 1) := by
  have hlow := Nat.log2_self_le hx
  have hhigh := Nat.lt_log2_self (n := x)
  have hk : Nat.log2 x ≤ k := Nat.le_of_lt_succ ((Nat.log2_lt hx).2 hlt)
  constructor
  · calc 2 ^ k = 2 ^ Nat.log2 x * 2 ^ (k - Nat.log2 x) := by rw [← pow_add, Nat.add_sub_cancel' hk]
      _ ≤ x * 2 ^ (k - Nat.log2 x) := Nat.mul_le_mul_right _ hlow
  · calc x * 2 ^ (k - Nat.log2 x) < 2 ^ (Nat.log2 x + 1) * 2 ^ (k - Nat.log2 x) :=
          Nat.mul_lt_mul_of_pos_right hhigh (Nat.two_pow_pos _)
      _ = 2 ^ (k + 1) := by rw [← pow_add, Nat.add_right_comm, Nat.add_sub_cancel' hk]

end Sys2Proof.Machine
end

section
/-! The 128-by-64 primitive of the divider (44_divide.md R172): it normalises the divisor, finds two quotient digits, and shifts the
remainder back. -/

namespace Sys2Proof.Machine

/-! ## One quotient digit -/

/-- The two digits of a 64-bit value. -/
theorem digits_of_lt_two_pow_64 {v : Nat} (h : v < 2 ^ 64) : digitAt v 1 * digitBase + digitAt v 0 = v := by
  have htop : digitAt v 1 = v / digitBase ^ 1 := digitAt_top (h.trans_le (by decide))
  have hsplit := div_pow_eq_append_digit v 0
  rw [htop]
  rw [pow_zero, Nat.div_one] at hsplit
  exact hsplit.symm

/-- With a normalised divisor above the dividend's high part, estimate and correction give the quotient digit (R172). -/
theorem quotientDigit_eq_div {x d vn : Nat} (hnorm : 2 ^ 63 ≤ vn) (hvn : vn < 2 ^ 64) (hx : x < vn) (hd : d < digitBase) :
    quotientDigit x d (digitAt vn 1) (digitAt vn 0) = (x * digitBase + d) / vn := by
  have hdigits := digits_of_lt_two_pow_64 hvn
  have hlow := digitAt_lt vn 0
  have hv1 : digitBase ≤ 2 * digitAt vn 1 := by
    rw [digitBase_eq] at hdigits hlow ⊢
    omega
  rw [quotientDigit_eq_largestDigit hv1 hlow hd (by rw [hdigits]; exact hx.le), largestDigit_eq_div hd (by rwa [hdigits]), hdigits]

/-- The remainder of a turn is computed modulo `2^64`, which loses nothing as it fits (R172). -/
theorem digitRemainder_toNat {x vn : Word64} {d q r : Nat} (hdivision : q * vn.toNat + r = x.toNat * digitBase + d)
    (hr : r < 2 ^ 64) : (x <<< 32 + BitVec.ofNat 64 d - BitVec.ofNat 64 q * vn).toNat = r := by
  rw [digitBase_eq] at hdivision
  simp only [BitVec.toNat_sub, BitVec.toNat_add, BitVec.toNat_mul, BitVec.toNat_shiftLeft, BitVec.toNat_ofNat, Nat.shiftLeft_eq,
    Nat.mod_mul_mod]
  omega

/-- The remainder of a turn after a quotient digit is the remainder by the divisor (R172). -/
theorem digitRemainder_eq_mod {x vn : Word64} {d q : Nat} (hvn : 0 < vn.toNat)
    (hq : q = (x.toNat * digitBase + d) / vn.toNat) :
    (x <<< 32 + BitVec.ofNat 64 d - BitVec.ofNat 64 q * vn).toNat = (x.toNat * digitBase + d) % vn.toNat := by
  refine digitRemainder_toNat ?_ ((Nat.mod_lt _ hvn).trans vn.isLt)
  rw [hq]
  exact Nat.div_add_mod' _ _

/-! ## Normalising the operands -/

/-- The dividend shifted left over two limbs (R172), when nothing leaves the high limb. -/
theorem shiftedDividend_toNat {u1 u0 : Word64} {n : Nat} (hn : n < 64) (hfit : u1.toNat * 2 ^ n < 2 ^ 64) :
    (if n = 0 then u1 else u1 <<< n ||| u0 >>> (64 - n)).toNat * 2 ^ 64 + (if n = 0 then u0 else u0 <<< n).toNat =
      (u1.toNat * 2 ^ 64 + u0.toNat) * 2 ^ n := by
  split_ifs with h0
  · simp [h0]
  · have hpow : 2 ^ 64 = 2 ^ (64 - n) * 2 ^ n := by rw [← pow_add, Nat.sub_add_cancel hn.le]
    have hcarry : u0.toNat / 2 ^ (64 - n) < 2 ^ n := Nat.div_lt_of_lt_mul (hpow ▸ u0.isLt)
    have hhigh : (u1 <<< n ||| u0 >>> (64 - n)).toNat = u1.toNat * 2 ^ n + u0.toNat / 2 ^ (64 - n) := by
      rw [BitVec.toNat_or, BitVec.toNat_shiftLeft, BitVec.toNat_ushiftRight, Nat.shiftRight_eq_div_pow, Nat.shiftLeft_eq,
        Nat.mod_eq_of_lt hfit, ← Nat.shiftLeft_eq, ← Nat.shiftLeft_add_eq_or_of_lt hcarry]
    have hlow : (u0 <<< n).toNat = u0.toNat % 2 ^ (64 - n) * 2 ^ n := by
      rw [BitVec.toNat_shiftLeft, Nat.shiftLeft_eq, ← Nat.mul_mod_mul_right, ← hpow]
    calc (u1 <<< n ||| u0 >>> (64 - n)).toNat * 2 ^ 64 + (u0 <<< n).toNat
        = u1.toNat * 2 ^ n * 2 ^ 64 + u0.toNat / 2 ^ (64 - n) * 2 ^ 64 + u0.toNat % 2 ^ (64 - n) * 2 ^ n := by
          rw [hhigh, hlow, Nat.add_mul]
      _ = u1.toNat * 2 ^ n * 2 ^ 64 + (2 ^ (64 - n) * (u0.toNat / 2 ^ (64 - n)) + u0.toNat % 2 ^ (64 - n)) * 2 ^ n := by
          conv_lhs => enter [1, 2]; rw [hpow]
          ring
      _ = (u1.toNat * 2 ^ 64 + u0.toNat) * 2 ^ n := by
          rw [Nat.div_add_mod]
          ring

/-- Normalising a 64-bit divisor loses no bit and sets its top one (R172). -/
theorem normalizedDivisor {v : Word64} (hv : v ≠ 0) :
    leadingZeros64 v < 64 ∧ (v <<< leadingZeros64 v).toNat = v.toNat * 2 ^ leadingZeros64 v ∧
      2 ^ 63 ≤ v.toNat * 2 ^ leadingZeros64 v ∧ v.toNat * 2 ^ leadingZeros64 v < 2 ^ 64 := by
  obtain ⟨hlow, hhigh⟩ := normalize_bounds (fun h => hv (BitVec.eq_of_toNat_eq h)) (k := 63) v.isLt
  rw [leadingZeros64_eq_log2 hv]
  refine ⟨by omega, ?_, hlow, hhigh⟩
  rw [BitVec.toNat_shiftLeft, Nat.shiftLeft_eq, Nat.mod_eq_of_lt hhigh]

/-! ## The primitive -/

/-- The dividend of a turn of R172 has the high part and one digit of the low limb; the second turn's has the other digit appended. -/
theorem toNat_eq_append_digits (h l : Word64) :
    h.toNat * 2 ^ 64 + l.toNat = (h.toNat * digitBase + digitAt l.toNat 1) * digitBase + digitAt l.toNat 0 := by
  have hlimb : 2 ^ 64 = digitBase * digitBase := by decide
  rw [hlimb]
  conv_lhs => rw [← digits_of_lt_two_pow_64 l.isLt]
  ring

/-- The two turns of R172 on normalised operands: the quotient's two digits and the remainder of `un32 * 2^64 + un10` by `vn`. -/
theorem twoDigits_eq {un32 un10 vn un21 : Word64} {q1 q0 : Nat} (hnorm : 2 ^ 63 ≤ vn.toNat) (hlt : un32.toNat < vn.toNat)
    (hq1 : q1 = quotientDigit un32.toNat (digitAt un10.toNat 1) (digitAt vn.toNat 1) (digitAt vn.toNat 0))
    (hun21 : un21 = un32 <<< 32 + BitVec.ofNat 64 (digitAt un10.toNat 1) - BitVec.ofNat 64 q1 * vn)
    (hq0 : q0 = quotientDigit un21.toNat (digitAt un10.toNat 0) (digitAt vn.toNat 1) (digitAt vn.toNat 0)) :
    q1 * digitBase + q0 = (un32.toNat * 2 ^ 64 + un10.toNat) / vn.toNat ∧
      (un21 <<< 32 + BitVec.ofNat 64 (digitAt un10.toNat 0) - BitVec.ofNat 64 q0 * vn).toNat =
        (un32.toNat * 2 ^ 64 + un10.toNat) % vn.toNat := by
  have hpos : 0 < vn.toNat := Nat.zero_lt_of_lt hlt
  have hd1 := digitAt_lt un10.toNat 1
  have hd0 := digitAt_lt un10.toNat 0
  rw [quotientDigit_eq_div hnorm vn.isLt hlt hd1] at hq1
  have hr1 : un21.toNat = (un32.toNat * digitBase + digitAt un10.toNat 1) % vn.toNat := by
    rw [hun21]
    exact digitRemainder_eq_mod hpos hq1
  rw [quotientDigit_eq_div hnorm vn.isLt (hr1 ▸ Nat.mod_lt _ hpos) hd0] at hq0
  obtain ⟨hdiv, hmod⟩ := div_mod_append_digit (un32.toNat * digitBase + digitAt un10.toNat 1) (digitAt un10.toNat 0) digitBase hpos
  rw [toNat_eq_append_digits, hdiv, hmod, ← hr1, ← hq1, ← hq0]
  exact ⟨rfl, digitRemainder_eq_mod hpos hq0⟩

/-- A dividend whose high limb is below the divisor. -/
theorem dividend_lt {u1 u0 v : Word64} (hlt : u1 < v) : u1.toNat * 2 ^ 64 + u0.toNat < v.toNat * 2 ^ 64 := by
  have := u0.isLt
  rw [BitVec.lt_def] at hlt
  omega

/-- The primitive's pair is quotient and remainder (R172): normalising multiplies dividend, divisor and remainder by the same power of
two. -/
theorem divUnchecked_toNat {u1 u0 v : Word64} (hv : v ≠ 0) (hlt : u1 < v) :
    (divUnchecked u1 u0 v).1.toNat = (u1.toNat * 2 ^ 64 + u0.toNat) / v.toNat ∧
      (divUnchecked u1 u0 v).2.toNat = (u1.toNat * 2 ^ 64 + u0.toNat) % v.toNat := by
  obtain ⟨hn, hvn, hnorm, hfits⟩ := normalizedDivisor hv
  have hpow := Nat.two_pow_pos (leadingZeros64 v)
  have hu1 := Nat.mul_lt_mul_of_pos_right (BitVec.lt_def.1 hlt) hpow
  have hdividend := shiftedDividend_toNat (u0 := u0) hn (hu1.trans hfits)
  have hbound := dividend_lt (u0 := u0) hlt
  obtain ⟨un32, hun32⟩ : ∃ x, x = if leadingZeros64 v = 0 then u1
    else u1 <<< leadingZeros64 v ||| u0 >>> (64 - leadingZeros64 v) := ⟨_, rfl⟩
  obtain ⟨un10, hun10⟩ : ∃ x, x = if leadingZeros64 v = 0 then u0 else u0 <<< leadingZeros64 v := ⟨_, rfl⟩
  obtain ⟨vn, hvn'⟩ : ∃ x, x = v <<< leadingZeros64 v := ⟨_, rfl⟩
  obtain ⟨q1, hq1⟩ : ∃ q, q = quotientDigit un32.toNat (digitAt un10.toNat 1) (digitAt vn.toNat 1) (digitAt vn.toNat 0) :=
    ⟨_, rfl⟩
  obtain ⟨un21, hun21⟩ : ∃ x, x = un32 <<< 32 + BitVec.ofNat 64 (digitAt un10.toNat 1) - BitVec.ofNat 64 q1 * vn := ⟨_, rfl⟩
  obtain ⟨q0, hq0⟩ : ∃ q, q = quotientDigit un21.toNat (digitAt un10.toNat 0) (digitAt vn.toNat 1) (digitAt vn.toNat 0) :=
    ⟨_, rfl⟩
  have hpair : divUnchecked u1 u0 v = (BitVec.ofNat 64 (q1 * digitBase + q0),
      (un21 <<< 32 + BitVec.ofNat 64 (digitAt un10.toNat 0) - BitVec.ofNat 64 q0 * vn) >>> leadingZeros64 v) := by
    subst hq0 hun21 hq1 hvn' hun10 hun32
    rfl
  rw [← hun32, ← hun10] at hdividend
  rw [← hvn'] at hvn
  have hhigh : un32.toNat < vn.toNat := by
    have hscaled := Nat.mul_lt_mul_of_pos_right hbound hpow
    rw [← hdividend, Nat.mul_right_comm, ← hvn] at hscaled
    omega
  obtain ⟨hquotient, hremainder⟩ := twoDigits_eq (hvn ▸ hnorm) hhigh hq1 hun21 hq0
  rw [hdividend, hvn] at hquotient hremainder
  rw [Nat.mul_div_mul_right _ _ hpow] at hquotient
  rw [Nat.mul_mod_mul_right] at hremainder
  rw [hpair, hquotient, BitVec.toNat_ofNat, BitVec.toNat_ushiftRight, hremainder, Nat.shiftRight_eq_div_pow,
    Nat.mul_div_cancel _ hpow]
  exact ⟨Nat.mod_eq_of_lt (Nat.div_lt_of_lt_mul hbound), rfl⟩

/-- Settles O56: the pair is quotient and remainder. -/
theorem divUncheckedIsExact : Obligations.DivUncheckedIsExact := by
  intro u1 u0 v hv hlt
  obtain ⟨hquotient, hremainder⟩ := divUnchecked_toNat (u0 := u0) hv hlt
  rw [hquotient, hremainder]
  exact ⟨(Nat.div_add_mod _ _).symm, Nat.mod_lt _ (Nat.pos_of_ne_zero fun h => hv (BitVec.eq_of_toNat_eq h))⟩

end Sys2Proof.Machine
end

section
/-! Algorithm D on 32-bit digits, and the divider's choice of a route (44_divide.md R171, R173, R175): every route computes quotient and
remainder. -/

namespace Sys2Proof.Machine

/-! ## Short division -/

theorem shortDivide_succ (k a d q r : Nat) : shortDivide (k + 1) a d q r =
    shortDivide k a d (q * digitBase + (r * digitBase + digitAt a k) / d) ((r * digitBase + digitAt a k) % d) := by
  delta shortDivide
  rfl

/-- Short division carries on from the quotient and remainder of the digits already seen (R175, `n = 1`). -/
theorem shortDivide_eq (a : Nat) {d : Nat} (hd : 0 < d) (j : Nat) :
    shortDivide j a d (a / digitBase ^ j / d) (a / digitBase ^ j % d) = (a / d, a % d) := by
  induction j with
  | zero =>
    rw [pow_zero, Nat.div_one]
    rfl
  | succ k ih =>
    obtain ⟨hdiv, hmod⟩ := div_mod_append_digit (a / digitBase ^ (k + 1)) (digitAt a k) digitBase hd
    rw [← div_pow_eq_append_digit] at hdiv hmod
    rw [shortDivide_succ, ← hdiv, ← hmod, ih]

/-! ## One turn of the main loop -/

/-- The corrected estimate, which leaves out the low `m` digits of divisor and dividend, is the quotient digit or one more (R175). -/
theorem div_le_largestDigit_le_succ {num next v1 v0 m v seg : Nat} (hv : digitBase ≤ v1 * digitBase + v0)
    (hv2 : v1 * digitBase + v0 = v / digitBase ^ m) (hseg : num * digitBase + next = seg / digitBase ^ m) (hlt : seg < v * digitBase) :
    seg / v ≤ largestDigit num next v1 v0 ∧ largestDigit num next v1 v0 ≤ seg / v + 1 := by
  have hbase := digitBase_pos
  have hpow : 0 < digitBase ^ m := Nat.pow_pos hbase
  have hpos : 0 < v1 * digitBase + v0 := hbase.trans_le hv
  have hvpos : 0 < v := Nat.pos_of_ne_zero fun h => by simp [h] at hlt
  constructor
  · rw [le_largestDigit_iff hpos, hseg, hv2, Nat.le_div_iff_mul_le hpow]
    refine ⟨Nat.div_lt_of_lt_mul hlt, ?_⟩
    calc seg / v * (v / digitBase ^ m) * digitBase ^ m = seg / v * (v / digitBase ^ m * digitBase ^ m) := Nat.mul_assoc _ _ _
      _ ≤ seg / v * v := Nat.mul_le_mul_left _ (Nat.div_mul_le_self v _)
      _ ≤ seg := Nat.div_mul_le_self seg v
  · obtain ⟨hdigit, hfits⟩ := (le_largestDigit_iff (num := num) (next := next) hpos _).1 le_rfl
    generalize largestDigit num next v1 v0 = q at hdigit hfits ⊢
    rcases q with _ | p
    · exact Nat.zero_le _
    · refine Nat.succ_le_succ ((Nat.le_div_iff_mul_le hvpos).2 ?_)
      have hvlt : v ≤ (v1 * digitBase + v0 + 1) * digitBase ^ m := by
        rw [hv2, Nat.mul_comm]
        exact (Nat.lt_mul_div_succ v hpow).le
      have hp : p * (v1 * digitBase + v0 + 1) ≤ num * digitBase + next := by
        have hsplit : (p + 1) * (v1 * digitBase + v0) = p * (v1 * digitBase + v0) + (v1 * digitBase + v0) := by ring
        rw [hsplit] at hfits
        rw [Nat.mul_succ]
        omega
      calc p * v ≤ p * ((v1 * digitBase + v0 + 1) * digitBase ^ m) := Nat.mul_le_mul_left p hvlt
        _ = p * (v1 * digitBase + v0 + 1) * digitBase ^ m := (Nat.mul_assoc _ _ _).symm
        _ ≤ (num * digitBase + next) * digitBase ^ m := Nat.mul_le_mul_right _ hp
        _ ≤ seg := by rw [hseg]; exact Nat.div_mul_le_self seg _

/-- The multiply-and-subtract with its rare add-back (R175): an estimate that is the quotient digit, or one more, leads to the digit and
the remainder. -/
theorem subtract_or_addBack {qhat seg v wrap : Nat} (hge : seg / v ≤ qhat) (hle : qhat ≤ seg / v + 1) (hv : 0 < v)
    (hvwrap : v ≤ wrap) :
    (seg < qhat * v → qhat - 1 = seg / v ∧ (seg + wrap - qhat * v + v) % wrap = seg % v) ∧
      (¬ seg < qhat * v → qhat = seg / v ∧ seg - qhat * v = seg % v) := by
  have hdivision := Nat.div_add_mod' seg v
  have hmod := Nat.mod_lt seg hv
  rcases Nat.eq_or_lt_of_le hge with rfl | hgt
  · exact ⟨fun h => by omega, fun _ => ⟨rfl, by omega⟩⟩
  · obtain rfl : qhat = seg / v + 1 := Nat.le_antisymm hle hgt
    rw [Nat.succ_mul]
    refine ⟨fun _ => ⟨rfl, ?_⟩, fun h => by omega⟩
    have hsum : seg + wrap - (seg / v * v + v) + v = seg % v + wrap := by omega
    rw [hsum, Nat.add_mod_right, Nat.mod_eq_of_lt (hmod.trans_le hvwrap)]

/-- Replacing the digits from `j` on by their remainder gives the remainder of the whole (R175). -/
theorem sub_mul_add_mod_mul (u v base : Nat) : u - u / base * base + u / base % v * base = u % (v * base) := by
  have hdivision := Nat.div_add_mod' u base
  rw [Nat.mul_comm v base, Nat.mod_mul, Nat.mul_comm base (u / base % v)]
  omega

/-- One turn on a divisor of `m + 2` digits (R175). -/
theorem knuthDigit_eq_ite (m v k u : Nat) : knuthDigit (m + 2) v k u =
    let qhat := quotientDigit (digitAt u (k + (m + 2)) * digitBase + digitAt u (k + (m + 1))) (digitAt u (k + m))
      (digitAt v (m + 1)) (digitAt v m)
    let wrap := digitBase ^ (m + 2 + 1)
    let seg := u / digitBase ^ k % wrap
    if seg < qhat * v then (qhat - 1, u - seg * digitBase ^ k + (seg + wrap - qhat * v + v) % wrap * digitBase ^ k)
    else (qhat, u - seg * digitBase ^ k + (seg - qhat * v) * digitBase ^ k) := rfl

theorem knuthLoop_succ (k n v u q : Nat) :
    knuthLoop (k + 1) n v u q = knuthLoop k n v (knuthDigit n v k u).2 (q * digitBase + (knuthDigit n v k u).1) := by
  delta knuthLoop
  rfl

/-- The digits of the dividend that the estimate reads are the top ones of the segment that the divisor is subtracted from (R175). -/
theorem segment_digits {m k u seg : Nat} (hseg : seg = u / digitBase ^ k) (hlt : seg < digitBase ^ (m + 2 + 1)) :
    digitAt u (k + (m + 2)) * digitBase + digitAt u (k + (m + 1)) = seg / digitBase ^ (m + 1) ∧
      seg / digitBase ^ (m + 1) * digitBase + digitAt u (k + m) = seg / digitBase ^ m := by
  have hdigits (i : Nat) : digitAt u (k + i) = digitAt seg i := by rw [hseg, digitAt_div_pow]
  rw [hdigits, hdigits, hdigits, digitAt_top hlt, ← div_pow_eq_append_digit, ← div_pow_eq_append_digit]
  exact ⟨rfl, rfl⟩

/-- A normalised divisor of `m + 2` digits (R175). -/
structure NormalizedDivisor (m v : Nat) : Prop where
  lower : digitBase * digitBase ^ (m + 1) ≤ 2 * v
  upper : v < digitBase ^ (m + 2)

section
variable {m v : Nat} (hv : NormalizedDivisor m v)
include hv

theorem NormalizedDivisor.pos : 0 < v := by
  have hlower := hv.lower
  have hpow := Nat.mul_pos digitBase_pos (Nat.pow_pos (n := m + 1) digitBase_pos)
  omega

/-- The top digit has its top bit set, and the two top digits are all but the low `m` digits. -/
theorem NormalizedDivisor.digits :
    digitBase ≤ 2 * digitAt v (m + 1) ∧ digitAt v (m + 1) * digitBase + digitAt v m = v / digitBase ^ m := by
  have hpow : 0 < digitBase ^ (m + 1) := Nat.pow_pos digitBase_pos
  rw [digitAt_top hv.upper, ← div_pow_eq_append_digit]
  refine ⟨?_, rfl⟩
  have heven : digitBase / 2 * 2 = digitBase := by decide
  have hhalf : digitBase / 2 ≤ v / digitBase ^ (m + 1) := by
    have hlower := hv.lower
    have hsplit : digitBase / 2 * digitBase ^ (m + 1) * 2 = digitBase * digitBase ^ (m + 1) := by
      rw [Nat.mul_right_comm, heven]
    rw [Nat.le_div_iff_mul_le hpow]
    omega
  omega

/-- One turn of the main loop finds the quotient digit and reduces the dividend (R175). -/
theorem knuthDigit_eq {k u : Nat} (hu : u < v * digitBase ^ (k + 1)) :
    knuthDigit (m + 2) v k u = (u / digitBase ^ k / v, u % (v * digitBase ^ k)) := by
  have hpow : 0 < digitBase ^ k := Nat.pow_pos digitBase_pos
  obtain ⟨hnorm, htop⟩ := hv.digits
  obtain ⟨seg, hseg⟩ : ∃ x, x = u / digitBase ^ k := ⟨_, rfl⟩
  have hseglt : seg < v * digitBase := by
    rw [hseg]
    refine Nat.div_lt_of_lt_mul ?_
    rwa [Nat.mul_left_comm, ← pow_succ]
  have hwrap : v * digitBase < digitBase ^ (m + 2 + 1) := by
    rw [pow_succ]
    exact Nat.mul_lt_mul_of_pos_right hv.upper digitBase_pos
  obtain ⟨hnum, hthree⟩ := segment_digits hseg (hseglt.trans hwrap)
  have hle : seg / digitBase ^ (m + 1) ≤ digitAt v (m + 1) * digitBase + digitAt v m := by
    rw [htop, pow_succ, ← Nat.div_div_eq_div_mul, Nat.div_right_comm]
    exact Nat.div_le_div_right (Nat.div_le_of_le_mul (Nat.mul_comm _ _ ▸ hseglt.le))
  have hestimate := quotientDigit_eq_largestDigit hnorm (digitAt_lt v m) (digitAt_lt u (k + m)) hle
  have hv1 : 0 < digitAt v (m + 1) := by
    have := digitBase_pos
    omega
  have hdivisor := (Nat.le_mul_of_pos_left digitBase hv1).trans (Nat.le_add_right _ (digitAt v m))
  obtain ⟨hge, hle'⟩ := div_le_largestDigit_le_succ hdivisor htop hthree hseglt
  rw [← hestimate] at hge hle'
  obtain ⟨haddBack, hsubtract⟩ := subtract_or_addBack hge hle' hv.pos
    ((Nat.le_mul_of_pos_right v digitBase_pos).trans hwrap.le)
  have hreduce := sub_mul_add_mod_mul u v (digitBase ^ k)
  rw [← hseg] at hreduce ⊢
  rw [knuthDigit_eq_ite]
  dsimp only
  rw [← hseg, Nat.mod_eq_of_lt (hseglt.trans hwrap), hnum]
  split_ifs with hcase
  · obtain ⟨hq, hr⟩ := haddBack hcase
    rw [hq, hr, hreduce]
  · obtain ⟨hq, hr⟩ := hsubtract hcase
    rw [hr, hreduce, hq]

/-- The main loop appends the quotient's digits to what it was given, and leaves the remainder (R175). -/
theorem knuthLoop_eq (j : Nat) : ∀ u q, u < v * digitBase ^ j →
    knuthLoop j (m + 2) v u q = (q * digitBase ^ j + u / v, u % v) := by
  induction j with
  | zero =>
    intro u q hu
    rw [pow_zero, Nat.mul_one] at hu
    rw [pow_zero, Nat.mul_one, Nat.div_eq_of_lt hu, Nat.mod_eq_of_lt hu, Nat.add_zero]
    rfl
  | succ k ih =>
    intro u q hu
    have hpos := Nat.mul_pos hv.pos (Nat.pow_pos (n := k) digitBase_pos)
    rw [knuthLoop_succ, knuthDigit_eq hv hu, ih _ _ (Nat.mod_lt u hpos), Nat.mod_mul_right_mod, Nat.mod_mul_right_div_self,
      Nat.div_right_comm, Nat.add_mul, Nat.add_assoc, Nat.div_add_mod', Nat.mul_assoc, ← pow_succ']

end

/-! ## Algorithm D -/

/-- The number of digits of a divisor that has more than one (R175). -/
theorem digitCount_cases {d : Nat} (hd : d < digitBase ^ 4) :
    digitCount d = 1 ∨ ∃ m, m ≤ 2 ∧ digitCount d = m + 2 ∧ digitBase ^ (m + 1) ≤ d ∧ d < digitBase ^ (m + 2) := by
  unfold digitCount
  split_ifs with h1 h2 h3
  · exact .inl rfl
  · exact .inr ⟨0, by decide, rfl, by rw [zero_add, pow_one]; exact Nat.not_lt.1 h1, h2⟩
  · exact .inr ⟨1, by decide, rfl, Nat.not_lt.1 h2, h3⟩
  · exact .inr ⟨2, by decide, rfl, Nat.not_lt.1 h3, hd⟩

theorem digitBase_pow (k : Nat) : digitBase ^ k = 2 ^ (32 * k) := (pow_mul 2 32 k).symm

/-- The shift of R175 brings the divisor's top set bit to the top of its digits. -/
theorem normalizedDivisor_shift {m d : Nat} (hlow : digitBase ^ (m + 1) ≤ d) (hhigh : d < digitBase ^ (m + 2)) :
    ∃ n, n = 31 - highBitFrom 4 (digitAt d (m + 1)) 32 ∧ NormalizedDivisor m (d * 2 ^ n) := by
  have hpow : 0 < digitBase ^ (m + 1) := Nat.pow_pos digitBase_pos
  have htop : digitAt d (m + 1) ≠ 0 := by
    rw [digitAt_top hhigh]
    exact (Nat.div_pos hlow hpow).ne'
  have hscan : highBitFrom 4 (digitAt d (m + 1)) 32 = Nat.log2 (digitAt d (m + 1)) :=
    highBitFrom_eq_log2 htop 32 4 (digitAt_lt d (m + 1))
  have hlog : Nat.log2 d = 32 * (m + 1) + Nat.log2 (digitAt d (m + 1)) := by
    rw [digitAt_top hhigh, digitBase_pow] at htop ⊢
    exact log2_eq_add_log2_div htop
  have hexp : 32 * (m + 2) = 32 * (m + 1) + 31 + 1 := by ring
  rw [digitBase_pow, hexp] at hhigh
  obtain ⟨hlower, hupper⟩ := normalize_bounds (Nat.ne_of_gt (hpow.trans_le hlow)) hhigh
  refine ⟨_, rfl, ?_, ?_⟩
  all_goals rw [hscan, ← Nat.add_sub_add_left (32 * (m + 1)) 31, ← hlog]
  · rw [← pow_succ', digitBase_pow, hexp, pow_succ']
    exact Nat.mul_le_mul_left 2 hlower
  · rw [digitBase_pow, hexp]
    exact hupper

/-- The shifted dividend of at most five digits is below the normalised divisor moved to the top of five digits. -/
theorem shiftedDividend_lt {a m v n : Nat} (ha : a < 2 ^ 128) (hn : n ≤ 31) (hm : m ≤ 2) (hv : NormalizedDivisor m v) :
    a * 2 ^ n < v * digitBase ^ (5 - (m + 2)) := by
  have hfive : digitBase * digitBase ^ (m + 1) * digitBase ^ (5 - (m + 2)) = 2 ^ 160 := by
    rw [← pow_succ', ← pow_add, digitBase_pow, show m + 1 + 1 + (5 - (m + 2)) = 5 by omega]
  have htop : 2 ^ 160 ≤ 2 * v * digitBase ^ (5 - (m + 2)) := hfive ▸ Nat.mul_le_mul_right _ hv.lower
  have hshift : a * 2 ^ n < 2 ^ 128 * 2 ^ 31 := Nat.mul_lt_mul_of_lt_of_le ha (Nat.pow_le_pow_right (by decide) hn) (by decide)
  rw [Nat.mul_assoc] at htop
  omega

/-- Algorithm D on a dividend that is not below a divisor of several digits (R175). -/
theorem knuthDivide_of_digits {a d m : Nat} (hle : ¬ a < d) (hcount : digitCount d = m + 2) :
    knuthDivide a d =
      let n := 31 - highBitFrom 4 (digitAt d (m + 1)) 32
      let qu := knuthLoop (5 - (m + 2)) (m + 2) (d * 2 ^ n) (a * 2 ^ n) 0
      (qu.1, qu.2 % digitBase ^ (m + 2) / 2 ^ n) := by
  unfold knuthDivide
  rw [if_neg hle, hcount]
  exact if_neg (by omega)

/-- Algorithm D computes quotient and remainder: the shift multiplies dividend, divisor and remainder alike (R175). -/
theorem knuthDivide_eq {a d : Nat} (ha : a < 2 ^ 128) (hd : 0 < d) (hd' : d < 2 ^ 128) : knuthDivide a d = (a / d, a % d) := by
  by_cases hle : a < d
  case pos =>
    rw [knuthDivide, if_pos hle, Nat.div_eq_of_lt hle, Nat.mod_eq_of_lt hle]
  case neg =>
    have hfour : digitBase ^ 4 = 2 ^ 128 := digitBase_pow 4
    rcases digitCount_cases (hfour ▸ hd') with hone | ⟨m, hm, hcount, hlow, hhigh⟩
    · have hzero : a / digitBase ^ 4 = 0 := Nat.div_eq_of_lt (hfour ▸ ha)
      have hshort := shortDivide_eq a hd 4
      rw [hzero, Nat.zero_div, Nat.zero_mod] at hshort
      rw [knuthDivide, if_neg hle, hone]
      exact hshort
    · obtain ⟨n, hn, hv⟩ := normalizedDivisor_shift hlow hhigh
      have hpow := Nat.two_pow_pos n
      have hdividend := shiftedDividend_lt ha (by omega : n ≤ 31) hm hv
      rw [knuthDivide_of_digits hle hcount, ← hn]
      dsimp only
      rw [knuthLoop_eq hv _ _ _ hdividend, Nat.zero_mul, Nat.zero_add, Nat.mod_eq_of_lt ((Nat.mod_lt _ hv.pos).trans hv.upper),
        Nat.mul_div_mul_right _ _ hpow, Nat.mul_mod_mul_right, Nat.mul_div_cancel _ hpow]

/-- Settles O57, by the number of the divisor's digits. -/
theorem knuthDivideIsExact : Obligations.KnuthDivideIsExact := fun _ _ ha hd hd' => knuthDivide_eq ha hd hd'

/-! ## The routes -/

/-- The 32-bit path divides the low limbs, which are the operands (R171). -/
theorem lowLimbs_route {a b : Word128} (ha : hi64 a = 0) (hb : b.toNat < digitBase) :
    (widen (lo64 a / lo64 b), widen (lo64 a % lo64 b)) = divMod a b := by
  have hlowA : (lo64 a).toNat = a.toNat := by
    rw [toNat_eq_limbs a, ha]
    simp
  have hlowB : (lo64 b).toNat = b.toNat := by
    rw [lo64_toNat, Nat.mod_eq_of_lt]
    rw [digitBase_eq] at hb
    omega
  refine Prod.ext (BitVec.eq_of_toNat_eq ?_) (BitVec.eq_of_toNat_eq ?_)
  · rw [widen_toNat, BitVec.toNat_udiv, hlowA, hlowB, divMod, BitVec.toNat_udiv]
  · rw [widen_toNat, BitVec.toNat_umod, hlowA, hlowB, divMod, BitVec.toNat_umod]

/-- The power-of-two path shifts and masks (R171). -/
theorem powerOfTwo_route (a : Word128) {b : Word128} (hb0 : b ≠ 0) (hb : isPow2 b = true) :
    (shiftRight a (highBitPosition128 b), and128 a (b - 1)) = divMod a b := by
  obtain ⟨k, hk⟩ := (isPow2_iff b).1 hb
  have hmask : (b - 1).toNat = 2 ^ k - 1 := by
    rw [← hk]
    have := Nat.two_pow_pos k
    exact BitVec.toNat_sub_of_le (BitVec.le_def.2 (hk ▸ this))
  refine Prod.ext (BitVec.eq_of_toNat_eq ?_) (BitVec.eq_of_toNat_eq ?_)
  · rw [shiftRight_toNat, highBitPosition128_eq_log2 hb0, divMod, BitVec.toNat_udiv, hk, Nat.log2_two_pow]
  · rw [and128_eq, BitVec.toNat_and, hmask, Nat.and_two_pow_sub_one_eq_mod, divMod, BitVec.toNat_umod, hk]

/-- The route of a narrow divisor: the high limb is divided first, and its remainder goes to the primitive (R173). -/
theorem divide128by64_eq (a : Word128) {b : Word128} (hb0 : b ≠ 0) (hb : hi64 b = 0) : divide128by64 a (lo64 b) = divMod a b := by
  have hlow : (lo64 b).toNat = b.toNat := by
    rw [toNat_eq_limbs b, hb]
    simp
  have hpos : 0 < (lo64 b).toNat := hlow ▸ Nat.pos_of_ne_zero fun h => hb0 (BitVec.eq_of_toNat_eq h)
  have hd0 : lo64 b ≠ 0 := fun h => hpos.ne' (congrArg BitVec.toNat h)
  have hrem : hi64 a % lo64 b < lo64 b := BitVec.lt_def.2 (by rw [BitVec.toNat_umod]; exact Nat.mod_lt _ hpos)
  obtain ⟨hquotient, hremainder⟩ := divUnchecked_toNat (u0 := lo64 a) hd0 hrem
  obtain ⟨hdiv, hmod⟩ := div_mod_append_digit (hi64 a).toNat (lo64 a).toNat (2 ^ 64) hpos
  rw [← toNat_eq_limbs, ← BitVec.toNat_umod] at hdiv hmod
  refine Prod.ext (BitVec.eq_of_toNat_eq ?_) (BitVec.eq_of_toNat_eq ?_)
  · rw [divide128by64, u128_toNat, hquotient, BitVec.toNat_udiv, ← hdiv, hlow, divMod, BitVec.toNat_udiv]
  · rw [divide128by64, widen_toNat, hremainder, ← hmod, hlow, divMod, BitVec.toNat_umod]

/-- Algorithm D on the values of two registers (R175). -/
theorem knuthDivide_route (a : Word128) {b : Word128} (hb0 : b ≠ 0) :
    (BitVec.ofNat 128 (knuthDivide a.toNat b.toNat).1, BitVec.ofNat 128 (knuthDivide a.toNat b.toNat).2) = divMod a b := by
  have hpos : 0 < b.toNat := Nat.pos_of_ne_zero fun h => hb0 (BitVec.eq_of_toNat_eq h)
  rw [knuthDivide_eq a.isLt hpos b.isLt]
  refine Prod.ext ?_ ?_
  · rw [← BitVec.toNat_udiv, BitVec.ofNat_toNat, BitVec.setWidth_eq, divMod]
  · rw [← BitVec.toNat_umod, BitVec.ofNat_toNat, BitVec.setWidth_eq, divMod]

/-- Settles O58, route by route. -/
theorem dividerRoutesAgree : Obligations.DividerRoutesAgree := by
  intro a b hb0
  unfold dividerRoute
  split_ifs with hlow hpow2 hnarrow
  · exact lowLimbs_route hlow.1 hlow.2
  · exact powerOfTwo_route a hb0 hpow2
  · exact divide128by64_eq a hb0 hnarrow
  · exact knuthDivide_route a hb0

end Sys2Proof.Machine
end
